-- ==== Sys2Proof/Word.lean ====
section
/-! DEFINITION. The word types of the block: bytes, byte strings, the 64-bit command word's fields (R13, R15, R106). -/

namespace Sys2Proof

/-- A byte: 8 bits, an unsigned value 0 to 255 (R13). -/
abbrev Byte := BitVec 8

/-- A code operand, and a code stored in a trie node: `CODE_W = 32` bits (R11, R31). -/
abbrev Code := BitVec 32

/-- A byte string: the source's phrase, label, key (R15). -/
abbrev Phrase := List Byte

/-- A command word of the one format `CW64` (R106, R111). -/
abbrev CmdWord := BitVec 64

end Sys2Proof
end

