-- ==== Sys2Proof/Config.lean ====
section
/-! DEFINITION. The one open parameter of the block, MAX_BITS (R9, R11; D1; U21), and its legal range. -/

namespace Sys2Proof

/-- What one implementation fixes: `MAX_BITS`, the largest `fixed_bits` it accepts (R9, D1).
A machine carries its value in `State.config`, which no step writes (log entry 1). -/
structure Config where
  maxBits : Nat
  deriving DecidableEq, Repr

/-- The spec's default, `MAX_BITS = 16` (R9). -/
def Config.default : Config := { maxBits := 16 }

/-- `MIN_BITS = 9`, fixed, no parameter (R9, D1). -/
def minBits : Nat := 9

/-- The parameter's legal range, `9 <= MAX_BITS <= 30` (R9). -/
abbrev Config.legal (c : Config) : Prop := 9 ≤ c.maxBits ∧ c.maxBits ≤ 30

end Sys2Proof
end

