-- ==== Sys2Proof/Machine/Capacity.lean ====
section
/-! DEFINITION. The capacities of the block as functions of MAX_BITS (R11). -/

namespace Sys2Proof

/-- `MAXW = MAX_BITS + 1`: the largest code width the block ever uses (R11, R164). -/
def Config.maxW (c : Config) : Nat := c.maxBits + 1

/-- `ACC_W = MAXW + 7`: width in bits of each bit-buffer accumulator (R11). -/
def Config.accW (c : Config) : Nat := c.maxW + 7

/-- `RD_SIZE = 2^MAX_BITS`: entries of the code-indexed table (R11). -/
def Config.rdSize (c : Config) : Nat := 2 ^ c.maxBits

/-- `TRIE_NODES = 2^(MAX_BITS+1)`: slots of the trie arena (R11). -/
def Config.trieNodes (c : Config) : Nat := 2 ^ (c.maxBits + 1)

/-- `PHRASE_MAX = 2^MAX_BITS`: the longest byte string any phrase register, operand or entry holds (R11). -/
def Config.phraseMax (c : Config) : Nat := 2 ^ c.maxBits

end Sys2Proof
end

