-- ==== Sys2Proof/Syntax.lean ====
section
/-! DEFINITION. The 23 commands of the opcode map (R108), one constructor a row, and the command transfer that carries one. -/

namespace Sys2Proof

/-- A command with its operands (R107, R108). `A` operands are 8-bit, `B` operands 32-bit; a phrase operand is the
byte string that accompanies the command on `pin` (R105). Operand order is the assembler's (R112). -/
inductive Instr where
  /-- `CTL.NOP` (R210) -/
  | ctlNop
  /-- `CTL.RST` (R211) -/
  | ctlRst
  /-- `CTL.CFG var, fixed_bits` (R212) -/
  | ctlCfg (var : Byte) (fixedBits : Code)
  /-- `TRIE.CLR` (R120) -/
  | trieClr
  /-- `TRIE.INIT` (R121) -/
  | trieInit
  /-- `TRIE.INS phrase, code` (R122) -/
  | trieIns (phrase : Phrase) (code : Code)
  /-- `TRIE.SRCH phrase` (R126) -/
  | trieSrch (phrase : Phrase)
  /-- `TRIE.SIZE` (R128) -/
  | trieSize
  /-- `RD.INIT` (R140) -/
  | rdInit
  /-- `RD.EXT code, phrase` (R141) -/
  | rdExt (code : Code) (phrase : Phrase)
  /-- `RD.LKP code` (R144) -/
  | rdLkp (code : Code)
  /-- `PK.CLR` (R150) -/
  | pkClr
  /-- `PK.EMIT code, width` (R152) -/
  | pkEmit (code : Code) (width : Byte)
  /-- `PK.FLUSH` (R154) -/
  | pkFlush
  /-- `UP.CLR` (R156) -/
  | upClr
  /-- `UP.READ width` (R158) -/
  | upRead (width : Byte)
  /-- `WID.GET n` (R165) -/
  | widGet (n : Code)
  /-- `C.START` (R170) -/
  | cStart
  /-- `C.STEP` (R171) -/
  | cStep
  /-- `C.RUN` (R176) -/
  | cRun
  /-- `D.START` (R190) -/
  | dStart
  /-- `D.STEP` (R194) -/
  | dStep
  /-- `D.RUN` (R197) -/
  | dRun
  deriving DecidableEq, Repr

/-- One `cmd` transfer: the command word and the byte string that accompanies it on `pin` (R105). -/
structure Command where
  word : CmdWord
  pin  : Phrase
  deriving DecidableEq, Repr

end Sys2Proof
end

