-- ==== Sys2Proof/WellFormed.lean ====
section
/-! DEFINITION. What the ports can carry: a phrase on `pin` has at most PHRASE_MAX bytes (R105). Every other operand's
range is its field's width and holds by type. A longer phrase is not outside the machine's meaning: TRIE.INS, TRIE.SRCH and
RD.EXT answer it with BAD_OPERAND (R224). -/

namespace Sys2Proof

/-- `pin` carries `0` to `PHRASE_MAX` bytes (R105). -/
def pinFits (c : Config) (p : Phrase) : Bool := decide (p.length ≤ c.phraseMax)

/-- A command the ports of a block with parameter `c` can carry (R105, R106). -/
def Instr.wellFormed (c : Config) : Instr → Bool
  | .trieIns p _ => pinFits c p
  | .trieSrch p => pinFits c p
  | .rdExt _ p => pinFits c p
  | .ctlNop => true
  | .ctlRst => true
  | .ctlCfg _ _ => true
  | .trieClr => true
  | .trieInit => true
  | .trieSize => true
  | .rdInit => true
  | .rdLkp _ => true
  | .pkClr => true
  | .pkEmit _ _ => true
  | .pkFlush => true
  | .upClr => true
  | .upRead _ => true
  | .widGet _ => true
  | .cStart => true
  | .cStep => true
  | .cRun => true
  | .dStart => true
  | .dStep => true
  | .dRun => true

end Sys2Proof
end

