-- ==== Sys2Proof/Decode.lean ====
section
/-! DEFINITION. The decoder of the command word CW64 (R106 to R109), and the encoder after it (R112). -/

namespace Sys2Proof

/-- Bits 63:56, `OP` (R106). -/
def opField (w : CmdWord) : BitVec 8 := w.extractLsb' 56 8

/-- Bits 39:32, `A` (R106). -/
def aField (w : CmdWord) : BitVec 8 := w.extractLsb' 32 8

/-- Bits 31:0, `B` (R106). -/
def bField (w : CmdWord) : BitVec 32 := w.extractLsb' 0 32

/-- Bits 55:40, `Z`, ignored by the block (R106). -/
def zField (w : CmdWord) : BitVec 16 := w.extractLsb' 40 16

/-- What the decoder says of a command: the instruction it is, or, by name, that its `OP` is reserved (R109). -/
inductive Decoded where
  | instr (i : Instr)
  | reserved (op : BitVec 8)
  deriving DecidableEq, Repr

/-- The fields of a `cmd` transfer that the block looks at (R106, R107): `Z` is not among them. -/
structure CmdFields where
  op  : BitVec 8
  a   : BitVec 8
  b   : BitVec 32
  pin : Phrase
  deriving DecidableEq, Repr

/-- The opcode map (R108): the instruction `OP` names, with operands `A`, `B` and the phrase on `pin`. Unused operands
and an unused `pin` are ignored, whatever they hold (R109). -/
def decodeFields (f : CmdFields) : Decoded :=
  match f.op.toNat with
  | 0x00 => .instr .ctlNop
  | 0x01 => .instr .ctlRst
  | 0x02 => .instr (.ctlCfg f.a f.b)
  | 0x10 => .instr .trieClr
  | 0x11 => .instr .trieInit
  | 0x12 => .instr (.trieIns f.pin f.b)
  | 0x13 => .instr (.trieSrch f.pin)
  | 0x14 => .instr .trieSize
  | 0x20 => .instr .rdInit
  | 0x21 => .instr (.rdExt f.b f.pin)
  | 0x22 => .instr (.rdLkp f.b)
  | 0x30 => .instr .pkClr
  | 0x31 => .instr (.pkEmit f.b f.a)
  | 0x32 => .instr .pkFlush
  | 0x40 => .instr .upClr
  | 0x41 => .instr (.upRead f.a)
  | 0x50 => .instr (.widGet f.b)
  | 0x60 => .instr .cStart
  | 0x61 => .instr .cStep
  | 0x62 => .instr .cRun
  | 0x70 => .instr .dStart
  | 0x71 => .instr .dStep
  | 0x72 => .instr .dRun
  | _ => .reserved f.op

/-- Decode one `cmd` transfer (R106 to R109): total, a reserved `OP` rejected by name. -/
def decode (c : Command) : Decoded :=
  decodeFields ⟨opField c.word, aField c.word, bField c.word, c.pin⟩

/-- The opcode map (R108) read the other way: the fields of each command, an unused `A`, `B` zero and an unused phrase
empty (R112). -/
def fieldsOf : Instr → CmdFields
  | .ctlNop => ⟨0x00#8, 0#8, 0#32, []⟩
  | .ctlRst => ⟨0x01#8, 0#8, 0#32, []⟩
  | .ctlCfg var fixedBits => ⟨0x02#8, var, fixedBits, []⟩
  | .trieClr => ⟨0x10#8, 0#8, 0#32, []⟩
  | .trieInit => ⟨0x11#8, 0#8, 0#32, []⟩
  | .trieIns phrase code => ⟨0x12#8, 0#8, code, phrase⟩
  | .trieSrch phrase => ⟨0x13#8, 0#8, 0#32, phrase⟩
  | .trieSize => ⟨0x14#8, 0#8, 0#32, []⟩
  | .rdInit => ⟨0x20#8, 0#8, 0#32, []⟩
  | .rdExt code phrase => ⟨0x21#8, 0#8, code, phrase⟩
  | .rdLkp code => ⟨0x22#8, 0#8, code, []⟩
  | .pkClr => ⟨0x30#8, 0#8, 0#32, []⟩
  | .pkEmit code width => ⟨0x31#8, width, code, []⟩
  | .pkFlush => ⟨0x32#8, 0#8, 0#32, []⟩
  | .upClr => ⟨0x40#8, 0#8, 0#32, []⟩
  | .upRead width => ⟨0x41#8, width, 0#32, []⟩
  | .widGet n => ⟨0x50#8, 0#8, n, []⟩
  | .cStart => ⟨0x60#8, 0#8, 0#32, []⟩
  | .cStep => ⟨0x61#8, 0#8, 0#32, []⟩
  | .cRun => ⟨0x62#8, 0#8, 0#32, []⟩
  | .dStart => ⟨0x70#8, 0#8, 0#32, []⟩
  | .dStep => ⟨0x71#8, 0#8, 0#32, []⟩
  | .dRun => ⟨0x72#8, 0#8, 0#32, []⟩

/-- The word `(OP << 56) | (A << 32) | B` of the fields, `Z` zero (R106, R112). -/
def packFields (f : CmdFields) : CmdWord := f.op ++ 0#16 ++ f.a ++ f.b

/-- The word and the phrase of a command line (R112): unused fields zero, the phrase on `pin`. -/
def encode (i : Instr) : Command := { word := packFields (fieldsOf i), pin := (fieldsOf i).pin }

/-- The `cmd` transfer of an instruction whose bits, numbered as spec/opcode_table.json numbers them, are `w`: the one
64-bit word, bits at and above `nbits` zero, and nothing on `pin` (the table gives the phrase operand no bits). -/
def tableCommand (nbits w : Nat) : Command :=
  { word := BitVec.ofNat 64 (w % 2 ^ nbits), pin := [] }

/-- The instruction the decoder reads from the bits `w` of an instruction of `nbits` bits (`none` where it refuses: a
reserved `OP`, or more bits than the one format has). -/
def decodeTableWord (nbits w : Nat) : Option Instr :=
  if nbits ≤ 64 then
    match decode (tableCommand nbits w) with
    | .instr i => some i
    | .reserved _ => none
  else none

end Sys2Proof
end

