-- ==== Sys2Proof/Machine/State.lean ====
section
/-! DEFINITION. The state of the block as plain data (10_state.md), the reasons a step of the model can stop, and the state
right after reset (R37, R250). -/

namespace Sys2Proof.Machine

/-- The phase register `ph` (R22); the values 6 and 7 are never held. -/
inductive Phase where
  /-- 0: no session; after reset -/
  | idle
  /-- 1: compression session open -/
  | comp
  /-- 2: decompression session open, first code not yet read -/
  | dec0
  /-- 3: decompression session open, first code done -/
  | dec1
  /-- 4: last session ended normally -/
  | done
  /-- 5: a fault is recorded -/
  | fault
  deriving DecidableEq, Repr

/-- The fault causes of the block, as `fcause` holds them (R24, R220); 7 is never held. Raising one is a transition of the
machine (R228), not a stop of the model. -/
inductive Cause where
  /-- 0: no fault recorded -/
  | none
  /-- 1: stream header short, or a field value not acceptable (R221) -/
  | invalidHeader
  /-- 2: first code of a body is not a single-byte code (R222) -/
  | invalidCode
  /-- 3: reserved opcode, or command not legal in this phase (R223) -/
  | badCmd
  /-- 4: operand outside the range its rule states (R224) -/
  | badOperand
  /-- 5: a bounded store cannot hold the result (R225) -/
  | storeFull
  /-- 6: phrase already stored in the trie (R226) -/
  | dupPhrase
  deriving DecidableEq, Repr

/-- The response status `st` (R110): `OK` 0, `MISS` 1, `END` 2, `FAULT` 3. -/
inductive Status where
  | ok
  | miss
  | ended
  | fault
  deriving DecidableEq, Repr

/-- The response triple `(st, val, phrase)` (R110). -/
structure Response where
  st     : Status
  val    : BitVec 32
  phrase : Phrase
  deriving DecidableEq, Repr

/-- What a host move gives the host (R217): nothing, the response of a command (R110), or the content of the sink. -/
inductive HostGets where
  | nothing
  | response (r : Response)
  | sink (bytes : List Byte)
  deriving DecidableEq, Repr

/-- The host's moves (R217). -/
inductive HostMove where
  /-- `H.BIND X` -/
  | bind (bytes : List Byte)
  /-- `H.TAKE` -/
  | take
  /-- one `cmd` transfer -/
  | command (c : Command)
  /-- the `rst` input (R250) -/
  | reset
  deriving DecidableEq, Repr

/-- A bit buffer: an accumulator and the count of its valid low bits (R29, R30). -/
structure BitBuf where
  acc : Nat
  cnt : Nat
  deriving DecidableEq, Repr

/-- The empty bit buffer. -/
def BitBuf.empty : BitBuf := { acc := 0, cnt := 0 }

/-- An edge of a node: a non-empty label, given as its first byte and the rest, and the slot it leads to (R31, R32 (I3)). -/
structure Edge where
  first : Byte
  rest  : Phrase
  child : Nat
  deriving DecidableEq, Repr

/-- A slot of the arena (R31): `code` is the pair (`term`, `code`), `none` where `term = 0`; `kids` holds the edges in the
order of their first bytes (the order is not architectural; one order makes equal maps equal data). -/
structure Node where
  code : Option Code
  kids : List Edge
  deriving DecidableEq, Repr

/-- The trie (R31): the slots in use, slot 0 the root, so that `tr_alloc` is the number of them; and `tr_size`. -/
structure Trie where
  nodes : List Node
  size  : Nat
  deriving DecidableEq, Repr

/-- A slot of an empty trie's root: not terminal, no edges. -/
def Node.blank : Node := { code := none, kids := [] }

/-- The cleared trie (R120, R37). -/
def Trie.cleared : Trie := { nodes := [Node.blank], size := 0 }

/-- The state of the block (10_state.md), and the model's own fields `config`, `host` and `out`. -/
structure State where
  /-- phase register (R22) -/
  ph      : Phase
  /-- fault cause register (R24) -/
  fcause  : Cause
  /-- session parameter `variable_size` (R25) -/
  cfgVar  : Bool
  /-- session parameter `fixed_bits` (R25) -/
  cfgBits : Nat
  /-- `S`, the compressor's unmatched match string (R27) -/
  compS   : Phrase
  /-- `enc_next`, the compressor's code counter (R27) -/
  encNext : Nat
  /-- `old`, the decompressor's previous phrase (R28) -/
  old     : Phrase
  /-- `dec_next`, the decompressor's code counter (R28) -/
  decNext : Nat
  /-- `pk_acc`, `pk_cnt` (R29) -/
  pk      : BitBuf
  /-- `up_acc`, `up_cnt` (R30) -/
  up      : BitBuf
  /-- `up_eos` (R30) -/
  upEos   : Bool
  /-- `tn`, `tr_alloc`, `tr_size` (R31) -/
  trie    : Trie
  /-- the valid entries of `rd`; `rd_len` is their number (R34) -/
  rd      : List Phrase
  /-- the not yet consumed part of the byte source (R35) -/
  src     : List Byte
  /-- everything pushed to the byte sink so far (R35) -/
  snk     : List Byte
  /-- the block's parameter MAX_BITS, written by nothing (R9; log entry 1) -/
  config  : Config
  /-- the host's pending moves, first move first (R217; log entry 2) -/
  host    : List HostMove
  /-- what the host got from its last move: the `rsp` port (R105, R110; log entry 3) -/
  out     : HostGets
  deriving DecidableEq, Repr

/-- The reasons the MODEL stops with a fault. None is a fault of the block (those are `Cause`, and entering one is a next
state); each marks a state no run reaches, in which the spec's pseudocode has no next line. All are safe. -/
inductive Fault where
  /-- C.STEP, C.RUN: `TrieSearch(S)` found no code, where R178 (a) says it always does. Safe: the model stops. -/
  | prefixNotStored
  /-- D.STEP, D.RUN: phase DEC1 with `old` empty, where R199 (b) says it is not; `old[0]` does not exist. Safe. -/
  | oldEmpty
  /-- D.STEP, D.RUN: a table entry is empty, where R199 (c) says none is; `p[0]` does not exist. Safe. -/
  | entryEmpty
  deriving DecidableEq, Repr

/-- The reasons the MODEL refuses. -/
inductive Refusal where
  /-- an instruction with no meaning yet; raised by exec's arm. Safe. -/
  | notModelled (mnemonic : String)
  /-- H.BIND while `busy`: the model has no such move (R217, U18). Raised by the step. Safe. -/
  | bindWhileBusy
  deriving DecidableEq, Repr

/-- The machine right after reset (R37, R250), with MAX_BITS at its default, no stream bound and no move pending (log
entries 1 to 4). -/
def State.reset : State :=
  { ph := .idle, fcause := .none, cfgVar := false, cfgBits := 12
    compS := [], encNext := 256, old := [], decNext := 256
    pk := BitBuf.empty, up := BitBuf.empty, upEos := false
    trie := Trie.cleared, rd := []
    src := [], snk := []
    config := Config.default, host := [], out := .nothing }

end Sys2Proof.Machine
end

