-- ==== Sys2Proof/Machine/Operands.lean ====
section
/-! DEFINITION. Operand and field assembly: command operands (R107), header fields (R91), bit and byte-string helpers
(R13 to R15). -/

namespace Sys2Proof.Machine

/-- `A` and width operands are unsigned, never extended (R107). -/
def operandA (a : BitVec 8) : Nat := a.toNat

/-- `B` as every command but CTL.CFG reads it: unsigned (R107). -/
def operandB (b : BitVec 32) : Nat := b.toNat

/-- `sext_32`: a 32-bit pattern read as two's complement (R13, R91, R107). -/
def sext32 (b : BitVec 32) : Int := b.toInt

/-- `F = h[1] | (h[2] << 8) | (h[3] << 16) | (h[4] << 24)` (R91, R190). -/
def headerWord (h1 h2 h3 h4 : Byte) : BitVec 32 :=
  h1.setWidth 32 ||| (h2.setWidth 32 <<< 8) ||| (h3.setWidth 32 <<< 16) ||| (h4.setWidth 32 <<< 24)

/-- `bit_length(n)` (R14): 0 for 0, else the `k` with `2^(k-1) <= n < 2^k`. -/
def bitLength (n : Nat) : Nat := if n = 0 then 0 else Nat.log2 n + 1

/-- `x & (2^k - 1)`: the low `k` bits (R166 (d)). -/
def lowBits (x k : Nat) : Nat := x &&& (2 ^ k - 1)

/-- `x & 0xFF` as a byte. -/
def lowByte (x : Nat) : Byte := BitVec.ofNat 8 (x &&& 0xFF)

/-- `cpl(x, y)`: the length of the longest common prefix of `x` and `y` (R15). -/
def commonPrefixLength : Phrase → Phrase → Nat
  | x :: xs, y :: ys => if x = y then commonPrefixLength xs ys + 1 else 0
  | _, _ => 0

/-- `cfg_var` as a header byte: 0x00 false, 0x01 true (R91). -/
def flagByte (v : Bool) : Byte := if v then 0x01#8 else 0x00#8

end Sys2Proof.Machine
end

