-- ==== Sys2Proof/Machine/Flags.lean ====
section
/-! DEFINITION. The status outputs, the derived predicates and the computed views of the stores (R22 to R26, R31, R34), and
the code numbers the host sees (R220, R110). -/

namespace Sys2Proof.Machine

/-- `busy = (ph in {COMP, DEC0, DEC1})` (R23). -/
def busy (s : State) : Bool := s.ph = .comp || s.ph = .dec0 || s.ph = .dec1

/-- `done = (ph = DONE)` (R23). -/
def doneFlag (s : State) : Bool := s.ph = .done

/-- `fault = (ph = FAULT)` (R23). -/
def faultFlag (s : State) : Bool := s.ph = .fault

/-- The 3-bit encoding of `ph` (R22). -/
def phaseCode : Phase → BitVec 3
  | .idle => 0
  | .comp => 1
  | .dec0 => 2
  | .dec1 => 3
  | .done => 4
  | .fault => 5

/-- The code a cause leaves in `fcause` and returns in `val` (R220). -/
def causeCode : Cause → BitVec 32
  | .none => 0
  | .invalidHeader => 1
  | .invalidCode => 2
  | .badCmd => 3
  | .badOperand => 4
  | .storeFull => 5
  | .dupPhrase => 6

/-- The 2-bit encoding of `st` (R110). -/
def statusCode : Status → BitVec 2
  | .ok => 0
  | .miss => 1
  | .ended => 2
  | .fault => 3

/-- `CAP = 2^cfg_bits`, the capacity ceiling (R10, R26). -/
def cap (s : State) : Nat := 2 ^ s.cfgBits

/-- `enc_frozen = (enc_next >= CAP)` (R26). -/
def encFrozen (s : State) : Bool := decide (cap s ≤ s.encNext)

/-- `dec_frozen = (dec_next >= CAP)` (R26). -/
def decFrozen (s : State) : Bool := decide (cap s ≤ s.decNext)

/-- `tr_alloc`: the number of slots in use (R31). -/
def trAlloc (t : Trie) : Nat := t.nodes.length

/-- `rd_len`: the number of valid entries (R34). -/
def rdLen (s : State) : Nat := s.rd.length

end Sys2Proof.Machine
end

