-- ==== Sys2Proof/Machine/Ops.lean ====
section
/-! DEFINITION. The named operations every command is built from: stream access (R62, R63), responses (R110), fault entry
(R228), the common preamble (R213), reset (R37, R250), and the result of an internal procedure. -/

namespace Sys2Proof.Machine

/-- `SrcPull()` (R62): the first byte of `src`, removed from it; `none` is `END`, and changes nothing. -/
def srcPull (s : State) : Option Byte × State :=
  match s.src with
  | [] => (none, s)
  | b :: bs => (some b, { s with src := bs })

/-- `SnkPush(b)` (R63). -/
def snkPush (b : Byte) (s : State) : State := { s with snk := s.snk ++ [b] }

/-- `SnkPushAll(x)`: the bytes of `x` pushed in order (R63). -/
def snkPushAll : Phrase → State → State
  | [], s => s
  | b :: bs, s => snkPushAll bs (snkPush b s)

/-- `respond(st, val, phrase)` (R110). -/
def respond (r : Response) (s : State) : State := { s with out := .response r }

/-- `respond(OK)`. -/
def Response.ok : Response := ⟨.ok, 0#32, []⟩

/-- `respond(OK, val)`. -/
def Response.value (v : BitVec 32) : Response := ⟨.ok, v, []⟩

/-- `respond(OK, 0, phrase)`. -/
def Response.found (p : Phrase) : Response := ⟨.ok, 0#32, p⟩

/-- `respond(MISS)`. -/
def Response.missed : Response := ⟨.miss, 0#32, []⟩

/-- `respond(END)`. -/
def Response.finished : Response := ⟨.ended, 0#32, []⟩

/-- `respond(FAULT, code)` (R110, R220). -/
def Response.failed (c : Cause) : Response := ⟨.fault, causeCode c, []⟩

/-- Fault entry, `raise X` (R228 (2) to (4)): the cause recorded, phase FAULT, the FAULT response. What the command had
done before stays done. -/
def faultEntry (c : Cause) (s : State) : State :=
  respond (Response.failed c) { s with fcause := c, ph := .fault }

/-- What an internal procedure comes to (R16): it is done, with a value; or it raised a cause, in the state it had reached
(R228 (1)); or its pseudocode has no next line, in a state no run reaches. -/
inductive Proc (α : Type) where
  | done (a : α) (s : State)
  | raised (c : Cause) (s : State)
  | stuck (f : Fault)

/-- One procedure after another: a raise ends both (R228 (1)). -/
def Proc.andThen {α β : Type} (p : Proc α) (k : α → State → Proc β) : Proc β :=
  match p with
  | .done a s => k a s
  | .raised c s => .raised c s
  | .stuck f => .stuck f

/-- A command's end: its response, or the fault entry of what it raised (R110, R228). -/
def complete (p : Proc Response) : Host.Outcome State Fault Refusal :=
  match p with
  | .done r s => .next (respond r s)
  | .raised c s => .next (faultEntry c s)
  | .stuck f => .fault f

/-- The common preamble (R213): in phase FAULT the command answers FAULT with the recorded cause and changes nothing; in a
phase not in `legal` it raises BAD_CMD; else `body` runs. -/
def command (legal : List Phase) (body : State → Proc Response) (s : State) :
    Host.Outcome State Fault Refusal :=
  if s.ph = .fault then .next (respond (Response.failed s.fcause) s)
  else if s.ph ∈ legal then complete (body s)
  else .next (faultEntry .badCmd s)

/-- The phases in which unit-level commands, CTL.CFG and the two STARTs are legal (R213). -/
def outsideSession : List Phase := [.idle, .done]

/-- A command whose `OP` is reserved (R109, R213): BAD_CMD in every phase but FAULT, where it answers FAULT. -/
def reservedCommand (s : State) : Host.Outcome State Fault Refusal :=
  command [] (fun s => .done Response.ok s) s

/-- Reset (R37, R250): every state element of the block at its reset value; the streams, which are the host's, stay, and so
do the model's own fields. -/
def resetBlock (s : State) : State :=
  { State.reset with
    src := s.src, snk := s.snk, config := s.config, host := s.host, out := s.out }

end Sys2Proof.Machine
end

