-- ==== Sys2Proof/Machine/BitPack.lean ====
section
/-! DEFINITION. The bit packer, the bit unpacker and the code-width policy (42_bitpack.md): PK.CLR, PK.EMIT, PK.FLUSH,
UP.CLR, UP.READ, WID.GET, and the procedures PkEmit, PkFlush, UpRead and the function W the drivers call. -/

namespace Sys2Proof.Machine

/-- The code-width policy `W(var, bits, n)` (R163). No clamp at `fixed_bits` (R164). -/
def codeWidth (var : Bool) (bits n : Nat) : Nat := if var then max 9 (bitLength n) else bits

/-- `require 1 <= w <= MAXW` (R152, R158). -/
def widthLegal (c : Config) (w : Nat) : Bool := decide (1 ≤ w ∧ w ≤ c.maxW)

/-- `PkClear` (R150). -/
def pkClear (s : State) : State := { s with pk := BitBuf.empty }

/-- The loop of `PkEmit` (R152): while 8 valid bits or more are held, the top 8 are pushed as one byte and masked off. Each
pass takes 8 off the count, so the count bounds the passes. -/
def pkDrain : Nat → State → State
  | 0, s => s
  | n + 1, s =>
    if 8 ≤ s.pk.cnt then
      let s1 := snkPush (lowByte (s.pk.acc >>> (s.pk.cnt - 8))) s
      pkDrain n { s1 with pk := { acc := lowBits s.pk.acc (s.pk.cnt - 8), cnt := s.pk.cnt - 8 } }
    else s

/-- `PkEmit(c, w)` (R152): the checks in the order written, then the shift and the drain. -/
def pkEmit (c w : Nat) (s : State) : Proc Unit :=
  if widthLegal s.config w = false then .raised .badOperand s
  else if 2 ^ w ≤ c then .raised .badOperand s
  else
    let s1 := { s with pk := { acc := (s.pk.acc <<< w) ||| c, cnt := s.pk.cnt + w } }
    .done () (pkDrain s1.pk.cnt s1)

/-- `PkFlush` (R154): the held bits as one byte padded with zeros below, if any are held; the buffer is emptied. -/
def pkFlush (s : State) : State :=
  let s1 := if 0 < s.pk.cnt then snkPush (lowByte (s.pk.acc <<< (8 - s.pk.cnt))) s else s
  pkClear s1

/-- `UpClear` (R156). -/
def upClear (s : State) : State := { s with up := BitBuf.empty, upEos := false }

/-- The loop of `UpRead` (R158): bytes are pulled and shifted in until `w` bits are held; `false` where the source ended
before that, which sets `up_eos`. Each pass adds 8 bits, so `w` bounds the passes. -/
def upFill (w : Nat) : Nat → State → Bool × State
  | 0, s => (true, s)
  | n + 1, s =>
    if s.up.cnt < w then
      match srcPull s with
      | (none, s1) => (false, { s1 with upEos := true })
      | (some b, s1) =>
        upFill w n { s1 with up := { acc := (s1.up.acc <<< 8) ||| b.toNat, cnt := s1.up.cnt + 8 } }
    else (true, s)

/-- `UpRead(w)` (R158, R159): the top `w` of the held bits, or `none` for EOS, the bits gathered staying held. -/
def upRead (w : Nat) (s : State) : Proc (Option Nat) :=
  if widthLegal s.config w = false then .raised .badOperand s
  else
    match upFill w w s with
    | (false, s1) => .done none s1
    | (true, s1) =>
      .done (some (s1.up.acc >>> (s1.up.cnt - w)))
        { s1 with up := { acc := lowBits s1.up.acc (s1.up.cnt - w), cnt := s1.up.cnt - w } }

/-- PK.CLR (R150). -/
def execPkClr (s : State) : Host.Outcome State Fault Refusal :=
  command outsideSession (fun s => .done Response.ok (pkClear s)) s

/-- PK.EMIT (R152). -/
def execPkEmit (code : Code) (width : Byte) (s : State) : Host.Outcome State Fault Refusal :=
  command outsideSession
    (fun s => (pkEmit (operandB code) (operandA width) s).andThen fun _ s' => .done Response.ok s') s

/-- PK.FLUSH (R154). -/
def execPkFlush (s : State) : Host.Outcome State Fault Refusal :=
  command outsideSession (fun s => .done Response.ok (pkFlush s)) s

/-- UP.CLR (R156). -/
def execUpClr (s : State) : Host.Outcome State Fault Refusal :=
  command outsideSession (fun s => .done Response.ok (upClear s)) s

/-- UP.READ (R158, R159). -/
def execUpRead (width : Byte) (s : State) : Host.Outcome State Fault Refusal :=
  command outsideSession
    (fun s =>
      (upRead (operandA width) s).andThen fun r s' =>
        match r with
        | some c => .done (Response.value (BitVec.ofNat 32 c)) s'
        | none => .done Response.finished s') s

/-- WID.GET (R165). -/
def execWidGet (n : Code) (s : State) : Host.Outcome State Fault Refusal :=
  command outsideSession
    (fun s =>
      .done (Response.value (BitVec.ofNat 32 (codeWidth s.cfgVar s.cfgBits (operandB n)))) s) s

end Sys2Proof.Machine
end

