-- ==== Sys2Proof/Machine/Trie.lean ====
section
/-! DEFINITION. The compression-side dictionary (40_trie.md): TRIE.CLR, TRIE.INIT, TRIE.INS, TRIE.SRCH, TRIE.SIZE, and the
procedures TrieClear, TrieInit, TrieInsert, TrieSearch the compression driver calls. -/

namespace Sys2Proof.Machine

/-- The label of an edge, a non-empty byte string (R31). -/
def Edge.label (e : Edge) : Phrase := e.first :: e.rest

/-- `tn[i]`. -/
def nodeAt (t : Trie) (i : Nat) : Node := t.nodes.getD i Node.blank

/-- `tn[i] <- n`. -/
def setNode (i : Nat) (n : Node) (t : Trie) : Trie := { t with nodes := t.nodes.set i n }

/-- A fresh slot at index `tr_alloc`, holding `n`; `tr_alloc` rises by 1 (R31). -/
def allocNode (n : Node) (t : Trie) : Trie := { t with nodes := t.nodes ++ [n] }

/-- `tr_size <- tr_size + 1` (R122). -/
def countInsert (t : Trie) : Trie := { t with size := t.size + 1 }

/-- The edge whose label begins with `b`, if any (R122; at most one, R32 (I4)). -/
def edgeFrom (b : Byte) (kids : List Edge) : Option Edge := kids.find? (fun e => e.first = b)

/-- Put an edge into a node's map in the order of first bytes, in the place of one with the same first byte (log entry 7). -/
def putEdge (e : Edge) : List Edge → List Edge
  | [] => [e]
  | x :: xs =>
    if e.first.toNat < x.first.toNat then e :: x :: xs
    else if e.first = x.first then e :: xs
    else x :: putEdge e xs

/-- `kids[label] <- child`; labels are non-empty (R31), so an empty one puts nothing. -/
def putLabel (label : Phrase) (child : Nat) (kids : List Edge) : List Edge :=
  match label with
  | [] => kids
  | b :: bs => putEdge ⟨b, bs, child⟩ kids

/-- `tn[cur].kids[label] <- child`. -/
def linkLabel (cur : Nat) (label : Phrase) (child : Nat) (t : Trie) : Trie :=
  setNode cur { nodeAt t cur with kids := putLabel label child (nodeAt t cur).kids } t

/-- A new terminal slot with code `v`, under the edge `label` of slot `cur`. -/
def attachTerminal (cur : Nat) (label : Phrase) (v : Code) (t : Trie) : Trie :=
  linkLabel cur label (trAlloc t) (allocNode { code := some v, kids := [] } t)

/-- `need n free slots, else raise STORE_FULL` (R124). -/
def hasRoom (limit needed : Nat) (t : Trie) : Bool := decide (trAlloc t + needed ≤ limit)

/-- Case ATTACH (R122): no edge of `cur` shares a first byte with the key. -/
def trieAttach (limit : Nat) (v : Code) (cur : Nat) (key : Phrase) (t : Trie) : Except Cause Trie :=
  if hasRoom limit 1 t then .ok (countInsert (attachTerminal cur key v t))
  else .error .storeFull

/-- Case MARK (R122, R125 (a), (c)): the key is used up at the slot `cur`. -/
def trieMark (v : Code) (cur : Nat) (t : Trie) : Except Cause Trie :=
  match (nodeAt t cur).code with
  | some _ => .error .dupPhrase
  | none => .ok (countInsert (setNode cur { nodeAt t cur with code := some v } t))

/-- Case SPLIT (R122, R123, R125 (b)): the label of the edge `e` of `cur` and the key part after their first `r + 1` bytes.
The slot `e.child` is kept as the intermediate node, its node moves to a fresh slot, and the new phrase ends at the
intermediate node or at a second fresh slot. `rest` is the key after the common part. -/
def trieSplit (limit : Nat) (v : Code) (cur : Nat) (e : Edge) (r : Nat) (rest : Phrase) (t : Trie) :
    Except Cause Trie :=
  if hasRoom limit (if rest = [] then 1 else 2) t then
    let y := trAlloc t
    let t1 := allocNode (nodeAt t e.child) t
    let t2 := setNode e.child { code := none, kids := putLabel (e.rest.drop r) y [] } t1
    let t3 := linkLabel cur (e.first :: e.rest.take r) e.child t2
    let t4 :=
      if rest = [] then setNode e.child { nodeAt t3 e.child with code := some v } t3
      else attachTerminal e.child rest v t3
    .ok (countInsert t4)
  else .error .storeFull

/-- The loop of `TrieInsert` (R122) at slot `cur` with the remaining key. Each pass consumes a byte of the key or more
(R264), so the length of the key bounds the passes; an empty key stands for "return" (the empty phrase). -/
def trieInsertFrom (limit : Nat) (v : Code) : Nat → Nat → Phrase → Trie → Except Cause Trie
  | 0, _, _, t => .ok t
  | n + 1, cur, key, t =>
    match key with
    | [] => .ok t
    | b :: ks =>
      match edgeFrom b (nodeAt t cur).kids with
      | none => trieAttach limit v cur (b :: ks) t
      | some e =>
        let r := commonPrefixLength e.rest ks
        if r = e.rest.length then
          match ks.drop r with
          | [] => trieMark v e.child t
          | k :: ks' => trieInsertFrom limit v n e.child (k :: ks') t
        else trieSplit limit v cur e r (ks.drop r) t

/-- `TrieInsert(P, v)` on an arena of `limit` slots (R122): the new trie, or the cause raised with the trie unchanged. The
empty phrase is a no-op (R125 (d)). -/
def trieInsert (limit : Nat) (p : Phrase) (v : Code) (t : Trie) : Except Cause Trie :=
  trieInsertFrom limit v p.length 0 p t

/-- The loop of `TrieSearch` (R126) at slot `cur` with the remaining key; each pass consumes a byte of the key or more. -/
def trieSearchFrom (t : Trie) : Nat → Nat → Phrase → Option Code
  | _, cur, [] => (nodeAt t cur).code
  | 0, _, _ :: _ => none
  | n + 1, cur, b :: ks =>
    match (nodeAt t cur).kids.find? (fun e => e.label.isPrefixOf (b :: ks)) with
    | none => none
    | some e => trieSearchFrom t n e.child ((b :: ks).drop e.label.length)

/-- `TrieSearch(P)` (R126): the stored code, or `none` for NOTFOUND. -/
def trieSearch (t : Trie) (p : Phrase) : Option Code := trieSearchFrom t p.length 0 p

/-- `TrieInit` (R121): the cleared trie with `[i] -> i` inserted for `i` from 0 to 255. An insertion of the alphabet never
raises: the arena has 257 slots and more (R121); were it to, the trie would stay as it is. -/
def trieInit (limit : Nat) : Trie :=
  (List.range 256).foldl
    (fun t i =>
      match trieInsert limit [BitVec.ofNat 8 i] (BitVec.ofNat 32 i) t with
      | .ok t' => t'
      | .error _ => t)
    Trie.cleared

/-- `TrieInsert(P, v)` on the state's trie (R122): the trie is replaced, or the cause is raised with nothing changed. -/
def insertPhrase (p : Phrase) (v : Code) (s : State) : Proc Unit :=
  match trieInsert s.config.trieNodes p v s.trie with
  | .ok t => .done () { s with trie := t }
  | .error c => .raised c s

/-- TRIE.CLR (R120). -/
def execTrieClr (s : State) : Host.Outcome State Fault Refusal :=
  command outsideSession (fun s => .done Response.ok { s with trie := Trie.cleared }) s

/-- TRIE.INIT (R121). -/
def execTrieInit (s : State) : Host.Outcome State Fault Refusal :=
  command outsideSession
    (fun s => .done Response.ok { s with trie := trieInit s.config.trieNodes }) s

/-- TRIE.INS (R122 to R125). -/
def execTrieIns (phrase : Phrase) (code : Code) (s : State) : Host.Outcome State Fault Refusal :=
  command outsideSession
    (fun s =>
      if s.config.phraseMax < phrase.length then .raised .badOperand s
      else (insertPhrase phrase code s).andThen fun _ s' => .done Response.ok s') s

/-- TRIE.SRCH (R126). -/
def execTrieSrch (phrase : Phrase) (s : State) : Host.Outcome State Fault Refusal :=
  command outsideSession
    (fun s =>
      if s.config.phraseMax < phrase.length then .raised .badOperand s
      else
        match trieSearch s.trie phrase with
        | some c => .done (Response.value c) s
        | none => .done Response.missed s) s

/-- TRIE.SIZE (R128). -/
def execTrieSize (s : State) : Host.Outcome State Fault Refusal :=
  command outsideSession (fun s => .done (Response.value (BitVec.ofNat 32 s.trie.size)) s) s

end Sys2Proof.Machine
end

