-- ==== Sys2Proof/Machine/Compress.lean ====
section
/-! DEFINITION. The compression driver (43_compress.md): C.START, C.STEP, C.RUN. -/

namespace Sys2Proof.Machine

/-- The header pushed by C.START (R170, R91): the flag byte, then `fixed_bits` in four bytes, little-endian. -/
def headerBytes (s : State) : List Byte :=
  [flagByte s.cfgVar, BitVec.ofNat 8 s.cfgBits, 0x00#8, 0x00#8, 0x00#8]

/-- The effect of C.START (R170): fresh trie and packer, `S` empty, the counter at 256, the header pushed, phase COMP. -/
def cStart (s : State) : State :=
  let s1 := { s with
    trie := trieInit s.config.trieNodes, pk := BitBuf.empty, compS := [], encNext := 256 }
  { snkPushAll (headerBytes s1) s1 with ph := .comp }

/-- `FOUND(code) <- TrieSearch(S)` and `PkEmit(code, W(cfg_var, cfg_bits, enc_next))` (R171 steps 3 and 4, R172 (a)). -/
def emitMatch (s : State) : Proc Unit :=
  match trieSearch s.trie s.compS with
  | none => .stuck .prefixNotStored
  | some code => pkEmit code.toNat (codeWidth s.cfgVar s.cfgBits s.encNext) s

/-- `if enc_next < CAP: TrieInsert(T, enc_next); enc_next <- enc_next + 1` (R171 step 3, R174). -/
def growTrie (T : Phrase) (s : State) : Proc Unit :=
  if s.encNext < cap s then
    (insertPhrase T (BitVec.ofNat 32 s.encNext) s).andThen fun _ s1 =>
      .done () { s1 with encNext := s1.encNext + 1 }
  else .done () s

/-- Steps 2 and 3 (R171): `T` found extends the match; else the match's code is emitted, `T` inserted while the dictionary
has room, and `S` reset to the byte. The emission's width is taken before the insertion (R172 (a)). -/
def cConsume (b : Byte) (s : State) : Proc Response :=
  match trieSearch s.trie (s.compS ++ [b]) with
  | some _ => .done Response.ok { s with compS := s.compS ++ [b] }
  | none =>
    (emitMatch s).andThen fun _ s1 =>
      (growTrie (s.compS ++ [b]) s1).andThen fun _ s2 =>
        .done Response.ok { s2 with compS := [b] }

/-- Step 4 (R171, R173, R175): the last match emitted if there is one, the packer flushed, phase DONE. -/
def cFinish (s : State) : Proc Response :=
  (if s.compS = [] then .done () s else emitMatch s).andThen fun _ s1 =>
    .done Response.finished { pkFlush s1 with ph := .done }

/-- One pass of C.STEP after its preamble (R171). -/
def cStep (s : State) : Proc Response :=
  match srcPull s with
  | (some b, s1) => cConsume b s1
  | (none, s1) => cFinish s1

/-- `while ph = COMP: perform C.STEP` (R176). A pass consumes a byte of `src` or ends the session, so `|src| + 1` passes
suffice (R264). -/
def cLoop : Nat → State → Proc Unit
  | 0, s => .done () s
  | n + 1, s =>
    if s.ph = .comp then (cStep s).andThen fun _ s1 => cLoop n s1
    else .done () s

/-- C.RUN after its preamble (R176). -/
def cRun (s : State) : Proc Response :=
  let s1 := if s.ph = .comp then s else cStart s
  (cLoop (s1.src.length + 1) s1).andThen fun _ s2 => .done Response.finished s2

/-- C.START (R170). -/
def execCStart (s : State) : Host.Outcome State Fault Refusal :=
  command outsideSession (fun s => .done Response.ok (cStart s)) s

/-- C.STEP (R171 to R175). -/
def execCStep (s : State) : Host.Outcome State Fault Refusal :=
  command [.comp] cStep s

/-- C.RUN (R176). -/
def execCRun (s : State) : Host.Outcome State Fault Refusal :=
  command [.idle, .done, .comp] cRun s

end Sys2Proof.Machine
end

