-- ==== Sys2Proof/Machine/Control.lean ====
section
/-! DEFINITION. The control operations (45_control.md): CTL.NOP, CTL.RST, CTL.CFG. -/

namespace Sys2Proof.Machine

/-- `CTL.CFG`'s range checks and effect (R212): `A` must be 0 or 1, `sext_32(B)` in `MIN_BITS .. MAX_BITS`. -/
def configure (var : BitVec 8) (fixedBits : BitVec 32) (s : State) : Proc Unit :=
  if 1 < operandA var then .raised .badOperand s
  else if sext32 fixedBits < (minBits : Int) ∨ (s.config.maxBits : Int) < sext32 fixedBits then
    .raised .badOperand s
  else .done () { s with cfgVar := decide (operandA var = 1), cfgBits := operandB fixedBits }

/-- CTL.NOP (R210): legal in every phase but FAULT. -/
def execCtlNop (s : State) : Host.Outcome State Fault Refusal :=
  command [.idle, .comp, .dec0, .dec1, .done] (fun s => .done Response.ok s) s

/-- CTL.RST (R211): no preamble; reset, in every phase. -/
def execCtlRst (s : State) : Host.Outcome State Fault Refusal :=
  .next (respond Response.ok (resetBlock s))

/-- CTL.CFG (R212). -/
def execCtlCfg (var : Byte) (fixedBits : Code) (s : State) : Host.Outcome State Fault Refusal :=
  command outsideSession
    (fun s => (configure var fixedBits s).andThen fun _ s' => .done Response.ok s') s

end Sys2Proof.Machine
end

