-- ==== Sys2Proof/Machine/Table.lean ====
section
/-! DEFINITION. The decompression-side dictionary (41_rdict.md): RD.INIT, RD.EXT, RD.LKP, and the procedures RdInit,
RdExtend, RdLookup the decompression driver calls. -/

namespace Sys2Proof.Machine

/-- The 256 single-byte phrases in the order of their codes (R12, R34). -/
def alphabet : List Phrase := (List.range 256).map fun i => [BitVec.ofNat 8 i]

/-- `RdInit` (R140). -/
def rdInit (s : State) : State := { s with rd := alphabet }

/-- `RdExtend(c, P)` (R141): the checks in the order written, then the new entry at the next sequential code. -/
def rdExtend (c : Nat) (p : Phrase) (s : State) : Proc Unit :=
  if c ≠ rdLen s then .raised .badOperand s
  else if p.length < 1 ∨ s.config.phraseMax < p.length then .raised .badOperand s
  else if s.config.rdSize ≤ rdLen s then .raised .storeFull s
  else .done () { s with rd := s.rd ++ [p] }

/-- `RdLookup(c)` (R144): `none` is ABSENT. -/
def rdLookup (c : Nat) (s : State) : Option Phrase := s.rd[c]?

/-- RD.INIT (R140). -/
def execRdInit (s : State) : Host.Outcome State Fault Refusal :=
  command outsideSession (fun s => .done Response.ok (rdInit s)) s

/-- RD.EXT (R141). -/
def execRdExt (code : Code) (phrase : Phrase) (s : State) : Host.Outcome State Fault Refusal :=
  command outsideSession
    (fun s => (rdExtend (operandB code) phrase s).andThen fun _ s' => .done Response.ok s') s

/-- RD.LKP (R144). -/
def execRdLkp (code : Code) (s : State) : Host.Outcome State Fault Refusal :=
  command outsideSession
    (fun s =>
      match rdLookup (operandB code) s with
      | some p => .done (Response.found p) s
      | none => .done Response.missed s) s

end Sys2Proof.Machine
end

