-- ==== Sys2Proof/Machine/Decompress.lean ====
section
/-! DEFINITION. The decompression driver (44_decompress.md): D.START, D.STEP, D.RUN. -/

namespace Sys2Proof.Machine

/-- Up to `n` single-byte pulls in order (R64, R190): the bytes, or `none` where the source ended before; bytes pulled stay
consumed either way. -/
def srcPullMany : Nat → State → Option (List Byte) × State
  | 0, s => (some [], s)
  | n + 1, s =>
    match srcPull s with
    | (none, s1) => (none, s1)
    | (some b, s1) =>
      match srcPullMany n s1 with
      | (some bs, s2) => (some (b :: bs), s2)
      | (none, s2) => (none, s2)

/-- The header's value checks (R92, R190, R221 (b), (c)): the session parameters it carries, or `none`. -/
def headerFields (c : Config) (h : List Byte) : Option (Bool × Nat) :=
  match h with
  | [h0, h1, h2, h3, h4] =>
    let fb := sext32 (headerWord h1 h2 h3 h4)
    if h0 ≠ 0x00#8 ∧ h0 ≠ 0x01#8 then none
    else if fb < (minBits : Int) ∨ (c.maxBits : Int) < fb then none
    else some (decide (h0 = 0x01#8), fb.toNat)
  | _ => none

/-- D.START after its preamble (R190): the header pulled and checked; then the parameters, a fresh table and unpacker, `old`
empty, the counter at 256, phase DEC0. -/
def dStart (s : State) : Proc Unit :=
  match srcPullMany 5 s with
  | (none, s1) => .raised .invalidHeader s1
  | (some h, s1) =>
    match headerFields s1.config h with
    | none => .raised .invalidHeader s1
    | some (v, fb) =>
      .done () (upClear (rdInit { s1 with
        cfgVar := v, cfgBits := fb, old := [], decNext := 256, ph := .dec0 }))

/-- The counter value the decompressor passes to `W` from its second code on: `min(dec_next + 1, CAP)` (R192 (b); C1). -/
def widthCounter (s : State) : Nat := if s.decNext < cap s then s.decNext + 1 else s.decNext

/-- Step 1 once a code is read (R194, R191): the phrase of a single-byte code is pushed and becomes `old`. -/
def dFirst (c : Nat) (s : State) : Proc Response :=
  match rdLookup c s with
  | none => .raised .invalidCode s
  | some p => .done Response.ok { snkPushAll p s with old := p, ph := .dec1 }

/-- Resolving a code in step 2 (R193): the entry, or `old ++ [old[0]]` where it is not present. -/
def dResolve (c : Nat) (s : State) : Proc Phrase :=
  match rdLookup c s with
  | some p => .done p s
  | none =>
    if s.config.phraseMax < s.old.length + 1 then .raised .storeFull s
    else
      match s.old with
      | [] => .stuck .oldEmpty
      | o :: os => .done (o :: os ++ [o]) s

/-- Extension in step 2 (R195): `old ++ [p[0]]` at code `dec_next`, while capacity has not been reached. -/
def dExtend (p : Phrase) (s : State) : Proc Unit :=
  if s.decNext < cap s then
    match p with
    | [] => .stuck .entryEmpty
    | b :: _ =>
      (rdExtend s.decNext (s.old ++ [b]) s).andThen fun _ s1 =>
        .done () { s1 with decNext := s1.decNext + 1 }
  else .done () s

/-- Step 2 once a code is read (R194): resolve, push, extend, and the phrase becomes `old`. -/
def dNext (c : Nat) (s : State) : Proc Response :=
  (dResolve c s).andThen fun p s1 =>
    (dExtend p (snkPushAll p s1)).andThen fun _ s2 =>
      .done Response.ok { s2 with old := p }

/-- The width of the next read (R192): `W(…, 256)` for the first code, the compressor's counter value afterwards. -/
def dWidth (s : State) : Nat :=
  codeWidth s.cfgVar s.cfgBits (if s.ph = .dec0 then 256 else widthCounter s)

/-- One pass of D.STEP after its preamble (R194): read a code and resolve it, or end the session at end-of-stream (R196). -/
def dStep (s : State) : Proc Response :=
  (upRead (dWidth s) s).andThen fun r s1 =>
    match r with
    | none => .done Response.finished { s1 with ph := .done }
    | some c => if s.ph = .dec0 then dFirst c s1 else dNext c s1

/-- `while ph in {DEC0, DEC1}: perform D.STEP` (R197). A pass takes one bit or more of those held and those in `src`, or
ends the session. -/
def dLoop : Nat → State → Proc Unit
  | 0, s => .done () s
  | n + 1, s =>
    if s.ph = .dec0 ∨ s.ph = .dec1 then (dStep s).andThen fun _ s1 => dLoop n s1
    else .done () s

/-- A bound on the passes of D.RUN: the bits held and in `src`, and one for the end of the stream (R264). -/
def dFuel (s : State) : Nat := s.up.cnt + 8 * s.src.length + 1

/-- D.RUN after its preamble (R197). -/
def dRun (s : State) : Proc Response :=
  (if s.ph = .dec0 ∨ s.ph = .dec1 then .done () s else dStart s).andThen fun _ s1 =>
    (dLoop (dFuel s1) s1).andThen fun _ s2 => .done Response.finished s2

/-- D.START (R190). -/
def execDStart (s : State) : Host.Outcome State Fault Refusal :=
  command outsideSession (fun s => (dStart s).andThen fun _ s' => .done Response.ok s') s

/-- D.STEP (R191 to R196). -/
def execDStep (s : State) : Host.Outcome State Fault Refusal :=
  command [.dec0, .dec1] dStep s

/-- D.RUN (R197). -/
def execDRun (s : State) : Host.Outcome State Fault Refusal :=
  command [.idle, .done, .dec0, .dec1] dRun s

end Sys2Proof.Machine
end

