-- ==== Sys2Proof/Machine/Dispatch.lean ====
section
/-! DEFINITION. One arm per command: its meaning (R108). -/

namespace Sys2Proof.Machine

open Sys2Proof

/-- What a command does in a state (R108). -/
def exec (i : Instr) (s : State) : Host.Outcome State Fault Refusal :=
  match i with
  | .ctlNop => Sys2Proof.Machine.execCtlNop s
  | .ctlRst => Sys2Proof.Machine.execCtlRst s
  | .ctlCfg var fixedBits => Sys2Proof.Machine.execCtlCfg var fixedBits s
  | .trieClr => Sys2Proof.Machine.execTrieClr s
  | .trieInit => Sys2Proof.Machine.execTrieInit s
  | .trieIns phrase code => Sys2Proof.Machine.execTrieIns phrase code s
  | .trieSrch phrase => Sys2Proof.Machine.execTrieSrch phrase s
  | .trieSize => Sys2Proof.Machine.execTrieSize s
  | .rdInit => Sys2Proof.Machine.execRdInit s
  | .rdExt code phrase => Sys2Proof.Machine.execRdExt code phrase s
  | .rdLkp code => Sys2Proof.Machine.execRdLkp code s
  | .pkClr => Sys2Proof.Machine.execPkClr s
  | .pkEmit code width => Sys2Proof.Machine.execPkEmit code width s
  | .pkFlush => Sys2Proof.Machine.execPkFlush s
  | .upClr => Sys2Proof.Machine.execUpClr s
  | .upRead width => Sys2Proof.Machine.execUpRead width s
  | .widGet n => Sys2Proof.Machine.execWidGet n s
  | .cStart => Sys2Proof.Machine.execCStart s
  | .cStep => Sys2Proof.Machine.execCStep s
  | .cRun => Sys2Proof.Machine.execCRun s
  | .dStart => Sys2Proof.Machine.execDStart s
  | .dStep => Sys2Proof.Machine.execDStep s
  | .dRun => Sys2Proof.Machine.execDRun s

end Sys2Proof.Machine
end

