-- ==== Sys2Proof/Machine/HostMoves.lean ====
section
/-! DEFINITION. What each move of the host does to the block (R217), and the taking of a command (R213). -/

namespace Sys2Proof.Machine

/-- A command is taken: its word decoded, its meaning run; a reserved `OP` raises BAD_CMD (R109, R213). -/
def takeCommand (c : Command) (s : State) : Host.Outcome State Fault Refusal :=
  match decode c with
  | .instr i => exec i s
  | .reserved _ => reservedCommand s

/-- `H.BIND X` (R217): while `busy` the model has no such move (U18). -/
def hostBind (x : List Byte) (s : State) : Host.Outcome State Fault Refusal :=
  if busy s then .refused .bindWhileBusy
  else .next { s with src := x, snk := [], out := .nothing }

/-- `H.TAKE` (R217): the host gets the current content of `snk`; the block's state is as it was. -/
def hostTake (s : State) : Host.Outcome State Fault Refusal :=
  .next { s with out := .sink s.snk }

/-- The `rst` input (R250, R217): as CTL.RST, in every phase; the host gets nothing. -/
def hostReset (s : State) : Host.Outcome State Fault Refusal :=
  .next { resetBlock s with out := .nothing }

/-- One move of the host (R217). -/
def performMove (m : HostMove) (s : State) : Host.Outcome State Fault Refusal :=
  match m with
  | .bind x => hostBind x s
  | .take => hostTake s
  | .command c => takeCommand c s
  | .reset => hostReset s

/-- The first pending move is taken off the list and performed; with none pending the block does nothing and holds its
state (R238, R252). -/
def runHost (s : State) : Host.Outcome State Fault Refusal :=
  match s.host with
  | [] => .next s
  | m :: ms => performMove m { s with host := ms }

/-- `s` with a command as the host's next move. -/
def offerCommand (c : Command) (s : State) : State := { s with host := .command c :: s.host }

end Sys2Proof.Machine
end

