-- ==== Sys2Proof/Machine/Step.lean ====
section
/-! DEFINITION. One step of the machine: the host's next move, performed (R74, R217). -/

namespace Sys2Proof.Machine

/-- One step: the first pending move of the host (R217), or nothing where none is pending. -/
def step : State → Host.Outcome State Fault Refusal := fun s => runHost s

/-- `s` with the instruction of `nbits` bits `w` (numbered as spec/opcode_table.json numbers them) as the host's next
command, so that the very next step takes and runs it. -/
def State.withFetchWord (s : State) (nbits w : Nat) : State := offerCommand (tableCommand nbits w) s

end Sys2Proof.Machine
end

