-- ==== Sys2Proof/Safety.lean ====
section
/-! DEFINITION. What a sound state is, in the terms the statements use: the trie's invariants and meaning (R32, R33), the
session invariants (R178, R199), the registers' ranges (10_state.md), the legality table (R213) and the phase transitions
(R214). -/

namespace Sys2Proof.Machine

/-! ### The trie (R32, R33) -/

/-- `p` is the path string of slot `i`: the labels on the way from the root to it (R33). -/
inductive TriePath (t : Trie) : Nat → Phrase → Prop where
  | root : TriePath t 0 []
  | edge {i : Nat} {p : Phrase} {e : Edge} :
      TriePath t i p → e ∈ (nodeAt t i).kids → TriePath t e.child (p ++ e.label)

/-- `dict(trie)` maps `p` to `c` (R33). -/
def Denotes (t : Trie) (p : Phrase) (c : Code) : Prop :=
  ∃ i, 0 < i ∧ i < trAlloc t ∧ TriePath t i p ∧ (nodeAt t i).code = some c

/-- The slots all edges lead to, edge by edge. -/
def childSlots (t : Trie) : List Nat := t.nodes.flatMap fun n => n.kids.map Edge.child

/-- The number of terminal slots. -/
def terminalCount (t : Trie) : Nat := t.nodes.countP fun n => n.code.isSome

/-- A node's edges stand in the order of their first bytes, so no two begin with the same byte (R32 (I4)); the one
order makes equal maps equal data. -/
abbrev KidsSorted (kids : List Edge) : Prop := kids.Pairwise fun a b => a.first.toNat < b.first.toNat

/-- The trie invariants (R32). (I3), labels are non-empty, holds by type. -/
structure TrieInv (t : Trie) : Prop where
  /-- there is a root slot -/
  hasRoot : 0 < trAlloc t
  /-- (I1) the root is not terminal -/
  rootPlain : (nodeAt t 0).code = none
  /-- (I2) every slot but the root is the child of exactly one edge, and no edge leads elsewhere -/
  oneParent : (childSlots t).Perm (List.range' 1 (trAlloc t - 1))
  /-- (I2) the slots in use form a tree rooted at 0 -/
  reachable : ∀ i, i < trAlloc t → ∃ p, TriePath t i p
  /-- (I4) -/
  sorted : ∀ n ∈ t.nodes, KidsSorted n.kids
  /-- (I7), and with it (I5): a slot other than the root that is not terminal has two edges or more -/
  branching : ∀ i, 0 < i → i < trAlloc t → (nodeAt t i).code = none → 2 ≤ (nodeAt t i).kids.length
  /-- (I6) -/
  counted : t.size = terminalCount t

/-- An insertion of `p` into `t` needs `k` fresh slots (R124): by the case of R122 in which its walk ends, which is a fact
about the trie and the phrase alone. -/
inductive FreshSlots (t : Trie) : Phrase → Nat → Prop where
  /-- MARK: `p` leads to a slot already there -/
  | mark {i : Nat} {p : Phrase} : TriePath t i p → FreshSlots t p 0
  /-- ATTACH: at a slot on the way no edge begins with the next byte -/
  | attach {i : Nat} {q : Phrase} {b : Byte} {ks : Phrase} :
      TriePath t i q → (∀ e ∈ (nodeAt t i).kids, e.first ≠ b) → FreshSlots t (q ++ b :: ks) 1
  /-- SPLIT where `p` ends inside an edge's label -/
  | splitEnd {i : Nat} {q : Phrase} {e : Edge} {x y : Phrase} :
      TriePath t i q → e ∈ (nodeAt t i).kids → e.label = x ++ y → x ≠ [] → y ≠ [] → FreshSlots t (q ++ x) 1
  /-- SPLIT where `p` leaves an edge's label after one byte of it or more -/
  | splitFork {i : Nat} {q : Phrase} {e : Edge} {x y z : Phrase} {d b : Byte} :
      TriePath t i q → e ∈ (nodeAt t i).kids → e.label = x ++ d :: y → x ≠ [] → b ≠ d →
      FreshSlots t (q ++ (x ++ b :: z)) 2

/-! ### The registers (10_state.md) -/

/-- A bit buffer holds no bit above its count (R29, R30; D6). -/
abbrev BufClean (b : BitBuf) : Prop := b.acc < 2 ^ b.cnt

/-- The compression session invariants (R178, R130). -/
structure CompInv (s : State) : Prop where
  /-- R130: slot `i + 1` is terminal with code `i`, for the codes `0 .. enc_next - 1`, each once (R178 (c)) -/
  slots : s.trie.nodes.map Node.code
    = none :: (List.range s.encNext).map fun i => some (BitVec.ofNat 32 i)
  /-- R130: every edge label is one byte long -/
  oneByte : ∀ n ∈ s.trie.nodes, ∀ e ∈ n.kids, e.rest = []
  /-- the alphabet is stored (R12) -/
  alphabet : ∀ b : Byte, (trieSearch s.trie [b]).isSome
  /-- R178 (a) -/
  matched : s.compS = [] ∨ (trieSearch s.trie s.compS).isSome
  /-- R178 (c) -/
  counter : s.encNext = s.trie.size ∧ s.encNext ≤ cap s
  /-- R178 (e): no stored phrase is longer than `enc_next - 255` -/
  short : ∀ p c, trieSearch s.trie p = some c → p.length + 255 ≤ s.encNext

/-- The decompression session invariants (R199). -/
structure DecInv (s : State) : Prop where
  /-- R199 (a), R28 -/
  counter : s.decNext = rdLen s ∧ s.decNext ≤ cap s
  /-- R199 (a): nothing is appended before the first code is read -/
  first : s.ph = .dec0 → s.decNext = 256
  /-- R199 (b) -/
  previous : s.ph = .dec1 → s.old ≠ []
  /-- R71: the single-byte phrases stand under the codes 0 to 255 -/
  alphabet : s.rd.take 256 = alphabet
  /-- R199 (d): no entry is longer than `dec_next - 255` -/
  short : ∀ p ∈ s.rd, p.length + 255 ≤ s.decNext
  /-- R199 (d): while the table grows, neither is `old` -/
  growing : s.ph = .dec1 → s.decNext < cap s → s.old.length + 255 ≤ s.decNext
  /-- R199 (f) -/
  held : s.up.cnt ≤ 7

/-- The invariant of the block: every register in the range its rule states, the stores in their bounds and forms, and the
session invariants while a session is open. -/
structure Inv (s : State) : Prop where
  /-- R9 -/
  config : s.config.legal
  /-- R24 -/
  cause : s.fcause ≠ .none ↔ s.ph = .fault
  /-- R25 -/
  bits : minBits ≤ s.cfgBits ∧ s.cfgBits ≤ s.config.maxBits
  /-- R27 -/
  prefixLength : s.compS.length ≤ s.config.phraseMax
  /-- R27 -/
  encRange : 256 ≤ s.encNext ∧ s.encNext ≤ 2 ^ s.config.maxBits
  /-- R28 -/
  oldLength : s.old.length ≤ s.config.phraseMax
  /-- R28 -/
  decRange : 256 ≤ s.decNext ∧ s.decNext ≤ 2 ^ s.config.maxBits
  /-- R29 -/
  packer : s.pk.cnt ≤ 7 ∧ BufClean s.pk
  /-- R30: `up_cnt <= MAXW - 1` -/
  unpacker : s.up.cnt ≤ s.config.maxBits ∧ BufClean s.up
  /-- R32 -/
  trie : TrieInv s.trie
  /-- R31 -/
  arena : trAlloc s.trie ≤ s.config.trieNodes
  /-- R34 -/
  table : rdLen s ≤ s.config.rdSize
  /-- R34 -/
  entries : ∀ p ∈ s.rd, 1 ≤ p.length ∧ p.length ≤ s.config.phraseMax
  /-- R178 -/
  comp : s.ph = .comp → CompInv s
  /-- R199 -/
  dec : s.ph = .dec0 ∨ s.ph = .dec1 → DecInv s

/-! ### Bits (R68, R93) -/

/-- `v` as exactly `n` binary digits, most significant first (R93). -/
def bitsOf (n v : Nat) : List Bool := (List.range n).map fun i => v.testBit (n - 1 - i)

/-- The bits of a byte sequence, each byte most significant bit first (R68). -/
def byteBits (bs : List Byte) : List Bool := bs.flatMap fun b => bitsOf 8 b.toNat

/-- The bits the packer holds (R29). -/
def packerBits (s : State) : List Bool := bitsOf s.pk.cnt s.pk.acc

/-- The bits the unpacker can still deliver: those it holds, then those of `src` (R30, R158). -/
def pendingBits (s : State) : List Bool := bitsOf s.up.cnt s.up.acc ++ byteBits s.src

/-- `PkEmit(c_1, w_1)`, `PkEmit(c_2, w_2)`, … (R160). -/
def packAll : List (Nat × Nat) → State → Proc Unit
  | [], s => .done () s
  | (c, w) :: rest, s => (pkEmit c w s).andThen fun _ s1 => packAll rest s1

/-- `UpRead(w_1)`, `UpRead(w_2)`, …, with their results in order (R160). -/
def readAll : List Nat → State → Proc (List (Option Nat))
  | [], s => .done [] s
  | w :: ws, s =>
    (upRead w s).andThen fun r s1 => (readAll ws s1).andThen fun rs s2 => .done (r :: rs) s2

/-- `TrieInsert(P_1, v_1)`, `TrieInsert(P_2, v_2)`, … (R127). -/
def insertAll (limit : Nat) : List (Phrase × Code) → Trie → Except Cause Trie
  | [], t => .ok t
  | (p, v) :: rest, t =>
    match trieInsert limit p v t with
    | .ok t' => insertAll limit rest t'
    | .error c => .error c

/-! ### Operands a command uses (R108, R109) -/

/-- Which of `A`, `B` and the phrase on `pin` a command uses (R108). -/
structure UsedFields where
  a   : Bool
  b   : Bool
  pin : Bool
  deriving DecidableEq, Repr

/-- The operand columns of the opcode map (R108). -/
def usedFields : Instr → UsedFields
  | .ctlNop => ⟨false, false, false⟩
  | .ctlRst => ⟨false, false, false⟩
  | .ctlCfg _ _ => ⟨true, true, false⟩
  | .trieClr => ⟨false, false, false⟩
  | .trieInit => ⟨false, false, false⟩
  | .trieIns _ _ => ⟨false, true, true⟩
  | .trieSrch _ => ⟨false, false, true⟩
  | .trieSize => ⟨false, false, false⟩
  | .rdInit => ⟨false, false, false⟩
  | .rdExt _ _ => ⟨false, true, true⟩
  | .rdLkp _ => ⟨false, true, false⟩
  | .pkClr => ⟨false, false, false⟩
  | .pkEmit _ _ => ⟨true, true, false⟩
  | .pkFlush => ⟨false, false, false⟩
  | .upClr => ⟨false, false, false⟩
  | .upRead _ => ⟨true, false, false⟩
  | .widGet _ => ⟨false, true, false⟩
  | .cStart => ⟨false, false, false⟩
  | .cStep => ⟨false, false, false⟩
  | .cRun => ⟨false, false, false⟩
  | .dStart => ⟨false, false, false⟩
  | .dStep => ⟨false, false, false⟩
  | .dRun => ⟨false, false, false⟩

/-- The 23 opcodes of the opcode map (R108). -/
def listedOpcodes : List (BitVec 8) :=
  [0x00#8, 0x01#8, 0x02#8, 0x10#8, 0x11#8, 0x12#8, 0x13#8, 0x14#8, 0x20#8, 0x21#8, 0x22#8, 0x30#8,
    0x31#8, 0x32#8, 0x40#8, 0x41#8, 0x50#8, 0x60#8, 0x61#8, 0x62#8, 0x70#8, 0x71#8, 0x72#8]

/-! ### Legality and phase transitions (R213, R214) -/

/-- The legality table (R213). -/
def legalPhases : Instr → List Phase
  | .ctlNop => [.idle, .comp, .dec0, .dec1, .done]
  | .ctlRst => [.idle, .comp, .dec0, .dec1, .done, .fault]
  | .ctlCfg _ _ => [.idle, .done]
  | .trieClr => [.idle, .done]
  | .trieInit => [.idle, .done]
  | .trieIns _ _ => [.idle, .done]
  | .trieSrch _ => [.idle, .done]
  | .trieSize => [.idle, .done]
  | .rdInit => [.idle, .done]
  | .rdExt _ _ => [.idle, .done]
  | .rdLkp _ => [.idle, .done]
  | .pkClr => [.idle, .done]
  | .pkEmit _ _ => [.idle, .done]
  | .pkFlush => [.idle, .done]
  | .upClr => [.idle, .done]
  | .upRead _ => [.idle, .done]
  | .widGet _ => [.idle, .done]
  | .cStart => [.idle, .done]
  | .cStep => [.comp]
  | .cRun => [.idle, .done, .comp]
  | .dStart => [.idle, .done]
  | .dStep => [.dec0, .dec1]
  | .dRun => [.idle, .done, .dec0, .dec1]

/-- The phases a legal command that raises no fault may leave, started in phase `p` (R214). -/
def phasesAfter (p : Phase) : Instr → List Phase
  | .ctlNop => [p]
  | .ctlRst => [.idle]
  | .ctlCfg _ _ => [p]
  | .trieClr => [p]
  | .trieInit => [p]
  | .trieIns _ _ => [p]
  | .trieSrch _ => [p]
  | .trieSize => [p]
  | .rdInit => [p]
  | .rdExt _ _ => [p]
  | .rdLkp _ => [p]
  | .pkClr => [p]
  | .pkEmit _ _ => [p]
  | .pkFlush => [p]
  | .upClr => [p]
  | .upRead _ => [p]
  | .widGet _ => [p]
  | .cStart => [.comp]
  | .cStep => [.comp, .done]
  | .cRun => [.done]
  | .dStart => [.dec0]
  | .dStep => [.dec1, .done]
  | .dRun => [.done]

/-- The causes a command may raise, BAD_CMD apart (R220). -/
def causesOf : Instr → List Cause
  | .ctlNop => []
  | .ctlRst => []
  | .ctlCfg _ _ => [.badOperand]
  | .trieClr => []
  | .trieInit => []
  | .trieIns _ _ => [.badOperand, .storeFull, .dupPhrase]
  | .trieSrch _ => [.badOperand]
  | .trieSize => []
  | .rdInit => []
  | .rdExt _ _ => [.badOperand, .storeFull]
  | .rdLkp _ => []
  | .pkClr => []
  | .pkEmit _ _ => [.badOperand]
  | .pkFlush => []
  | .upClr => []
  | .upRead _ => [.badOperand]
  | .widGet _ => []
  | .cStart => []
  | .cStep => []
  | .cRun => []
  | .dStart => [.invalidHeader]
  | .dStep => [.invalidCode, .storeFull]
  | .dRun => [.invalidHeader, .invalidCode, .storeFull]

end Sys2Proof.Machine
end

