-- ==== Sys2Proof/Certificates/Slice0/Obligations.lean ====
section
/-! DEFINITION. The statements for the provers, from the numbered rules of spec/. Each docstring cites the rule it formalises. -/

open Sys2Proof Sys2Proof.Machine

/-! ### Shared shapes -/

/-- `s` with a response given: the only change a command that only answers makes (R110). -/
def Sys2Proof.Machine.answered (st : Status) (val : BitVec 32) (phrase : Phrase) (s : State) : State :=
  { s with out := .response ⟨st, val, phrase⟩ }

/-- `s` after fault entry with cause `c` and code `n`: phase, cause, response, and nothing else (R228). -/
def Sys2Proof.Machine.faulted (c : Cause) (n : BitVec 32) (s : State) : State :=
  { s with ph := .fault, fcause := c, out := .response ⟨.fault, n, []⟩ }

/-- A command that is legal in IDLE and DONE only: BAD_CMD in a session, and in phase FAULT the recorded cause answered with
nothing changed (R213, R223). -/
def Sys2Proof.Machine.ShutOutOfSessions (i : Instr) : Prop :=
  (∀ s : State, s.ph = .comp ∨ s.ph = .dec0 ∨ s.ph = .dec1 → exec i s = .next (faulted .badCmd 3 s)) ∧
  (∀ s : State, s.ph = .fault → exec i s = .next (answered .fault (causeCode s.fcause) [] s))

/-- The host's next move is a reset: the reset input, or CTL.RST (R250). -/
def Sys2Proof.Machine.ResetIsNext (s : State) : Prop :=
  (∃ ms, s.host = .reset :: ms) ∨ ∃ c ms, s.host = .command c :: ms ∧ decode c = .instr .ctlRst

/-! ### The command word and the taking of a command -/

/-- R106, R107, R108, R112: decoding the word and phrase the encoder writes gives the command back, for every command and
every operand value. -/
def Obligations.DecodeOfEncodeIsTheCommand : Prop :=
  ∀ i : Instr, decode (encode i) = .instr i

/-- R106, R112: the encoder's word is `(OP << 56) | (A << 32) | B`, so the reserved field is zero, and the word of a decoded
command has that command's opcode. -/
def Obligations.EncodedWordHasItsFields : Prop :=
  (∀ i : Instr, (encode i).word.toNat =
      (fieldsOf i).op.toNat * 2 ^ 56 + (fieldsOf i).a.toNat * 2 ^ 32 + (fieldsOf i).b.toNat) ∧
  (∀ (c : Command) (i : Instr), decode c = .instr i → c.word.toNat / 2 ^ 56 = (fieldsOf i).op.toNat)

/-- R109: a word is refused exactly when its opcode is none of the 23 listed, whatever its other fields hold; and the reserved
field `Z` and the operands a command does not use are ignored, whatever they hold. -/
def Obligations.ReservedAndUnusedFields : Prop :=
  (∀ c : Command, decode c = .reserved (opField c.word) ↔ opField c.word ∉ listedOpcodes) ∧
  (∀ (c c' : Command) (i : Instr), decode c = .instr i →
    opField c'.word = opField c.word →
    ((usedFields i).a = true → aField c'.word = aField c.word) →
    ((usedFields i).b = true → bField c'.word = bField c.word) →
    ((usedFields i).pin = true → c'.pin = c.pin) →
    decode c' = .instr i)

/-- R106, R108, R112: words written out from the spec's encoding, one for each of the 23 opcodes of the opcode map, decode to
the command they stand for; and a word of an opcode not listed decodes to none. -/
def Obligations.SampleWordsDecode : Prop :=
  decodeTableWord 64 0x0000000000000000 = some .ctlNop ∧
  decodeTableWord 64 0x0100000000000000 = some .ctlRst ∧
  decodeTableWord 64 0x020000010000000C = some (.ctlCfg 1 12) ∧
  decodeTableWord 64 0x1000000000000000 = some .trieClr ∧
  decodeTableWord 64 0x1100000000000000 = some .trieInit ∧
  decode ⟨0x1200000000000001#64, [0x61, 0x62, 0x63]⟩ = .instr (.trieIns [0x61, 0x62, 0x63] 1) ∧
  decode ⟨0x1300000000000000#64, [0x61, 0x62]⟩ = .instr (.trieSrch [0x61, 0x62]) ∧
  decodeTableWord 64 0x1400000000000000 = some .trieSize ∧
  decodeTableWord 64 0x2000000000000000 = some .rdInit ∧
  decode ⟨0x2100000000000100#64, [0x41, 0x41]⟩ = .instr (.rdExt 256 [0x41, 0x41]) ∧
  decodeTableWord 64 0x22000000000000FF = some (.rdLkp 255) ∧
  decodeTableWord 64 0x3000000000000000 = some .pkClr ∧
  decodeTableWord 64 0x3100000900000101 = some (.pkEmit 257 9) ∧
  decodeTableWord 64 0x3200000000000000 = some .pkFlush ∧
  decodeTableWord 64 0x4000000000000000 = some .upClr ∧
  decodeTableWord 64 0x4100000900000000 = some (.upRead 9) ∧
  decodeTableWord 64 0x5000000000000200 = some (.widGet 512) ∧
  decodeTableWord 64 0x6000000000000000 = some .cStart ∧
  decodeTableWord 64 0x6100000000000000 = some .cStep ∧
  decodeTableWord 64 0x6200000000000000 = some .cRun ∧
  decodeTableWord 64 0x7000000000000000 = some .dStart ∧
  decodeTableWord 64 0x7100000000000000 = some .dStep ∧
  decodeTableWord 64 0x7200000000000000 = some .dRun ∧
  decodeTableWord 64 0x1500000000000000 = none

/-- R74, R105, R106: when the host's next move is a command whose word decodes to an instruction, the step is that
instruction's meaning, in the state with the move taken off; and a step of `withFetchWord` runs exactly the instruction its
bits decode to. That the host's moves are a list in the state is the model's choice (log entry 2). -/
def Obligations.StepRunsTheDecodedCommand : Prop :=
  (∀ (s : State) (c : Command) (ms : List HostMove) (i : Instr),
    s.host = .command c :: ms → decode c = .instr i → step s = exec i { s with host := ms }) ∧
  (∀ (s : State) (w : Nat) (i : Instr),
    decodeTableWord 64 w = some i → step (s.withFetchWord 64 w) = exec i s)

/-- R109, R213, R223 (a): a reserved opcode raises BAD_CMD in every phase but FAULT, where it is answered with the recorded
cause; nothing else changes. -/
def Obligations.ReservedOpcodeRaisesBadCmd : Prop :=
  ∀ (s : State) (c : Command) (ms : List HostMove),
    s.host = .command c :: ms → opField c.word ∉ listedOpcodes →
    (s.ph ≠ .fault → step s = .next (faulted .badCmd 3 { s with host := ms })) ∧
    (s.ph = .fault → step s = .next (answered .fault (causeCode s.fcause) [] { s with host := ms }))

/-- R217, R238, R250: what the host's moves do: H.BIND outside a session, H.TAKE, reset, and no move at all; and, the model's
own choice (U18; log entry 8), H.BIND in a session is refused by name. -/
def Obligations.HostMovesDoWhatTheyMay : Prop :=
  (∀ (s : State) (x : List Byte) (ms : List HostMove), s.host = .bind x :: ms →
    (s.ph = .idle ∨ s.ph = .done ∨ s.ph = .fault →
      step s = .next { s with host := ms, src := x, snk := [], out := .nothing }) ∧
    (s.ph = .comp ∨ s.ph = .dec0 ∨ s.ph = .dec1 → step s = .refused .bindWhileBusy)) ∧
  (∀ (s : State) (ms : List HostMove), s.host = .take :: ms →
    step s = .next { s with host := ms, out := .sink s.snk }) ∧
  (∀ (s : State) (ms : List HostMove), s.host = .reset :: ms →
    step s = .next { State.reset with
      src := s.src, snk := s.snk, config := s.config, host := ms, out := .nothing }) ∧
  (∀ s : State, s.host = [] → step s = .next s)

/-! ### Control -/

/-- R210: CTL.NOP answers OK in every phase but FAULT and changes nothing; in FAULT it answers FAULT. Its word is zero. -/
def Obligations.NopChangesNothing : Prop :=
  (∀ p, decode ⟨0#64, p⟩ = .instr .ctlNop) ∧
  (∀ s : State, s.ph ≠ .fault → exec .ctlNop s = .next (answered .ok 0 [] s)) ∧
  (∀ s : State, s.ph = .fault → exec .ctlNop s = .next (answered .fault (causeCode s.fcause) [] s))

/-- R211, R37: CTL.RST puts every state element at its reset value, in every phase; the streams stay; the flags are 0. That the
parameter MAX_BITS and the host's pending moves, which the model holds in its state, stay is the model's choice (log entries
1 and 2). -/
def Obligations.RstRestoresResetValues : Prop :=
  (∀ p, decode ⟨0x0100000000000000#64, p⟩ = .instr .ctlRst) ∧
  (∀ s : State, ∃ t, exec .ctlRst s = .next t ∧
    t.ph = .idle ∧ t.fcause = .none ∧ t.cfgVar = false ∧ t.cfgBits = 12 ∧ t.compS = [] ∧ t.encNext = 256 ∧
    t.old = [] ∧ t.decNext = 256 ∧ t.pk = ⟨0, 0⟩ ∧ t.up = ⟨0, 0⟩ ∧ t.upEos = false ∧
    t.trie = ⟨[⟨none, []⟩], 0⟩ ∧ t.rd = [] ∧ t.src = s.src ∧ t.snk = s.snk ∧
    t.config = s.config ∧ t.host = s.host ∧ t.out = .response ⟨.ok, 0, []⟩ ∧
    busy t = false ∧ doneFlag t = false ∧ faultFlag t = false)

/-- R212: CTL.CFG outside a session sets both parameters when the flag is 0 or 1 and `fixed_bits` is in MIN_BITS to MAX_BITS,
and nothing else; otherwise BAD_OPERAND with the registers unchanged. -/
def Obligations.CfgSetsLegalParameters : Prop :=
  (∀ (s : State) (v : Byte) (fb : Code), s.ph = .idle ∨ s.ph = .done →
    (v.toNat ≤ 1 → 9 ≤ fb.toInt → fb.toInt ≤ s.config.maxBits →
      exec (.ctlCfg v fb) s =
        .next (answered .ok 0 [] { s with cfgVar := decide (v = 1), cfgBits := fb.toNat })) ∧
    (1 < v.toNat ∨ fb.toInt < 9 ∨ (s.config.maxBits : Int) < fb.toInt →
      exec (.ctlCfg v fb) s = .next (faulted .badOperand 4 s))) ∧
  (∀ v fb, ShutOutOfSessions (.ctlCfg v fb))

/-! ### The trie -/

/-- R120: TRIE.CLR leaves a root with no edges and no code, one slot in use and a count of 0, and changes nothing else. -/
def Obligations.ClrEmptiesTheTrie : Prop :=
  (∀ s : State, s.ph = .idle ∨ s.ph = .done →
    exec .trieClr s = .next (answered .ok 0 [] { s with trie := ⟨[⟨none, []⟩], 0⟩ })) ∧
  ShutOutOfSessions .trieClr

/-- R121: TRIE.INIT leaves a root with 256 edges, edge `[i]` leading to slot `i + 1`, which is terminal with code `i` and has
no edges; 257 slots in use, a count of 256; nothing else changes. The edges stand in the order of their bytes, which is the
model's choice (log entry 7). -/
def Obligations.InitStoresTheAlphabet : Prop :=
  (∀ s : State, s.config.legal → s.ph = .idle ∨ s.ph = .done →
    ∃ tr, exec .trieInit s = .next (answered .ok 0 [] { s with trie := tr }) ∧
      tr.size = 256 ∧ trAlloc tr = 257 ∧ (nodeAt tr 0).code = none ∧ (nodeAt tr 0).kids.length = 256 ∧
      ∀ i, i < 256 →
        (nodeAt tr 0).kids[i]? = some ⟨BitVec.ofNat 8 i, [], i + 1⟩ ∧
        nodeAt tr (i + 1) = ⟨some (BitVec.ofNat 32 i), []⟩) ∧
  ShutOutOfSessions .trieInit

/-- R122, R127: TRIE.INS of a phrase not stored, with two slots free, stores it: afterwards the phrase is found with its code,
every other phrase is found as before, the count has risen by one, and the trie's invariants (R32) still hold; nothing but
the trie changes. -/
def Obligations.InsertStoresExactlyThePhrase : Prop :=
  (∀ (s : State) (p : Phrase) (v : Code), s.ph = .idle ∨ s.ph = .done → TrieInv s.trie →
    p ≠ [] → p.length ≤ 2 ^ s.config.maxBits → trieSearch s.trie p = none →
    trAlloc s.trie + 2 ≤ s.config.trieNodes →
    ∃ tr, exec (.trieIns p v) s = .next (answered .ok 0 [] { s with trie := tr }) ∧ TrieInv tr ∧
      tr.size = s.trie.size + 1 ∧ trAlloc tr ≤ trAlloc s.trie + 2 ∧
      ∀ q, trieSearch tr q = if q = p then some v else trieSearch s.trie q) ∧
  (∀ p v, ShutOutOfSessions (.trieIns p v))

/-- R124, R225: the fresh slots an insertion needs are those of the case its walk ends in, whatever the arena's size: ATTACH 1,
MARK 0, SPLIT 1 or 2, and every phrase not stored ends in one of these. In an arena within its bound, with that many slots left the insertion takes exactly those and stores the phrase, every other phrase found as before;
with fewer left it raises STORE_FULL and changes nothing. -/
def Obligations.InsertNeedsAtMostTwoSlots : Prop :=
  (∀ (t : Trie) (p : Phrase), TrieInv t → p ≠ [] → trieSearch t p = none → ∃ k, k ≤ 2 ∧ FreshSlots t p k) ∧
  (∀ (s : State) (p : Phrase) (v : Code) (k : Nat), s.ph = .idle ∨ s.ph = .done → TrieInv s.trie →
    trAlloc s.trie ≤ s.config.trieNodes →
    p ≠ [] → p.length ≤ 2 ^ s.config.maxBits → trieSearch s.trie p = none → FreshSlots s.trie p k →
    (trAlloc s.trie + k ≤ s.config.trieNodes →
      ∃ tr, exec (.trieIns p v) s = .next (answered .ok 0 [] { s with trie := tr }) ∧
        trAlloc tr = trAlloc s.trie + k ∧
        ∀ q, trieSearch tr q = if q = p then some v else trieSearch s.trie q) ∧
    (s.config.trieNodes < trAlloc s.trie + k → exec (.trieIns p v) s = .next (faulted .storeFull 5 s)))

/-- R125 (c), (d), R224, R226: the corner cases of insertion: a phrase already stored raises DUP_PHRASE, however full the arena;
the empty phrase answers OK; a phrase longer than PHRASE_MAX raises BAD_OPERAND, for TRIE.INS and TRIE.SRCH alike. Nothing
is stored in any of them. -/
def Obligations.InsertCornerCases : Prop :=
  (∀ (s : State) (p : Phrase) (v c : Code), s.ph = .idle ∨ s.ph = .done → TrieInv s.trie →
    p.length ≤ 2 ^ s.config.maxBits → trieSearch s.trie p = some c →
    exec (.trieIns p v) s = .next (faulted .dupPhrase 6 s)) ∧
  (∀ (s : State) (v : Code), s.ph = .idle ∨ s.ph = .done →
    exec (.trieIns [] v) s = .next (answered .ok 0 [] s)) ∧
  (∀ (s : State) (p : Phrase) (v : Code), s.ph = .idle ∨ s.ph = .done → 2 ^ s.config.maxBits < p.length →
    exec (.trieIns p v) s = .next (faulted .badOperand 4 s) ∧
    exec (.trieSrch p) s = .next (faulted .badOperand 4 s))

/-- R126: TRIE.SRCH answers the stored code or MISS, and changes nothing. -/
def Obligations.SearchAnswersCodeOrMiss : Prop :=
  (∀ (s : State) (p : Phrase), s.ph = .idle ∨ s.ph = .done → p.length ≤ 2 ^ s.config.maxBits →
    (∀ c, trieSearch s.trie p = some c → exec (.trieSrch p) s = .next (answered .ok c [] s)) ∧
    (trieSearch s.trie p = none → exec (.trieSrch p) s = .next (answered .miss 0 [] s))) ∧
  (∀ p, ShutOutOfSessions (.trieSrch p))

/-- R33, R126: the search finds `c` for `p` exactly when the dictionary the trie denotes maps `p` to `c`. -/
def Obligations.SearchIsTheDictionary : Prop :=
  ∀ (t : Trie) (p : Phrase) (c : Code), TrieInv t → (trieSearch t p = some c ↔ Denotes t p c)

/-- R128: TRIE.SIZE answers `tr_size` and changes nothing. -/
def Obligations.SizeAnswersTheCount : Prop :=
  (∀ s : State, s.ph = .idle ∨ s.ph = .done →
    exec .trieSize s = .next (answered .ok (BitVec.ofNat 32 s.trie.size) [] s)) ∧
  ShutOutOfSessions .trieSize

/-- R127: starting from a cleared trie, after insertions with pairwise distinct non-empty phrases, none of which ran out of
slots, the search returns exactly the inserted code for each inserted phrase and not found for every other, whatever the
order of the insertions, and the count is their number. -/
def Obligations.TrieCorrectness : Prop :=
  ∀ (limit : Nat) (l : List (Phrase × Code)),
    (l.map Prod.fst).Nodup → (∀ x ∈ l, x.1 ≠ []) →
    insertAll limit l Trie.cleared ≠ .error .storeFull →
    ∃ t, insertAll limit l Trie.cleared = .ok t ∧
      (∀ x ∈ l, trieSearch t x.1 = some x.2) ∧
      (∀ q, q ∉ l.map Prod.fst → trieSearch t q = none) ∧
      (∀ q c, Denotes t q c ↔ (q, c) ∈ l) ∧
      t.size = l.length

/-! ### The table -/

/-- R140: RD.INIT leaves exactly 256 entries, entry `i` the one-byte phrase `[i]`, and changes nothing else. -/
def Obligations.RdInitStoresTheAlphabet : Prop :=
  (∀ p, decode ⟨0x2000000000000000#64, p⟩ = .instr .rdInit) ∧
  (∀ s : State, s.ph = .idle ∨ s.ph = .done →
    ∃ t, exec .rdInit s = .next t ∧ t = answered .ok 0 [] { s with rd := t.rd } ∧ rdLen t = 256 ∧
      ∀ i, i < 256 → t.rd[i]? = some [BitVec.ofNat 8 i]) ∧
  ShutOutOfSessions .rdInit

/-- R141: RD.EXT appends the phrase at the next sequential code; its checks come in the order code, phrase length, table
full; on any fault the table is unchanged. -/
def Obligations.ExtendAppendsAtTheNextCode : Prop :=
  (∀ (s : State) (c : Code) (p : Phrase), s.ph = .idle ∨ s.ph = .done →
    (c.toNat = rdLen s → 1 ≤ p.length → p.length ≤ 2 ^ s.config.maxBits → rdLen s < 2 ^ s.config.maxBits →
      exec (.rdExt c p) s = .next (answered .ok 0 [] { s with rd := s.rd ++ [p] })) ∧
    (c.toNat ≠ rdLen s → exec (.rdExt c p) s = .next (faulted .badOperand 4 s)) ∧
    (c.toNat = rdLen s → p = [] ∨ 2 ^ s.config.maxBits < p.length →
      exec (.rdExt c p) s = .next (faulted .badOperand 4 s)) ∧
    (c.toNat = rdLen s → 1 ≤ p.length → p.length ≤ 2 ^ s.config.maxBits → 2 ^ s.config.maxBits ≤ rdLen s →
      exec (.rdExt c p) s = .next (faulted .storeFull 5 s))) ∧
  (∀ c p, ShutOutOfSessions (.rdExt c p))

/-- R144: RD.LKP answers the entry of a code below `rd_len` and MISS for every other 32-bit code, and changes nothing. -/
def Obligations.LookupAnswersEntryOrMiss : Prop :=
  (∀ (p : Phrase) (c : BitVec 32), decode ⟨0x22000000#32 ++ c, p⟩ = .instr (.rdLkp c)) ∧
  (∀ (s : State) (c : Code), s.ph = .idle ∨ s.ph = .done →
    (∀ h : c.toNat < rdLen s, exec (.rdLkp c) s = .next (answered .ok 0 (s.rd[c.toNat]'h) s)) ∧
    (rdLen s ≤ c.toNat → exec (.rdLkp c) s = .next (answered .miss 0 [] s))) ∧
  (∀ c, ShutOutOfSessions (.rdLkp c))

/-! ### The packer, the unpacker and the width policy -/

/-- R150: PK.CLR drops the held bits, pushes nothing, and changes nothing else. -/
def Obligations.PkClrDropsTheHeldBits : Prop :=
  (∀ p, decode ⟨0x3000000000000000#64, p⟩ = .instr .pkClr) ∧
  (∀ s : State, s.ph = .idle ∨ s.ph = .done →
    exec .pkClr s = .next (answered .ok 0 [] { s with pk := ⟨0, 0⟩ })) ∧
  ShutOutOfSessions .pkClr

/-- R152: PK.EMIT with a width in 1 to MAXW and a code that fits pushes the held bits and the code's digits, most significant
first, as whole bytes, and holds the 0 to 7 bits left over; no bit is lost and nothing else changes. -/
def Obligations.EmitPushesTheBitsInOrder : Prop :=
  (∀ (s : State) (c : Code) (w : Byte), s.ph = .idle ∨ s.ph = .done → BufClean s.pk →
    1 ≤ w.toNat → w.toNat ≤ s.config.maxBits + 1 → c.toNat < 2 ^ w.toNat →
    ∃ x b, exec (.pkEmit c w) s = .next (answered .ok 0 [] { s with snk := s.snk ++ x, pk := b }) ∧
      b.cnt ≤ 7 ∧ BufClean b ∧ x.length = (s.pk.cnt + w.toNat) / 8 ∧
      byteBits x ++ bitsOf b.cnt b.acc = bitsOf s.pk.cnt s.pk.acc ++ bitsOf w.toNat c.toNat) ∧
  (∀ c w, ShutOutOfSessions (.pkEmit c w))

/-- R152, R158, R224: a width of 0 or above MAXW, or a code that does not fit, raises BAD_OPERAND with buffers and streams
unchanged. -/
def Obligations.BadWidthsAndCodesAreRefused : Prop :=
  ∀ (s : State) (c : Code) (w : Byte), s.ph = .idle ∨ s.ph = .done →
    (w.toNat = 0 ∨ s.config.maxBits + 1 < w.toNat →
      exec (.pkEmit c w) s = .next (faulted .badOperand 4 s) ∧
      exec (.upRead w) s = .next (faulted .badOperand 4 s)) ∧
    (2 ^ w.toNat ≤ c.toNat → exec (.pkEmit c w) s = .next (faulted .badOperand 4 s))

/-- R154: PK.FLUSH pushes the held bits as one byte with zeros below them, or nothing where none are held, and empties the
packer; nothing else changes. -/
def Obligations.FlushPadsWithZeros : Prop :=
  (∀ s : State, s.ph = .idle ∨ s.ph = .done → s.pk.cnt ≤ 7 →
    ∃ x, exec .pkFlush s = .next (answered .ok 0 [] { s with snk := s.snk ++ x, pk := ⟨0, 0⟩ }) ∧
      byteBits x = bitsOf s.pk.cnt s.pk.acc ++ List.replicate ((8 - s.pk.cnt) % 8) false) ∧
  ShutOutOfSessions .pkFlush

/-- R156: UP.CLR drops the held bits and clears `up_eos`; the source and everything else stay. -/
def Obligations.UpClrDropsTheHeldBits : Prop :=
  (∀ p, decode ⟨0x4000000000000000#64, p⟩ = .instr .upClr) ∧
  (∀ s : State, s.ph = .idle ∨ s.ph = .done →
    exec .upClr s = .next (answered .ok 0 [] { s with up := ⟨0, 0⟩, upEos := false })) ∧
  ShutOutOfSessions .upClr

/-- R158: UP.READ where the held bits and the source have `w` bits or more answers the number of the first `w` of them; the
others stay, in order, some held and the rest in the source; `up_eos` and everything else are unchanged. -/
def Obligations.ReadDeliversTheNextBits : Prop :=
  (∀ (s : State) (w : Byte), s.ph = .idle ∨ s.ph = .done → s.config.legal → BufClean s.up →
    1 ≤ w.toNat → w.toNat ≤ s.config.maxBits + 1 → w.toNat ≤ s.up.cnt + 8 * s.src.length →
    ∃ (c : Nat) (k : Nat) (b : BitBuf),
      exec (.upRead w) s =
        .next (answered .ok (BitVec.ofNat 32 c) [] { s with up := b, src := s.src.drop k }) ∧
      c < 2 ^ w.toNat ∧ k ≤ s.src.length ∧ b.cnt + w.toNat = s.up.cnt + 8 * k ∧ BufClean b ∧
      (s.up.cnt < w.toNat → b.cnt ≤ 7) ∧ (w.toNat ≤ s.up.cnt → k = 0) ∧
      bitsOf s.up.cnt s.up.acc ++ byteBits s.src
        = bitsOf w.toNat c ++ (bitsOf b.cnt b.acc ++ byteBits (s.src.drop k))) ∧
  (∀ w, ShutOutOfSessions (.upRead w))

/-- R158, R159: UP.READ where fewer than `w` bits are left answers END, sets `up_eos`, empties the source and holds every bit
gathered; nothing else changes. -/
def Obligations.ReadAtTheEndKeepsTheBits : Prop :=
  ∀ (s : State) (w : Byte), s.ph = .idle ∨ s.ph = .done → BufClean s.up →
    1 ≤ w.toNat → w.toNat ≤ s.config.maxBits + 1 → s.up.cnt + 8 * s.src.length < w.toNat →
    ∃ b, exec (.upRead w) s = .next (answered .ended 0 [] { s with up := b, src := [], upEos := true }) ∧
      b.cnt = s.up.cnt + 8 * s.src.length ∧ BufClean b ∧
      bitsOf b.cnt b.acc = bitsOf s.up.cnt s.up.acc ++ byteBits s.src

/-- R163, R14: the width policy is `max(9, bit_length(n))` in variable-width mode and `fixed_bits` in fixed-width mode, with
`bit_length(0) = 0` and `bit_length(n)` the unique `k` with `2^(k-1) <= n < 2^k`. -/
def Obligations.WidthPolicy : Prop :=
  (∀ bits n, codeWidth true bits n = max 9 (bitLength n)) ∧
  (∀ bits n, codeWidth false bits n = bits) ∧
  bitLength 0 = 0 ∧
  (∀ n, 1 ≤ n → ∀ k, bitLength n = k ↔ 1 ≤ k ∧ 2 ^ (k - 1) ≤ n ∧ n < 2 ^ k)

/-- R164, R165: WID.GET answers the policy's width under the current configuration for any 32-bit `n`: in variable-width mode
9 below 512 and `k + 1` from `2^k` to `2^(k+1) - 1` for `k >= 9`, unclamped by `fixed_bits`; in fixed-width mode
`fixed_bits`. It changes nothing. -/
def Obligations.WidGetAnswersThePolicy : Prop :=
  (∀ (s : State) (n : Code), s.ph = .idle ∨ s.ph = .done →
    (s.cfgVar = false → exec (.widGet n) s = .next (answered .ok (BitVec.ofNat 32 s.cfgBits) [] s)) ∧
    (s.cfgVar = true → n.toNat < 512 → exec (.widGet n) s = .next (answered .ok 9 [] s)) ∧
    (s.cfgVar = true → ∀ k, 9 ≤ k → 2 ^ k ≤ n.toNat → n.toNat < 2 ^ (k + 1) →
      exec (.widGet n) s = .next (answered .ok (BitVec.ofNat 32 (k + 1)) [] s))) ∧
  (∀ n, ShutOutOfSessions (.widGet n))

/-- R93: from an empty packer, emitting codes `c_k` at widths `w_k` and flushing pushes the body of the format: the codes' digits
concatenated in order, most significant first, eight to a byte from bit 7 down, zeros after them to a whole byte. -/
def Obligations.BodyLayout : Prop :=
  ∀ (s : State) (l : List (Nat × Nat)), s.pk = ⟨0, 0⟩ →
    (∀ x ∈ l, 1 ≤ x.2 ∧ x.2 ≤ s.config.maxBits + 1 ∧ x.1 < 2 ^ x.2) →
    ∃ t x, packAll l s = .done () t ∧ pkFlush t = { s with snk := s.snk ++ x } ∧
      x.length = ((l.map Prod.snd).sum + 7) / 8 ∧
      byteBits x = (l.flatMap fun y => bitsOf y.2 y.1)
        ++ List.replicate (8 * x.length - (l.map Prod.snd).sum) false

/-- R160: pack and unpack are inverse: from empty buffers, reading at the same widths the bytes that emitting and flushing
pushed gives the codes back, and a further read of 8 bits or more gives end-of-stream. -/
def Obligations.PackThenUnpackGivesTheCodes : Prop :=
  ∀ (s : State) (l : List (Nat × Nat)), s.pk = ⟨0, 0⟩ → s.snk = [] →
    (∀ x ∈ l, 1 ≤ x.2 ∧ x.2 ≤ s.config.maxBits + 1 ∧ x.1 < 2 ^ x.2) →
    ∃ t, packAll l s = .done () t ∧
      ∀ r : State, r.up = ⟨0, 0⟩ → r.config = s.config → r.src = (pkFlush t).snk →
        ∃ u, readAll (l.map Prod.snd) r = .done (l.map fun x => some x.1) u ∧
          ∀ w, 8 ≤ w → w ≤ s.config.maxBits + 1 → ∃ u', upRead w u = .done none u'

/-! ### The compression driver -/

/-- R170: C.START builds a fresh trie and packer, empties `S`, sets the counter to 256, appends the 5-byte header to the sink
and opens the session; the source and the decompression side stay. -/
def Obligations.CStartOpensASession : Prop :=
  (∀ s : State, s.config.legal → s.ph = .idle ∨ s.ph = .done →
    ∃ tr, exec .cStart s = .next (answered .ok 0 [] { s with
        ph := .comp, trie := tr, pk := ⟨0, 0⟩, compS := [], encNext := 256
        snk := s.snk ++ [if s.cfgVar then 0x01#8 else 0x00#8, BitVec.ofNat 8 s.cfgBits, 0#8, 0#8, 0#8] }) ∧
      tr.size = 256 ∧ trAlloc tr = 257 ∧ TrieInv tr ∧
      (∀ b : Byte, trieSearch tr [b] = some (b.setWidth 32)) ∧
      (∀ q, q.length ≠ 1 → trieSearch tr q = none)) ∧
  ShutOutOfSessions .cStart

/-- R171 steps 1 and 2: a byte whose extension of the match is stored extends the match, and nothing else changes but the byte
consumed. -/
def Obligations.CStepExtendsTheMatch : Prop :=
  ∀ (s : State) (b : Byte) (bs : List Byte) (c : Code), s.ph = .comp → s.src = b :: bs →
    trieSearch s.trie (s.compS ++ [b]) = some c →
    exec .cStep s = .next (answered .ok 0 [] { s with src := bs, compS := s.compS ++ [b] })

/-- R171 step 3, R172, R174: a byte whose extension of the match is not stored makes the match's code go out at the width of
the counter before the insertion; the extended string is stored under the counter's value, which rises by one, while it
is below CAP, and nothing is stored once it is at CAP; the match becomes the byte. -/
def Obligations.CStepEmitsAndInserts : Prop :=
  ∀ (s : State) (b : Byte) (bs : List Byte), Inv s → s.ph = .comp → s.src = b :: bs →
    trieSearch s.trie (s.compS ++ [b]) = none →
    ∃ (code : Code) (x : List Byte) (pk' : BitBuf) (tr : Trie),
      trieSearch s.trie s.compS = some code ∧ code.toNat < s.encNext ∧
      exec .cStep s = .next (answered .ok 0 [] { s with
        src := bs, snk := s.snk ++ x, pk := pk', trie := tr, compS := [b]
        encNext := if s.encNext < 2 ^ s.cfgBits then s.encNext + 1 else s.encNext }) ∧
      pk'.cnt ≤ 7 ∧ BufClean pk' ∧
      byteBits x ++ bitsOf pk'.cnt pk'.acc
        = bitsOf s.pk.cnt s.pk.acc
          ++ bitsOf (if s.cfgVar then max 9 (bitLength s.encNext) else s.cfgBits) code.toNat ∧
      (2 ^ s.cfgBits ≤ s.encNext → tr = s.trie) ∧
      (s.encNext < 2 ^ s.cfgBits → tr.size = s.trie.size + 1 ∧ trAlloc tr = trAlloc s.trie + 1 ∧
        ∀ q, trieSearch tr q =
          if q = s.compS ++ [b] then some (BitVec.ofNat 32 s.encNext) else trieSearch s.trie q)

/-- R171 step 4, R173, R175: at input exhaustion the last match's code, if there is one, goes out at the current width, the
packer is flushed with zero padding, the session ends; the trie, the counter and `S` stay. -/
def Obligations.CStepFinishesTheStream : Prop :=
  ∀ s : State, Inv s → s.ph = .comp → s.src = [] →
    ∃ x, exec .cStep s = .next (answered .ended 0 [] { s with
        ph := .done, snk := s.snk ++ x, pk := ⟨0, 0⟩ }) ∧
      (s.compS = [] → byteBits x = bitsOf s.pk.cnt s.pk.acc
        ++ List.replicate ((8 - s.pk.cnt) % 8) false) ∧
      (s.compS ≠ [] → ∃ (code : Code) (pad : Nat), trieSearch s.trie s.compS = some code ∧ pad ≤ 7 ∧
        byteBits x = bitsOf s.pk.cnt s.pk.acc
          ++ bitsOf (if s.cfgVar then max 9 (bitLength s.encNext) else s.cfgBits) code.toNat
          ++ List.replicate pad false)

/-- R176: C.RUN is C.START, unless a compression session is open, followed by C.STEP until the phase leaves COMP. -/
def Obligations.CRunIsRepeatedCStep : Prop :=
  (∀ s : State, s.ph = .idle ∨ s.ph = .done →
    ∃ t, exec .cStart s = .next t ∧ exec .cRun s = exec .cRun t) ∧
  (∀ s t : State, s.ph = .comp → exec .cStep s = .next t →
    (t.ph = .comp → exec .cRun s = exec .cRun t) ∧ (t.ph ≠ .comp → exec .cRun s = .next t))

/-- R176, R178, R215: C.RUN in every sound state in which it is legal ends the session with END and no fault: every input byte
consumed, the packer flushed, the count of stored phrases equal to the counter; the decompression side, the source's rest
and the parameters as they were; the sink has only grown. -/
def Obligations.CRunCompletes : Prop :=
  (∀ s : State, Inv s → s.ph = .idle ∨ s.ph = .done ∨ s.ph = .comp →
    ∃ (x : List Byte) (tr : Trie) (p : Phrase) (n : Nat),
      exec .cRun s = .next (answered .ended 0 [] { s with
        ph := .done, src := [], snk := s.snk ++ x, pk := ⟨0, 0⟩, trie := tr, compS := p, encNext := n }) ∧
      tr.size = n ∧ trAlloc tr = n + 1 ∧ 256 ≤ n ∧ n ≤ 2 ^ s.cfgBits ∧ TrieInv tr ∧
      (p ≠ [] → (trieSearch tr p).isSome)) ∧
  (∀ s : State, s.ph = .dec0 ∨ s.ph = .dec1 → exec .cRun s = .next (faulted .badCmd 3 s)) ∧
  (∀ s : State, s.ph = .fault → exec .cRun s = .next (answered .fault (causeCode s.fcause) [] s))

/-! ### The decompression driver -/

/-- R190: D.START on five bytes or more whose flag is 0 or 1 and whose little-endian `fixed_bits` is in range takes the parameters
from them, builds a fresh table and unpacker, empties `old`, sets the counter to 256 and opens the session; the
compression side and the sink stay. -/
def Obligations.DStartReadsTheHeader : Prop :=
  (∀ (s : State) (v : Bool) (fb : Nat) (body : List Byte), s.config.legal → s.ph = .idle ∨ s.ph = .done →
    9 ≤ fb → fb ≤ s.config.maxBits →
    s.src = (if v then 0x01#8 else 0x00#8) :: BitVec.ofNat 8 fb :: 0#8 :: 0#8 :: 0#8 :: body →
    ∃ table, exec .dStart s = .next (answered .ok 0 [] { s with
        ph := .dec0, cfgVar := v, cfgBits := fb, rd := table, up := ⟨0, 0⟩, upEos := false, old := []
        decNext := 256, src := body }) ∧
      table.length = 256 ∧ ∀ i, i < 256 → table[i]? = some [BitVec.ofNat 8 i]) ∧
  ShutOutOfSessions .dStart

/-- R190, R92, R221: a source shorter than five bytes, a flag byte above 1, or a `fixed_bits` (32-bit two's complement,
little-endian) outside MIN_BITS to MAX_BITS raises INVALID_HEADER; only the bytes pulled, five or all there were, are
consumed. -/
def Obligations.DStartRefusesBadHeaders : Prop :=
  ∀ s : State, s.ph = .idle ∨ s.ph = .done →
    (s.src.length < 5 → exec .dStart s = .next (faulted .invalidHeader 1 { s with src := [] })) ∧
    (∀ (h0 h1 h2 h3 h4 : Byte) (body : List Byte), s.src = h0 :: h1 :: h2 :: h3 :: h4 :: body →
      (1 < h0.toNat ∨ (h4 ++ h3 ++ h2 ++ h1).toInt < 9 ∨
        (s.config.maxBits : Int) < (h4 ++ h3 ++ h2 ++ h1).toInt) →
      exec .dStart s = .next (faulted .invalidHeader 1 { s with src := body }))

/-- R191, R192 (a), R194 step 1: in phase DEC0 of a sound state with a whole code left, D.STEP reads it at the width of counter
256; a code below 256 pushes its byte, which becomes `old`, and the phase becomes DEC1; any other raises INVALID_CODE with
nothing pushed. -/
def Obligations.DStepResolvesTheFirstCode : Prop :=
  ∀ s : State, Inv s → s.ph = .dec0 →
    (if s.cfgVar then 9 else s.cfgBits) ≤ (pendingBits s).length →
    ∃ (c k : Nat) (b : BitBuf),
      pendingBits s = bitsOf (if s.cfgVar then 9 else s.cfgBits) c
        ++ (bitsOf b.cnt b.acc ++ byteBits (s.src.drop k)) ∧
      c < 2 ^ (if s.cfgVar then 9 else s.cfgBits) ∧ b.cnt ≤ 7 ∧ BufClean b ∧
      (c < 256 → exec .dStep s = .next (answered .ok 0 [] { s with
        ph := .dec1, up := b, src := s.src.drop k, old := [BitVec.ofNat 8 c]
        snk := s.snk ++ [BitVec.ofNat 8 c] })) ∧
      (256 ≤ c → exec .dStep s = .next (faulted .invalidCode 2 { s with up := b, src := s.src.drop k }))

/-- R192 (b), R193, R194 step 2, R195, U6: in phase DEC1 of a sound state with a whole code left, D.STEP reads it at the width
of `min(dec_next + 1, CAP)`; a code in the table resolves to its entry, any other to `old ++ [old[0]]`; the phrase is
pushed; while the counter is below CAP the table gains `old ++ [p[0]]` at the counter's code and the counter rises by
one; the phrase becomes `old`. A rebuilt phrase longer than PHRASE_MAX raises STORE_FULL with nothing pushed. -/
def Obligations.DStepResolvesALaterCode : Prop :=
  ∀ (s : State) (w : Nat), Inv s → s.ph = .dec1 →
    w = (if s.cfgVar then max 9 (bitLength (min (s.decNext + 1) (2 ^ s.cfgBits))) else s.cfgBits) →
    w ≤ (pendingBits s).length →
    ∃ (c k : Nat) (b : BitBuf) (p : Phrase),
      pendingBits s = bitsOf w c ++ (bitsOf b.cnt b.acc ++ byteBits (s.src.drop k)) ∧
      c < 2 ^ w ∧ b.cnt ≤ 7 ∧ BufClean b ∧
      p = (if h : c < rdLen s then s.rd[c]'h else s.old ++ s.old.take 1) ∧
      (c < rdLen s ∨ s.old.length + 1 ≤ 2 ^ s.config.maxBits →
        exec .dStep s = .next (answered .ok 0 [] { s with
          up := b, src := s.src.drop k, snk := s.snk ++ p, old := p
          rd := if s.decNext < 2 ^ s.cfgBits then s.rd ++ [s.old ++ p.take 1] else s.rd
          decNext := if s.decNext < 2 ^ s.cfgBits then s.decNext + 1 else s.decNext })) ∧
      (rdLen s ≤ c → 2 ^ s.config.maxBits < s.old.length + 1 →
        exec .dStep s = .next (faulted .storeFull 5 { s with up := b, src := s.src.drop k }))

/-- R194 step 3, R196: when fewer bits are left than the next code's width, D.STEP ends the session with END: nothing is
pushed, the source is used up, the bits gathered stay held, `up_eos` is set; nothing else changes. -/
def Obligations.DStepEndsAtEndOfStream : Prop :=
  ∀ (s : State) (w : Nat), Inv s → s.ph = .dec0 ∨ s.ph = .dec1 →
    w = (if s.cfgVar then
        (if s.ph = .dec0 then 9 else max 9 (bitLength (min (s.decNext + 1) (2 ^ s.cfgBits))))
      else s.cfgBits) →
    (pendingBits s).length < w →
    ∃ b, exec .dStep s = .next (answered .ended 0 [] { s with
        ph := .done, up := b, src := [], upEos := true }) ∧
      b.cnt < w ∧ BufClean b ∧ bitsOf b.cnt b.acc = pendingBits s

/-- R197: D.RUN is D.START, unless a decompression session is open, followed by D.STEP until the phase leaves DEC0 and DEC1; a
fault of either ends it with that fault. -/
def Obligations.DRunIsRepeatedDStep : Prop :=
  (∀ s t : State, s.ph = .idle ∨ s.ph = .done → exec .dStart s = .next t →
    (t.ph = .dec0 → exec .dRun s = exec .dRun t) ∧ (t.ph = .fault → exec .dRun s = .next t)) ∧
  (∀ s t : State, s.ph = .dec0 ∨ s.ph = .dec1 → exec .dStep s = .next t →
    (t.ph = .dec0 ∨ t.ph = .dec1 → exec .dRun s = exec .dRun t) ∧
    (t.ph = .done ∨ t.ph = .fault → exec .dRun s = .next t))

/-- R197, R198: D.RUN in every sound state in which it is legal comes to an end: with END in phase DONE, or in phase FAULT with
INVALID_HEADER, INVALID_CODE or STORE_FULL answered; the compression side stays, and the sink has only grown. In the
phases of a compression session it raises BAD_CMD, and in FAULT it answers the cause. -/
def Obligations.DRunCompletes : Prop :=
  (∀ s : State, Inv s → s.ph = .idle ∨ s.ph = .done ∨ s.ph = .dec0 ∨ s.ph = .dec1 →
    ∃ t, exec .dRun s = .next t ∧
      ((t.ph = .done ∧ t.out = .response ⟨.ended, 0, []⟩ ∧ t.src = [] ∧ t.upEos = true ∧ t.fcause = .none) ∨
       (t.ph = .fault ∧ t.fcause ∈ [Cause.invalidHeader, .invalidCode, .storeFull] ∧
        t.out = .response ⟨.fault, causeCode t.fcause, []⟩)) ∧
      t.trie = s.trie ∧ t.pk = s.pk ∧ t.compS = s.compS ∧ t.encNext = s.encNext ∧ s.snk <+: t.snk) ∧
  (∀ s : State, s.ph = .comp → exec .dRun s = .next (faulted .badCmd 3 s)) ∧
  (∀ s : State, s.ph = .fault → exec .dRun s = .next (answered .fault (causeCode s.fcause) [] s))

/-! ### The whole machine -/

/-- R213, R223 (b): every command in a phase in which the legality table does not list it raises BAD_CMD, and nothing but phase,
cause and response changes. -/
def Obligations.IllegalPhaseRaisesBadCmd : Prop :=
  ∀ (i : Instr) (s : State), s.ph ≠ .fault → s.ph ∉ legalPhases i → exec i s = .next (faulted .badCmd 3 s)

/-- R213, R230, U17: in phase FAULT every command but CTL.RST answers FAULT with the recorded cause and changes nothing. -/
def Obligations.FaultPhaseIsSticky : Prop :=
  ∀ (i : Instr) (s : State), i ≠ .ctlRst → s.ph = .fault →
    exec i s = .next (answered .fault (causeCode s.fcause) [] s)

/-- R214: the phase changes only as the transition table says: a command that ends outside phase FAULT was legal and leaves one
of the phases the table gives it; and phase FAULT is left by CTL.RST alone. -/
def Obligations.PhaseTransitionTable : Prop :=
  ∀ (i : Instr) (s t : State), exec i s = .next t →
    (t.ph ≠ .fault → s.ph ∈ legalPhases i ∧ t.ph ∈ phasesAfter s.ph i) ∧
    (s.ph = .fault → i ≠ .ctlRst → t.ph = .fault)

/-- R220, R228: a command that enters phase FAULT in a sound state records, and answers with, BAD_CMD where it is not legal and
one of the causes the table gives it where it is. -/
def Obligations.OnlyListedCausesAreRaised : Prop :=
  ∀ (i : Instr) (s t : State), Inv s → s.ph ≠ .fault → exec i s = .next t → t.ph = .fault →
    (s.ph ∉ legalPhases i → t.fcause = .badCmd) ∧
    (s.ph ∈ legalPhases i → t.fcause ∈ causesOf i) ∧
    t.out = .response ⟨.fault, causeCode t.fcause, []⟩

/-- R228, R229: a command that enters phase FAULT in a sound state changes only phase, cause and response; but D.START has
consumed bytes of the source, D.STEP a code's bytes, with the leftover bits held, and D.RUN is a sequence of those. -/
def Obligations.FaultsArePrecise : Prop :=
  ∀ (i : Instr) (s t : State), Inv s → s.ph ≠ .fault → exec i s = .next t → t.ph = .fault → i ≠ .dRun →
    t = faulted t.fcause (causeCode t.fcause) { s with src := t.src, up := t.up } ∧
    (i ≠ .dStep → t.up = s.up) ∧ (i ≠ .dStep → i ≠ .dStart → t.src = s.src) ∧ t.src <:+ s.src

/-- R62, R63, R35: every command, in every state, only removes bytes from the front of the source and only appends bytes to the
sink. That it leaves the parameter MAX_BITS and the host's pending moves alone rests on the model's choice to hold both in the
state (log entries 1 and 2), on no rule. -/
def Obligations.StreamsOnlyAdvance : Prop :=
  ∀ (i : Instr) (s t : State), exec i s = .next t →
    t.src <:+ s.src ∧ s.snk <+: t.snk ∧ t.config = s.config ∧ t.host = s.host

/-- R61: the commands of the trie, the packer and the compression driver never touch the table, the unpacker, `old` or
`dec_next`; those of the table, the unpacker and the decompression driver never touch the trie, the packer, `S` or
`enc_next`; only the commands R61 lists for `src` or `snk` touch that stream. -/
def Obligations.TheTwoSidesAreSeparate : Prop :=
  ∀ (i : Instr) (s t : State), exec i s = .next t →
    (i ∈ [Instr.trieClr, .trieInit, .trieSize, .pkClr, .pkFlush, .cStart, .cStep, .cRun] ∨
        (∃ p v, i = .trieIns p v) ∨ (∃ p, i = .trieSrch p) ∨ (∃ c w, i = .pkEmit c w) →
      t.rd = s.rd ∧ t.up = s.up ∧ t.upEos = s.upEos ∧ t.old = s.old ∧ t.decNext = s.decNext ∧
      t.cfgVar = s.cfgVar ∧ t.cfgBits = s.cfgBits) ∧
    (i ∈ [Instr.rdInit, .upClr, .dStart, .dStep, .dRun] ∨
        (∃ c p, i = .rdExt c p) ∨ (∃ c, i = .rdLkp c) ∨ (∃ w, i = .upRead w) →
      t.trie = s.trie ∧ t.pk = s.pk ∧ t.compS = s.compS ∧ t.encNext = s.encNext) ∧
    ((∀ w, i ≠ .upRead w) → i ∉ [Instr.dStart, .dStep, .dRun, .cStep, .cRun] → t.src = s.src) ∧
    ((∀ c w, i ≠ .pkEmit c w) → i ∉ [Instr.pkFlush, .cStart, .cStep, .cRun, .dStep, .dRun] → t.snk = s.snk)

/-- R37: the values the spec gives the state elements at reset. -/
def Obligations.ResetValues : Prop :=
  State.reset.ph = .idle ∧ State.reset.fcause = .none ∧ State.reset.cfgVar = false ∧ State.reset.cfgBits = 12 ∧
  State.reset.compS = [] ∧ State.reset.encNext = 256 ∧ State.reset.old = [] ∧ State.reset.decNext = 256 ∧
  State.reset.pk = ⟨0, 0⟩ ∧ State.reset.up = ⟨0, 0⟩ ∧ State.reset.upEos = false ∧
  trAlloc State.reset.trie = 1 ∧ nodeAt State.reset.trie 0 = ⟨none, []⟩ ∧ State.reset.trie.size = 0 ∧
  rdLen State.reset = 0 ∧ busy State.reset = false ∧ doneFlag State.reset = false ∧ faultFlag State.reset = false

/-- R37, R32: the state right after reset is sound. -/
def Obligations.ResetIsSound : Prop := Inv State.reset

/-- 10_state.md, R32, R178, R199: every step from a sound state, whatever the host's move, leads to a sound state: every register
in the range its rule states, the trie in its form (R32), the stores in their bounds, the session invariants of an open
session. This holds for every legal MAX_BITS; only where the move is the reset input or CTL.RST is MAX_BITS to be 12 or more,
so that the reset value of `cfg_bits` (R37) is in the range R25 states (log entry 12); and for a smaller MAX_BITS a reset
leaves everything but `cfg_bits` sound. -/
def Obligations.EveryStepKeepsSoundness : Prop :=
  (∀ s t : State, Inv s → (ResetIsNext s → 12 ≤ s.config.maxBits) → step s = .next t → Inv t) ∧
  (∀ s t : State, Inv s → ResetIsNext s → step s = .next t → t.cfgBits = 12 ∧ Inv { t with cfgBits := 9 })

/-- R74, R178, R199: from a sound state a step always has a next state, but for a H.BIND in a session (R217, U18), which the model
refuses (log entry 8); the model's own faults are never reached. -/
def Obligations.SoundStatesNeverGetStuck : Prop :=
  ∀ s : State, Inv s →
    (∃ t, step s = .next t) ∨
    (step s = .refused .bindWhileBusy ∧ (s.ph = .comp ∨ s.ph = .dec0 ∨ s.ph = .dec1) ∧
      ∃ x ms, s.host = .bind x :: ms)

/-- R24, R230: the recorded cause is kept by every step until a reset or CTL.RST. -/
def Obligations.FirstFaultIsKept : Prop :=
  ∀ s t : State, s.ph = .fault → step s = .next t →
    (t.ph = .fault ∧ t.fcause = s.fcause ∧ t.rd = s.rd ∧ t.trie = s.trie ∧ t.pk = s.pk ∧ t.up = s.up ∧
      t.cfgVar = s.cfgVar ∧ t.cfgBits = s.cfgBits) ∨
    (t.ph = .idle ∧ t.fcause = .none ∧
      ((∃ ms, s.host = .reset :: ms) ∨ ∃ c ms, s.host = .command c :: ms ∧ decode c = .instr .ctlRst))

/-- R38, R177: what a compression session pushes depends only on the parameters and the source: two states that agree on
`cfg_var`, `cfg_bits`, MAX_BITS and the source push the same bytes, whatever earlier sessions left in them. -/
def Obligations.CompressionIgnoresHistory : Prop :=
  ∀ s s' t t' : State, s.ph = .idle ∨ s.ph = .done → s'.ph = .idle ∨ s'.ph = .done →
    s'.cfgVar = s.cfgVar → s'.cfgBits = s.cfgBits → s'.config = s.config → s'.src = s.src →
    exec .cRun s = .next t → exec .cRun s' = .next t' →
    ∃ x, t.snk = s.snk ++ x ∧ t'.snk = s'.snk ++ x

/-- R200, R177, R198, R218: for every byte sequence, both modes and every legal `fixed_bits`, decompressing what compressing it
pushed gives it back: from any sound state outside a session with an empty sink, C.RUN ends in DONE; and from any state
outside a session of a block with the same MAX_BITS, whatever its parameters and its other registers hold (the reset state
among them), with what C.RUN pushed bound as the source, D.RUN ends in DONE, with the sink holding exactly the original
source and the parameters those of the compression, read from the header. -/
def Obligations.RoundTrip : Prop :=
  ∀ s : State, Inv s → s.ph = .idle ∨ s.ph = .done → s.snk = [] →
    ∃ t, exec .cRun s = .next t ∧ t.ph = .done ∧
      ∀ r : State, r.ph = .idle ∨ r.ph = .done → r.config = s.config → r.src = t.snk → r.snk = [] →
        ∃ u, exec .dRun r = .next u ∧ u.ph = .done ∧ u.snk = s.src ∧
          u.cfgVar = s.cfgVar ∧ u.cfgBits = s.cfgBits
end

