-- ==== Sys2Proof/Laws/State.lean ====
section
/-! SUPPORT. For each named update of the state, one lemma a field: what the field holds afterwards. All by unfolding once, so
that no later proof unfolds a record update. -/

namespace Sys2Proof.Machine

/-! SnkPush (R63) -/

@[simp] theorem snkPush_ph (b : Byte) (s : State) : (snkPush b s).ph = s.ph := rfl
@[simp] theorem snkPush_fcause (b : Byte) (s : State) : (snkPush b s).fcause = s.fcause := rfl
@[simp] theorem snkPush_cfgVar (b : Byte) (s : State) : (snkPush b s).cfgVar = s.cfgVar := rfl
@[simp] theorem snkPush_cfgBits (b : Byte) (s : State) : (snkPush b s).cfgBits = s.cfgBits := rfl
@[simp] theorem snkPush_compS (b : Byte) (s : State) : (snkPush b s).compS = s.compS := rfl
@[simp] theorem snkPush_encNext (b : Byte) (s : State) : (snkPush b s).encNext = s.encNext := rfl
@[simp] theorem snkPush_old (b : Byte) (s : State) : (snkPush b s).old = s.old := rfl
@[simp] theorem snkPush_decNext (b : Byte) (s : State) : (snkPush b s).decNext = s.decNext := rfl
@[simp] theorem snkPush_pk (b : Byte) (s : State) : (snkPush b s).pk = s.pk := rfl
@[simp] theorem snkPush_up (b : Byte) (s : State) : (snkPush b s).up = s.up := rfl
@[simp] theorem snkPush_upEos (b : Byte) (s : State) : (snkPush b s).upEos = s.upEos := rfl
@[simp] theorem snkPush_trie (b : Byte) (s : State) : (snkPush b s).trie = s.trie := rfl
@[simp] theorem snkPush_rd (b : Byte) (s : State) : (snkPush b s).rd = s.rd := rfl
@[simp] theorem snkPush_src (b : Byte) (s : State) : (snkPush b s).src = s.src := rfl
@[simp] theorem snkPush_snk (b : Byte) (s : State) : (snkPush b s).snk = s.snk ++ [b] := rfl
@[simp] theorem snkPush_config (b : Byte) (s : State) : (snkPush b s).config = s.config := rfl
@[simp] theorem snkPush_host (b : Byte) (s : State) : (snkPush b s).host = s.host := rfl
@[simp] theorem snkPush_out (b : Byte) (s : State) : (snkPush b s).out = s.out := rfl

/-! SnkPushAll (R63) -/

@[simp] theorem snkPushAll_ph (p : Phrase) (s : State) : (snkPushAll p s).ph = s.ph := by
  induction p generalizing s with
  | nil => simp [snkPushAll]
  | cons b bs ih => simp [snkPushAll, ih]

@[simp] theorem snkPushAll_fcause (p : Phrase) (s : State) : (snkPushAll p s).fcause = s.fcause := by
  induction p generalizing s with
  | nil => simp [snkPushAll]
  | cons b bs ih => simp [snkPushAll, ih]

@[simp] theorem snkPushAll_cfgVar (p : Phrase) (s : State) : (snkPushAll p s).cfgVar = s.cfgVar := by
  induction p generalizing s with
  | nil => simp [snkPushAll]
  | cons b bs ih => simp [snkPushAll, ih]

@[simp] theorem snkPushAll_cfgBits (p : Phrase) (s : State) : (snkPushAll p s).cfgBits = s.cfgBits := by
  induction p generalizing s with
  | nil => simp [snkPushAll]
  | cons b bs ih => simp [snkPushAll, ih]

@[simp] theorem snkPushAll_compS (p : Phrase) (s : State) : (snkPushAll p s).compS = s.compS := by
  induction p generalizing s with
  | nil => simp [snkPushAll]
  | cons b bs ih => simp [snkPushAll, ih]

@[simp] theorem snkPushAll_encNext (p : Phrase) (s : State) : (snkPushAll p s).encNext = s.encNext := by
  induction p generalizing s with
  | nil => simp [snkPushAll]
  | cons b bs ih => simp [snkPushAll, ih]

@[simp] theorem snkPushAll_old (p : Phrase) (s : State) : (snkPushAll p s).old = s.old := by
  induction p generalizing s with
  | nil => simp [snkPushAll]
  | cons b bs ih => simp [snkPushAll, ih]

@[simp] theorem snkPushAll_decNext (p : Phrase) (s : State) : (snkPushAll p s).decNext = s.decNext := by
  induction p generalizing s with
  | nil => simp [snkPushAll]
  | cons b bs ih => simp [snkPushAll, ih]

@[simp] theorem snkPushAll_pk (p : Phrase) (s : State) : (snkPushAll p s).pk = s.pk := by
  induction p generalizing s with
  | nil => simp [snkPushAll]
  | cons b bs ih => simp [snkPushAll, ih]

@[simp] theorem snkPushAll_up (p : Phrase) (s : State) : (snkPushAll p s).up = s.up := by
  induction p generalizing s with
  | nil => simp [snkPushAll]
  | cons b bs ih => simp [snkPushAll, ih]

@[simp] theorem snkPushAll_upEos (p : Phrase) (s : State) : (snkPushAll p s).upEos = s.upEos := by
  induction p generalizing s with
  | nil => simp [snkPushAll]
  | cons b bs ih => simp [snkPushAll, ih]

@[simp] theorem snkPushAll_trie (p : Phrase) (s : State) : (snkPushAll p s).trie = s.trie := by
  induction p generalizing s with
  | nil => simp [snkPushAll]
  | cons b bs ih => simp [snkPushAll, ih]

@[simp] theorem snkPushAll_rd (p : Phrase) (s : State) : (snkPushAll p s).rd = s.rd := by
  induction p generalizing s with
  | nil => simp [snkPushAll]
  | cons b bs ih => simp [snkPushAll, ih]

@[simp] theorem snkPushAll_src (p : Phrase) (s : State) : (snkPushAll p s).src = s.src := by
  induction p generalizing s with
  | nil => simp [snkPushAll]
  | cons b bs ih => simp [snkPushAll, ih]

@[simp] theorem snkPushAll_snk (p : Phrase) (s : State) : (snkPushAll p s).snk = s.snk ++ p := by
  induction p generalizing s with
  | nil => simp [snkPushAll]
  | cons b bs ih => simp [snkPushAll, ih]

@[simp] theorem snkPushAll_config (p : Phrase) (s : State) : (snkPushAll p s).config = s.config := by
  induction p generalizing s with
  | nil => simp [snkPushAll]
  | cons b bs ih => simp [snkPushAll, ih]

@[simp] theorem snkPushAll_host (p : Phrase) (s : State) : (snkPushAll p s).host = s.host := by
  induction p generalizing s with
  | nil => simp [snkPushAll]
  | cons b bs ih => simp [snkPushAll, ih]

@[simp] theorem snkPushAll_out (p : Phrase) (s : State) : (snkPushAll p s).out = s.out := by
  induction p generalizing s with
  | nil => simp [snkPushAll]
  | cons b bs ih => simp [snkPushAll, ih]

/-! respond (R110) -/

@[simp] theorem respond_ph (r : Response) (s : State) : (respond r s).ph = s.ph := rfl
@[simp] theorem respond_fcause (r : Response) (s : State) : (respond r s).fcause = s.fcause := rfl
@[simp] theorem respond_cfgVar (r : Response) (s : State) : (respond r s).cfgVar = s.cfgVar := rfl
@[simp] theorem respond_cfgBits (r : Response) (s : State) : (respond r s).cfgBits = s.cfgBits := rfl
@[simp] theorem respond_compS (r : Response) (s : State) : (respond r s).compS = s.compS := rfl
@[simp] theorem respond_encNext (r : Response) (s : State) : (respond r s).encNext = s.encNext := rfl
@[simp] theorem respond_old (r : Response) (s : State) : (respond r s).old = s.old := rfl
@[simp] theorem respond_decNext (r : Response) (s : State) : (respond r s).decNext = s.decNext := rfl
@[simp] theorem respond_pk (r : Response) (s : State) : (respond r s).pk = s.pk := rfl
@[simp] theorem respond_up (r : Response) (s : State) : (respond r s).up = s.up := rfl
@[simp] theorem respond_upEos (r : Response) (s : State) : (respond r s).upEos = s.upEos := rfl
@[simp] theorem respond_trie (r : Response) (s : State) : (respond r s).trie = s.trie := rfl
@[simp] theorem respond_rd (r : Response) (s : State) : (respond r s).rd = s.rd := rfl
@[simp] theorem respond_src (r : Response) (s : State) : (respond r s).src = s.src := rfl
@[simp] theorem respond_snk (r : Response) (s : State) : (respond r s).snk = s.snk := rfl
@[simp] theorem respond_config (r : Response) (s : State) : (respond r s).config = s.config := rfl
@[simp] theorem respond_host (r : Response) (s : State) : (respond r s).host = s.host := rfl
@[simp] theorem respond_out (r : Response) (s : State) : (respond r s).out = .response r := rfl

/-! fault entry (R228) -/

@[simp] theorem faultEntry_ph (c : Cause) (s : State) : (faultEntry c s).ph = .fault := rfl
@[simp] theorem faultEntry_fcause (c : Cause) (s : State) : (faultEntry c s).fcause = c := rfl
@[simp] theorem faultEntry_cfgVar (c : Cause) (s : State) : (faultEntry c s).cfgVar = s.cfgVar := rfl
@[simp] theorem faultEntry_cfgBits (c : Cause) (s : State) : (faultEntry c s).cfgBits = s.cfgBits := rfl
@[simp] theorem faultEntry_compS (c : Cause) (s : State) : (faultEntry c s).compS = s.compS := rfl
@[simp] theorem faultEntry_encNext (c : Cause) (s : State) : (faultEntry c s).encNext = s.encNext := rfl
@[simp] theorem faultEntry_old (c : Cause) (s : State) : (faultEntry c s).old = s.old := rfl
@[simp] theorem faultEntry_decNext (c : Cause) (s : State) : (faultEntry c s).decNext = s.decNext := rfl
@[simp] theorem faultEntry_pk (c : Cause) (s : State) : (faultEntry c s).pk = s.pk := rfl
@[simp] theorem faultEntry_up (c : Cause) (s : State) : (faultEntry c s).up = s.up := rfl
@[simp] theorem faultEntry_upEos (c : Cause) (s : State) : (faultEntry c s).upEos = s.upEos := rfl
@[simp] theorem faultEntry_trie (c : Cause) (s : State) : (faultEntry c s).trie = s.trie := rfl
@[simp] theorem faultEntry_rd (c : Cause) (s : State) : (faultEntry c s).rd = s.rd := rfl
@[simp] theorem faultEntry_src (c : Cause) (s : State) : (faultEntry c s).src = s.src := rfl
@[simp] theorem faultEntry_snk (c : Cause) (s : State) : (faultEntry c s).snk = s.snk := rfl
@[simp] theorem faultEntry_config (c : Cause) (s : State) : (faultEntry c s).config = s.config := rfl
@[simp] theorem faultEntry_host (c : Cause) (s : State) : (faultEntry c s).host = s.host := rfl
@[simp] theorem faultEntry_out (c : Cause) (s : State) : (faultEntry c s).out = .response (Response.failed c) := rfl

/-! PkClear (R150) -/

@[simp] theorem pkClear_ph (s : State) : (pkClear s).ph = s.ph := rfl
@[simp] theorem pkClear_fcause (s : State) : (pkClear s).fcause = s.fcause := rfl
@[simp] theorem pkClear_cfgVar (s : State) : (pkClear s).cfgVar = s.cfgVar := rfl
@[simp] theorem pkClear_cfgBits (s : State) : (pkClear s).cfgBits = s.cfgBits := rfl
@[simp] theorem pkClear_compS (s : State) : (pkClear s).compS = s.compS := rfl
@[simp] theorem pkClear_encNext (s : State) : (pkClear s).encNext = s.encNext := rfl
@[simp] theorem pkClear_old (s : State) : (pkClear s).old = s.old := rfl
@[simp] theorem pkClear_decNext (s : State) : (pkClear s).decNext = s.decNext := rfl
@[simp] theorem pkClear_pk (s : State) : (pkClear s).pk = BitBuf.empty := rfl
@[simp] theorem pkClear_up (s : State) : (pkClear s).up = s.up := rfl
@[simp] theorem pkClear_upEos (s : State) : (pkClear s).upEos = s.upEos := rfl
@[simp] theorem pkClear_trie (s : State) : (pkClear s).trie = s.trie := rfl
@[simp] theorem pkClear_rd (s : State) : (pkClear s).rd = s.rd := rfl
@[simp] theorem pkClear_src (s : State) : (pkClear s).src = s.src := rfl
@[simp] theorem pkClear_snk (s : State) : (pkClear s).snk = s.snk := rfl
@[simp] theorem pkClear_config (s : State) : (pkClear s).config = s.config := rfl
@[simp] theorem pkClear_host (s : State) : (pkClear s).host = s.host := rfl
@[simp] theorem pkClear_out (s : State) : (pkClear s).out = s.out := rfl

/-! UpClear (R156) -/

@[simp] theorem upClear_ph (s : State) : (upClear s).ph = s.ph := rfl
@[simp] theorem upClear_fcause (s : State) : (upClear s).fcause = s.fcause := rfl
@[simp] theorem upClear_cfgVar (s : State) : (upClear s).cfgVar = s.cfgVar := rfl
@[simp] theorem upClear_cfgBits (s : State) : (upClear s).cfgBits = s.cfgBits := rfl
@[simp] theorem upClear_compS (s : State) : (upClear s).compS = s.compS := rfl
@[simp] theorem upClear_encNext (s : State) : (upClear s).encNext = s.encNext := rfl
@[simp] theorem upClear_old (s : State) : (upClear s).old = s.old := rfl
@[simp] theorem upClear_decNext (s : State) : (upClear s).decNext = s.decNext := rfl
@[simp] theorem upClear_pk (s : State) : (upClear s).pk = s.pk := rfl
@[simp] theorem upClear_up (s : State) : (upClear s).up = BitBuf.empty := rfl
@[simp] theorem upClear_upEos (s : State) : (upClear s).upEos = false := rfl
@[simp] theorem upClear_trie (s : State) : (upClear s).trie = s.trie := rfl
@[simp] theorem upClear_rd (s : State) : (upClear s).rd = s.rd := rfl
@[simp] theorem upClear_src (s : State) : (upClear s).src = s.src := rfl
@[simp] theorem upClear_snk (s : State) : (upClear s).snk = s.snk := rfl
@[simp] theorem upClear_config (s : State) : (upClear s).config = s.config := rfl
@[simp] theorem upClear_host (s : State) : (upClear s).host = s.host := rfl
@[simp] theorem upClear_out (s : State) : (upClear s).out = s.out := rfl

/-! RdInit (R140) -/

@[simp] theorem rdInit_ph (s : State) : (rdInit s).ph = s.ph := rfl
@[simp] theorem rdInit_fcause (s : State) : (rdInit s).fcause = s.fcause := rfl
@[simp] theorem rdInit_cfgVar (s : State) : (rdInit s).cfgVar = s.cfgVar := rfl
@[simp] theorem rdInit_cfgBits (s : State) : (rdInit s).cfgBits = s.cfgBits := rfl
@[simp] theorem rdInit_compS (s : State) : (rdInit s).compS = s.compS := rfl
@[simp] theorem rdInit_encNext (s : State) : (rdInit s).encNext = s.encNext := rfl
@[simp] theorem rdInit_old (s : State) : (rdInit s).old = s.old := rfl
@[simp] theorem rdInit_decNext (s : State) : (rdInit s).decNext = s.decNext := rfl
@[simp] theorem rdInit_pk (s : State) : (rdInit s).pk = s.pk := rfl
@[simp] theorem rdInit_up (s : State) : (rdInit s).up = s.up := rfl
@[simp] theorem rdInit_upEos (s : State) : (rdInit s).upEos = s.upEos := rfl
@[simp] theorem rdInit_trie (s : State) : (rdInit s).trie = s.trie := rfl
@[simp] theorem rdInit_rd (s : State) : (rdInit s).rd = alphabet := rfl
@[simp] theorem rdInit_src (s : State) : (rdInit s).src = s.src := rfl
@[simp] theorem rdInit_snk (s : State) : (rdInit s).snk = s.snk := rfl
@[simp] theorem rdInit_config (s : State) : (rdInit s).config = s.config := rfl
@[simp] theorem rdInit_host (s : State) : (rdInit s).host = s.host := rfl
@[simp] theorem rdInit_out (s : State) : (rdInit s).out = s.out := rfl

/-! reset (R37, R250) -/

@[simp] theorem resetBlock_ph (s : State) : (resetBlock s).ph = .idle := rfl
@[simp] theorem resetBlock_fcause (s : State) : (resetBlock s).fcause = .none := rfl
@[simp] theorem resetBlock_cfgVar (s : State) : (resetBlock s).cfgVar = false := rfl
@[simp] theorem resetBlock_cfgBits (s : State) : (resetBlock s).cfgBits = 12 := rfl
@[simp] theorem resetBlock_compS (s : State) : (resetBlock s).compS = [] := rfl
@[simp] theorem resetBlock_encNext (s : State) : (resetBlock s).encNext = 256 := rfl
@[simp] theorem resetBlock_old (s : State) : (resetBlock s).old = [] := rfl
@[simp] theorem resetBlock_decNext (s : State) : (resetBlock s).decNext = 256 := rfl
@[simp] theorem resetBlock_pk (s : State) : (resetBlock s).pk = BitBuf.empty := rfl
@[simp] theorem resetBlock_up (s : State) : (resetBlock s).up = BitBuf.empty := rfl
@[simp] theorem resetBlock_upEos (s : State) : (resetBlock s).upEos = false := rfl
@[simp] theorem resetBlock_trie (s : State) : (resetBlock s).trie = Trie.cleared := rfl
@[simp] theorem resetBlock_rd (s : State) : (resetBlock s).rd = [] := rfl
@[simp] theorem resetBlock_src (s : State) : (resetBlock s).src = s.src := rfl
@[simp] theorem resetBlock_snk (s : State) : (resetBlock s).snk = s.snk := rfl
@[simp] theorem resetBlock_config (s : State) : (resetBlock s).config = s.config := rfl
@[simp] theorem resetBlock_host (s : State) : (resetBlock s).host = s.host := rfl
@[simp] theorem resetBlock_out (s : State) : (resetBlock s).out = s.out := rfl

/-! a command offered -/

@[simp] theorem offerCommand_ph (c : Command) (s : State) : (offerCommand c s).ph = s.ph := rfl
@[simp] theorem offerCommand_fcause (c : Command) (s : State) : (offerCommand c s).fcause = s.fcause := rfl
@[simp] theorem offerCommand_cfgVar (c : Command) (s : State) : (offerCommand c s).cfgVar = s.cfgVar := rfl
@[simp] theorem offerCommand_cfgBits (c : Command) (s : State) : (offerCommand c s).cfgBits = s.cfgBits := rfl
@[simp] theorem offerCommand_compS (c : Command) (s : State) : (offerCommand c s).compS = s.compS := rfl
@[simp] theorem offerCommand_encNext (c : Command) (s : State) : (offerCommand c s).encNext = s.encNext := rfl
@[simp] theorem offerCommand_old (c : Command) (s : State) : (offerCommand c s).old = s.old := rfl
@[simp] theorem offerCommand_decNext (c : Command) (s : State) : (offerCommand c s).decNext = s.decNext := rfl
@[simp] theorem offerCommand_pk (c : Command) (s : State) : (offerCommand c s).pk = s.pk := rfl
@[simp] theorem offerCommand_up (c : Command) (s : State) : (offerCommand c s).up = s.up := rfl
@[simp] theorem offerCommand_upEos (c : Command) (s : State) : (offerCommand c s).upEos = s.upEos := rfl
@[simp] theorem offerCommand_trie (c : Command) (s : State) : (offerCommand c s).trie = s.trie := rfl
@[simp] theorem offerCommand_rd (c : Command) (s : State) : (offerCommand c s).rd = s.rd := rfl
@[simp] theorem offerCommand_src (c : Command) (s : State) : (offerCommand c s).src = s.src := rfl
@[simp] theorem offerCommand_snk (c : Command) (s : State) : (offerCommand c s).snk = s.snk := rfl
@[simp] theorem offerCommand_config (c : Command) (s : State) : (offerCommand c s).config = s.config := rfl
@[simp] theorem offerCommand_host (c : Command) (s : State) : (offerCommand c s).host = .command c :: s.host := rfl
@[simp] theorem offerCommand_out (c : Command) (s : State) : (offerCommand c s).out = s.out := rfl

/-! the effect of C.START (R170) -/

@[simp] theorem cStart_ph (s : State) : (cStart s).ph = .comp := by simp [cStart, headerBytes]
@[simp] theorem cStart_fcause (s : State) : (cStart s).fcause = s.fcause := by simp [cStart, headerBytes]
@[simp] theorem cStart_cfgVar (s : State) : (cStart s).cfgVar = s.cfgVar := by simp [cStart, headerBytes]
@[simp] theorem cStart_cfgBits (s : State) : (cStart s).cfgBits = s.cfgBits := by simp [cStart, headerBytes]
@[simp] theorem cStart_compS (s : State) : (cStart s).compS = [] := by simp [cStart, headerBytes]
@[simp] theorem cStart_encNext (s : State) : (cStart s).encNext = 256 := by simp [cStart, headerBytes]
@[simp] theorem cStart_old (s : State) : (cStart s).old = s.old := by simp [cStart, headerBytes]
@[simp] theorem cStart_decNext (s : State) : (cStart s).decNext = s.decNext := by simp [cStart, headerBytes]
@[simp] theorem cStart_pk (s : State) : (cStart s).pk = BitBuf.empty := by simp [cStart, headerBytes]
@[simp] theorem cStart_up (s : State) : (cStart s).up = s.up := by simp [cStart, headerBytes]
@[simp] theorem cStart_upEos (s : State) : (cStart s).upEos = s.upEos := by simp [cStart, headerBytes]
@[simp] theorem cStart_trie (s : State) : (cStart s).trie = trieInit s.config.trieNodes := by simp [cStart, headerBytes]
@[simp] theorem cStart_rd (s : State) : (cStart s).rd = s.rd := by simp [cStart, headerBytes]
@[simp] theorem cStart_src (s : State) : (cStart s).src = s.src := by simp [cStart, headerBytes]
@[simp] theorem cStart_snk (s : State) : (cStart s).snk = s.snk ++ headerBytes s := by simp [cStart, headerBytes]
@[simp] theorem cStart_config (s : State) : (cStart s).config = s.config := by simp [cStart, headerBytes]
@[simp] theorem cStart_host (s : State) : (cStart s).host = s.host := by simp [cStart, headerBytes]
@[simp] theorem cStart_out (s : State) : (cStart s).out = s.out := by simp [cStart, headerBytes]

/-! the bit buffer and the trie -/

@[simp] theorem empty_acc : BitBuf.empty.acc = 0 := rfl
@[simp] theorem empty_cnt : BitBuf.empty.cnt = 0 := rfl
@[simp] theorem countInsert_nodes (t : Trie) : (countInsert t).nodes = t.nodes := rfl
@[simp] theorem countInsert_size (t : Trie) : (countInsert t).size = t.size + 1 := rfl
@[simp] theorem setNode_nodes (i : Nat) (n : Node) (t : Trie) : (setNode i n t).nodes = t.nodes.set i n := rfl
@[simp] theorem setNode_size (i : Nat) (n : Node) (t : Trie) : (setNode i n t).size = t.size := rfl
@[simp] theorem allocNode_nodes (n : Node) (t : Trie) : (allocNode n t).nodes = t.nodes ++ [n] := rfl
@[simp] theorem allocNode_size (n : Node) (t : Trie) : (allocNode n t).size = t.size := rfl

end Sys2Proof.Machine
end

