-- ==== Sys2Proof/Laws/Ops.lean ====
section
/-! SUPPORT. Once for each shared operation: everything it can do. -/

namespace Sys2Proof.Machine

/-! ### Procedures -/

@[simp] theorem andThen_done {α β : Type} (a : α) (s : State) (k : α → State → Proc β) :
    (Proc.done a s).andThen k = k a s := rfl

@[simp] theorem andThen_raised {α β : Type} (c : Cause) (s : State) (k : α → State → Proc β) :
    (Proc.raised c s : Proc α).andThen k = .raised c s := rfl

@[simp] theorem andThen_stuck {α β : Type} (f : Fault) (k : α → State → Proc β) :
    (Proc.stuck f : Proc α).andThen k = .stuck f := rfl

/-- A sequence is done exactly when both parts are. -/
theorem andThen_eq_done {α β : Type} {p : Proc α} {k : α → State → Proc β} {b : β} {t : State} :
    p.andThen k = .done b t ↔ ∃ a s, p = .done a s ∧ k a s = .done b t := by
  cases p <;> simp

/-- A sequence raises what its first part raises, or what its second does after the first is done. -/
theorem andThen_eq_raised {α β : Type} {p : Proc α} {k : α → State → Proc β} {c : Cause} {t : State} :
    p.andThen k = .raised c t ↔
      p = .raised c t ∨ ∃ a s, p = .done a s ∧ k a s = .raised c t := by
  cases p <;> simp

/-- A sequence is stuck where its first part is, or its second after the first is done. -/
theorem andThen_eq_stuck {α β : Type} {p : Proc α} {k : α → State → Proc β} {f : Fault} :
    p.andThen k = .stuck f ↔ p = .stuck f ∨ ∃ a s, p = .done a s ∧ k a s = .stuck f := by
  cases p <;> simp

@[simp] theorem complete_done (r : Response) (s : State) : complete (.done r s) = .next (respond r s) := rfl
@[simp] theorem complete_raised (c : Cause) (s : State) : complete (.raised c s) = .next (faultEntry c s) := rfl
@[simp] theorem complete_stuck (f : Fault) : complete (.stuck f) = .fault f := rfl

/-- A completed command's next state: the response given, or the fault entered. -/
theorem complete_eq_next {p : Proc Response} {t : State} :
    complete p = .next t ↔
      (∃ r s, p = .done r s ∧ t = respond r s) ∨ (∃ c s, p = .raised c s ∧ t = faultEntry c s) := by
  cases p <;> simp [eq_comm]

theorem complete_eq_fault {p : Proc Response} {f : Fault} : complete p = .fault f ↔ p = .stuck f := by
  cases p <;> simp

theorem complete_ne_refused {p : Proc Response} {r : Refusal} : complete p ≠ .refused r := by
  cases p <;> simp

/-! ### The preamble (R213) -/

theorem command_fault {legal : List Phase} {body : State → Proc Response} {s : State}
    (h : s.ph = .fault) : command legal body s = .next (respond (Response.failed s.fcause) s) := by
  simp [command, h]

theorem command_illegal {legal : List Phase} {body : State → Proc Response} {s : State}
    (hf : s.ph ≠ .fault) (h : s.ph ∉ legal) : command legal body s = .next (faultEntry .badCmd s) := by
  simp [command, hf, h]

theorem command_legal {legal : List Phase} {body : State → Proc Response} {s : State}
    (hf : s.ph ≠ .fault) (h : s.ph ∈ legal) : command legal body s = complete (body s) := by
  simp [command, hf, h]

/-- Everything a command with the preamble can come to. -/
theorem command_cases (legal : List Phase) (body : State → Proc Response) (s : State) :
    (s.ph = .fault ∧ command legal body s = .next (respond (Response.failed s.fcause) s)) ∨
    (s.ph ≠ .fault ∧ s.ph ∉ legal ∧ command legal body s = .next (faultEntry .badCmd s)) ∨
    (s.ph ≠ .fault ∧ s.ph ∈ legal ∧ command legal body s = complete (body s)) := by
  by_cases hf : s.ph = .fault
  · exact .inl ⟨hf, command_fault hf⟩
  · by_cases h : s.ph ∈ legal
    · exact .inr (.inr ⟨hf, h, command_legal hf h⟩)
    · exact .inr (.inl ⟨hf, h, command_illegal hf h⟩)

theorem command_ne_refused {legal : List Phase} {body : State → Proc Response} {s : State} {r : Refusal} :
    command legal body s ≠ .refused r := by
  rcases command_cases legal body s with ⟨_, h⟩ | ⟨_, _, h⟩ | ⟨_, _, h⟩ <;> rw [h]
  · simp
  · simp
  · exact complete_ne_refused

/-- A phase outside a session is none of the others (R213). -/
theorem mem_outsideSession {p : Phase} : p ∈ outsideSession ↔ p = .idle ∨ p = .done := by
  simp [outsideSession]

/-- A unit-level command outside a session runs its body. -/
theorem command_outside {body : State → Proc Response} {s : State} (h : s.ph ∈ outsideSession) :
    command outsideSession body s = complete (body s) :=
  command_legal (by rcases mem_outsideSession.1 h with h | h <;> simp [h]) h

/-! ### Streams (R62, R63) -/

theorem srcPull_nil {s : State} (h : s.src = []) : srcPull s = (none, s) := by simp [srcPull, h]

theorem srcPull_cons {s : State} {b : Byte} {bs : List Byte} (h : s.src = b :: bs) :
    srcPull s = (some b, { s with src := bs }) := by simp [srcPull, h]

/-- A pull gives the first byte of `src` and removes it, or gives END and changes nothing. -/
theorem srcPull_cases (s : State) :
    (s.src = [] ∧ srcPull s = (none, s)) ∨
    (∃ b bs, s.src = b :: bs ∧ srcPull s = (some b, { s with src := bs })) := by
  cases h : s.src with
  | nil => exact .inl ⟨rfl, srcPull_nil h⟩
  | cons b bs => exact .inr ⟨b, bs, rfl, srcPull_cons h⟩

/-- What up to `n` pulls do: the first `n` bytes taken, or all of a shorter source. -/
theorem srcPullMany_eq (n : Nat) (s : State) :
    srcPullMany n s =
      (if n ≤ s.src.length then some (s.src.take n) else none, { s with src := s.src.drop n }) := by
  induction n generalizing s with
  | zero => simp [srcPullMany]
  | succ n ih =>
    rcases srcPull_cases s with ⟨h, e⟩ | ⟨b, bs, h, e⟩
    · have hs : ({ s with src := [] } : State) = s := by rw [← h]
      simp [srcPullMany, e, h, hs]
    · simp only [srcPullMany, e, ih, h]
      by_cases hn : n ≤ bs.length
      · simp [hn]
      · simp [hn]

end Sys2Proof.Machine
end

