-- ==== Sys2Proof/Laws/Bits.lean ====
section
/-! SUPPORT. The bit buffers seen as bit strings: what a shift, a mask and a byte are on them (R68, R93, R166). -/

namespace Sys2Proof.Machine

@[simp] theorem bitsOf_zero_width (v : Nat) : bitsOf 0 v = [] := rfl

@[simp] theorem bitsOf_length (n v : Nat) : (bitsOf n v).length = n := by simp [bitsOf]

theorem bitsOf_getElem (n v i : Nat) (h : i < (bitsOf n v).length) :
    (bitsOf n v)[i] = v.testBit (n - 1 - i) := by simp [bitsOf]

@[simp] theorem byteBits_nil : byteBits [] = [] := rfl

@[simp] theorem byteBits_cons (b : Byte) (bs : List Byte) :
    byteBits (b :: bs) = bitsOf 8 b.toNat ++ byteBits bs := by simp [byteBits]

@[simp] theorem byteBits_append (x y : List Byte) : byteBits (x ++ y) = byteBits x ++ byteBits y := by
  simp [byteBits]

@[simp] theorem byteBits_length (bs : List Byte) : (byteBits bs).length = 8 * bs.length := by
  induction bs with
  | nil => rfl
  | cons b bs ih => simp [ih]; omega

/-- Equal digit strings of numbers that fit are equal numbers. -/
theorem bitsOf_injective {n a b : Nat} (ha : a < 2 ^ n) (hb : b < 2 ^ n) (h : bitsOf n a = bitsOf n b) : a = b := by
  apply Nat.eq_of_testBit_eq
  intro i
  by_cases hi : i < n
  · have := congrArg (fun l => l[n - 1 - i]?) h
    have hlt : n - 1 - i < n := by omega
    have hsub : n - 1 - (n - 1 - i) = i := by omega
    simpa [bitsOf, hlt, hsub] using this
  · have hle : 2 ^ n ≤ 2 ^ i := Nat.pow_le_pow_right (by omega) (by omega)
    rw [Nat.testBit_lt_two_pow (by omega), Nat.testBit_lt_two_pow (by omega)]

/-- The digits of `v` are those of its upper part, then those of its low `n` bits. -/
theorem bitsOf_append (m n v : Nat) : bitsOf (m + n) v = bitsOf m (v >>> n) ++ bitsOf n (lowBits v n) := by
  apply List.ext_getElem
  · simp
  intro i h1 h2
  simp only [bitsOf_getElem, List.getElem_append, bitsOf_length, lowBits, Nat.testBit_shiftRight,
    Nat.testBit_and, Nat.testBit_two_pow_sub_one]
  simp only [bitsOf_length] at h1
  split
  · congr 1
    omega
  · have h3 : n - 1 - (i - m) < n := by omega
    simp only [h3, decide_true, Bool.and_true]
    congr 1
    omega

/-- Only the low `n` bits show in `n` digits. -/
theorem bitsOf_lowBits (n v : Nat) : bitsOf n (lowBits v n) = bitsOf n v := by
  have := bitsOf_append 0 n v
  simpa using this.symm

theorem lowBits_eq_mod (x k : Nat) : lowBits x k = x % 2 ^ k := by
  simp [lowBits, Nat.and_two_pow_sub_one_eq_mod]

theorem lowBits_lt (x k : Nat) : lowBits x k < 2 ^ k := by
  rw [lowBits_eq_mod]
  exact Nat.mod_lt _ (by positivity)

/-- Shifting in `w` bits: the old digits, then the new (R152, R158). -/
theorem bitsOf_shift_or {n w a c : Nat} (hc : c < 2 ^ w) :
    bitsOf (n + w) (a <<< w ||| c) = bitsOf n a ++ bitsOf w c := by
  rw [bitsOf_append]
  congr 1
  · congr 1
    apply Nat.eq_of_testBit_eq
    intro i
    have : c.testBit (w + i) = false :=
      Nat.testBit_lt_two_pow (lt_of_lt_of_le hc (Nat.pow_le_pow_right (by omega) (by omega)))
    simp [Nat.testBit_shiftRight, Nat.testBit_or, Nat.testBit_shiftLeft, this]
  · rw [bitsOf_lowBits]
    apply List.ext_getElem
    · simp
    intro i h1 h2
    simp only [bitsOf_length] at h1
    simp only [bitsOf_getElem, Nat.testBit_or, Nat.testBit_shiftLeft]
    have h3 : ¬ (w ≤ w - 1 - i) := by omega
    simp [h3]

/-- A shift and an OR stay below the power of the bits they fill (R166 (b)). -/
theorem shift_or_lt {n w a c : Nat} (ha : a < 2 ^ n) (hc : c < 2 ^ w) : a <<< w ||| c < 2 ^ (n + w) := by
  apply Nat.or_lt_two_pow
  · rw [Nat.shiftLeft_eq, Nat.pow_add]
    exact Nat.mul_lt_mul_of_pos_right ha (by positivity)
  · exact lt_of_lt_of_le hc (Nat.pow_le_pow_right (by omega) (by omega))

theorem lowByte_toNat (x : Nat) : (lowByte x).toNat = lowBits x 8 := by
  have : lowBits x 8 < 2 ^ 8 := lowBits_lt x 8
  have h : x &&& 255 = lowBits x 8 := rfl
  simp only [lowByte, BitVec.toNat_ofNat, h]
  exact Nat.mod_eq_of_lt this

/-- The digits of a byte taken from a number are the number's low 8 digits. -/
theorem bitsOf_lowByte (x : Nat) : bitsOf 8 (lowByte x).toNat = bitsOf 8 x := by
  rw [lowByte_toNat, bitsOf_lowBits]

/-- Taking the top `m` of `m + n` held digits as a number of its own (R152, R158). -/
theorem shiftRight_lt {m n v : Nat} (h : v < 2 ^ (m + n)) : v >>> n < 2 ^ m := by
  rw [Nat.shiftRight_eq_div_pow]
  apply Nat.div_lt_of_lt_mul
  rwa [← Nat.pow_add, Nat.add_comm]

/-- `bit_length` (R14): the `k` with `2^(k-1) <= n < 2^k`. -/
theorem bitLength_bounds {n : Nat} (h : 1 ≤ n) : 2 ^ (bitLength n - 1) ≤ n ∧ n < 2 ^ bitLength n := by
  have h0 : n ≠ 0 := by omega
  simp only [bitLength, h0, if_false, Nat.add_sub_cancel]
  exact ⟨Nat.log2_self_le h0, Nat.lt_log2_self⟩

/-- `bit_length` is the only such `k` (R14). -/
theorem bitLength_unique {n k : Nat} (h1 : 2 ^ k ≤ n) (h2 : n < 2 ^ (k + 1)) : bitLength n = k + 1 := by
  have h0 : n ≠ 0 := by
    have : 0 < 2 ^ k := by positivity
    omega
  simp only [bitLength, h0, if_false, Nat.add_right_cancel_iff]
  exact (Nat.log2_eq_iff h0).2 ⟨h1, h2⟩

end Sys2Proof.Machine
end

