-- ==== Sys2Proof/Laws/BitPack.lean ====
section
/-! SUPPORT. The packer and the unpacker: one lemma for each procedure that says everything it does, on bit strings
(R152, R154, R158, R159). -/

namespace Sys2Proof.Machine

/-- The drain of PkEmit: whole bytes off the top, at most 7 bits left, no bit lost (R152). -/
theorem pkDrain_spec (n : Nat) (s : State) (hn : s.pk.cnt ≤ 8 * n + 7) (hc : BufClean s.pk) :
    ∃ x b, pkDrain n s = { s with snk := s.snk ++ x, pk := b } ∧ b.cnt ≤ 7 ∧ BufClean b ∧
      byteBits x ++ bitsOf b.cnt b.acc = packerBits s := by
  induction n generalizing s with
  | zero => exact ⟨[], s.pk, by simp [pkDrain], by omega, hc, by simp [packerBits]⟩
  | succ n ih =>
    by_cases h : 8 ≤ s.pk.cnt
    · obtain ⟨k, hk⟩ : ∃ k, s.pk.cnt = 8 + k := ⟨s.pk.cnt - 8, by omega⟩
      have hk8 : s.pk.cnt - 8 = k := by omega
      let s1 : State := { snkPush (lowByte (s.pk.acc >>> (s.pk.cnt - 8))) s with
        pk := { acc := lowBits s.pk.acc (s.pk.cnt - 8), cnt := s.pk.cnt - 8 } }
      obtain ⟨x, b, he, hb, hcl, hbits⟩ := ih s1 (by simp [s1]; omega) (lowBits_lt _ _)
      refine ⟨lowByte (s.pk.acc >>> k) :: x, b, ?_, hb, hcl, ?_⟩
      · simp only [pkDrain, h, if_true]
        exact he.trans (by simp [s1, hk8, snkPush])
      · rw [byteBits_cons, bitsOf_lowByte, List.append_assoc, hbits]
        simp only [packerBits, s1, hk, Nat.add_sub_cancel_left]
        exact (bitsOf_append 8 k s.pk.acc).symm
    · exact ⟨[], s.pk, by simp [pkDrain, h], by omega, hc, by simp [packerBits]⟩

/-- The drain keeps everything but the packer and the sink, and only appends to the sink (R63, R152). -/
theorem pkDrain_frame (n : Nat) (s : State) :
    ∃ x b, pkDrain n s = { s with snk := s.snk ++ x, pk := b } := by
  induction n generalizing s with
  | zero => exact ⟨[], s.pk, by simp [pkDrain]⟩
  | succ n ih =>
    by_cases h : 8 ≤ s.pk.cnt
    · obtain ⟨x, b, he⟩ := ih { snkPush (lowByte (s.pk.acc >>> (s.pk.cnt - 8))) s with
        pk := { acc := lowBits s.pk.acc (s.pk.cnt - 8), cnt := s.pk.cnt - 8 } }
      refine ⟨lowByte (s.pk.acc >>> (s.pk.cnt - 8)) :: x, b, ?_⟩
      simp only [pkDrain, h, if_true]
      rw [he]
      simp [snkPush]
    · exact ⟨[], s.pk, by simp [pkDrain, h]⟩

theorem widthLegal_iff {c : Config} {w : Nat} : widthLegal c w = true ↔ 1 ≤ w ∧ w ≤ c.maxW := by
  simp [widthLegal]

/-- PkEmit on operands it accepts: the held bits and the code's `w` digits go out as whole bytes, at most 7 bits stay
held, in order, none lost (R152). -/
theorem pkEmit_spec {c w : Nat} {s : State} (hw : 1 ≤ w ∧ w ≤ s.config.maxW) (hc : c < 2 ^ w) (hb : BufClean s.pk) :
    ∃ x b, pkEmit c w s = .done () { s with snk := s.snk ++ x, pk := b } ∧ b.cnt ≤ 7 ∧ BufClean b ∧
      byteBits x ++ bitsOf b.cnt b.acc = packerBits s ++ bitsOf w c := by
  let s1 : State := { s with pk := { acc := (s.pk.acc <<< w) ||| c, cnt := s.pk.cnt + w } }
  obtain ⟨x, b, he, h7, hcl, hbits⟩ :=
    pkDrain_spec s1.pk.cnt s1 (by omega) (shift_or_lt hb hc)
  refine ⟨x, b, ?_, h7, hcl, ?_⟩
  · simp only [pkEmit, widthLegal_iff.2 hw, Bool.true_eq_false, if_false, Nat.not_le.2 hc]
    exact congrArg (Proc.done ()) (he.trans rfl)
  · rw [hbits]
    exact bitsOf_shift_or hc

/-- PkEmit in any state: refused with nothing changed, or only the packer changed and bytes appended to the sink. -/
theorem pkEmit_cases (c w : Nat) (s : State) :
    pkEmit c w s = .raised .badOperand s ∨
    ∃ x b, pkEmit c w s = .done () { s with snk := s.snk ++ x, pk := b } := by
  by_cases h1 : widthLegal s.config w = false
  · exact .inl (by simp [pkEmit, h1])
  · by_cases h2 : 2 ^ w ≤ c
    · exact .inl (by simp [pkEmit, h1, h2])
    · obtain ⟨x, b, h⟩ := pkDrain_frame (s.pk.cnt + w)
        { s with pk := { acc := (s.pk.acc <<< w) ||| c, cnt := s.pk.cnt + w } }
      refine .inr ⟨x, b, ?_⟩
      simp only [pkEmit, h1, if_false, h2]
      exact congrArg (Proc.done ()) (h.trans rfl)

/-- PkFlush: the held bits, padded with zeros to a whole byte if there are any; the packer emptied (R154). -/
theorem pkFlush_spec {s : State} (h7 : s.pk.cnt ≤ 7) :
    ∃ x, pkFlush s = { s with snk := s.snk ++ x, pk := BitBuf.empty } ∧
      byteBits x = packerBits s ++ List.replicate (if s.pk.cnt = 0 then 0 else 8 - s.pk.cnt) false := by
  by_cases h : 0 < s.pk.cnt
  · refine ⟨[lowByte (s.pk.acc <<< (8 - s.pk.cnt))], by simp [pkFlush, h, pkClear, snkPush], ?_⟩
    have h0 : s.pk.cnt ≠ 0 := by omega
    simp only [byteBits_cons, byteBits_nil, List.append_nil, bitsOf_lowByte, packerBits, h0, if_false]
    have hz := bitsOf_shift_or (n := s.pk.cnt) (w := 8 - s.pk.cnt) (a := s.pk.acc) (c := 0) (by positivity)
    rw [Nat.or_zero, Nat.add_sub_cancel' (by omega)] at hz
    rw [hz]
    congr 1
    apply List.ext_getElem
    · simp
    · intro i _ _
      simp [bitsOf_getElem]
  · refine ⟨[], by simp [pkFlush, h, pkClear], ?_⟩
    have h0 : s.pk.cnt = 0 := by omega
    simp [packerBits, h0]

/-- PkFlush in any state changes only the packer and appends to the sink. -/
theorem pkFlush_frame (s : State) : ∃ x, pkFlush s = { s with snk := s.snk ++ x, pk := BitBuf.empty } := by
  by_cases h : 0 < s.pk.cnt
  · exact ⟨[lowByte (s.pk.acc <<< (8 - s.pk.cnt))], by simp [pkFlush, h, pkClear, snkPush]⟩
  · exact ⟨[], by simp [pkFlush, h, pkClear]⟩

/-- The fill of UpRead (R158): it takes bytes off the source, no bit lost, until `w` are held; or the source ends first,
all of it taken and `up_eos` set. -/
theorem upFill_spec (w n : Nat) (s : State) (hn : w ≤ s.up.cnt + 8 * n) (hc : BufClean s.up) :
    (w ≤ (pendingBits s).length ∧ ∃ k b, upFill w n s = (true, { s with up := b, src := s.src.drop k }) ∧
        w ≤ b.cnt ∧ BufClean b ∧ (b = s.up ∧ k = 0 ∨ b.cnt ≤ w + 7) ∧
        bitsOf b.cnt b.acc ++ byteBits (s.src.drop k) = pendingBits s) ∨
    ((pendingBits s).length < w ∧ ∃ b, upFill w n s = (false, { s with up := b, src := [], upEos := true }) ∧
        BufClean b ∧ bitsOf b.cnt b.acc = pendingBits s) := by
  induction n generalizing s with
  | zero =>
    refine .inl ⟨?_, 0, s.up, by simp [upFill], by omega, hc, .inl ⟨rfl, rfl⟩, by simp [pendingBits]⟩
    simp [pendingBits]; omega
  | succ n ih =>
    by_cases h : s.up.cnt < w
    · rcases srcPull_cases s with ⟨hs, e⟩ | ⟨b, bs, hs, e⟩
      · refine .inr ⟨by simp [pendingBits, hs]; exact h, s.up, ?_, hc, by simp [pendingBits, hs]⟩
        simp only [upFill, h, if_true, e]
        rw [← hs]
      · let s1 : State := { s with
          up := { acc := (s.up.acc <<< 8) ||| b.toNat, cnt := s.up.cnt + 8 }, src := bs }
        have hb : b.toNat < 2 ^ 8 := b.isLt
        have hp : pendingBits s1 = pendingBits s := by
          simp only [pendingBits, s1, hs, byteBits_cons, bitsOf_shift_or hb, List.append_assoc]
        have hf : upFill w (n + 1) s = upFill w n s1 := by
          simp only [upFill, h, if_true, e]
          rfl
        rw [hf, ← hp]
        rcases ih s1 (by simp only [s1]; omega) (shift_or_lt hc hb) with
          ⟨hl, k, b', he, hw, hcl, hsmall, hbits⟩ | ⟨hl, b', he, hcl, hbits⟩
        · refine .inl ⟨hl, k + 1, b', ?_, hw, hcl, .inr ?_, ?_⟩
          · rw [he]; simp [s1, hs]
          · rcases hsmall with ⟨hb', _⟩ | h7
            · rw [hb']; simp only [s1]; omega
            · exact h7
          · rw [← hbits]; simp [s1, hs]
        · exact .inr ⟨hl, b', by rw [he], hcl, hbits⟩
    · refine .inl ⟨by simp [pendingBits]; omega, 0, s.up, by simp [upFill, h], by omega, hc, .inl ⟨rfl, rfl⟩, ?_⟩
      simp [pendingBits]

/-- UpRead where `w` bits or more can be delivered: the first `w` of them are the code, the others stay, in order (R158). -/
theorem upRead_code {w : Nat} {s : State} (hw : 1 ≤ w ∧ w ≤ s.config.maxW) (hc : BufClean s.up)
    (hl : w ≤ (pendingBits s).length) :
    ∃ c k b, upRead w s = .done (some c) { s with up := b, src := s.src.drop k } ∧ c < 2 ^ w ∧ BufClean b ∧
      b.cnt ≤ max (s.up.cnt - w) 7 ∧
      pendingBits s = bitsOf w c ++ (bitsOf b.cnt b.acc ++ byteBits (s.src.drop k)) := by
  rcases upFill_spec w w s (by omega) hc with ⟨_, k, b, he, hwb, hcl, hsmall, hbits⟩ | ⟨hlt, _⟩
  · obtain ⟨d, hd⟩ : ∃ d, b.cnt = w + d := ⟨b.cnt - w, by omega⟩
    have hd' : b.cnt - w = d := by omega
    have hlt : b.acc < 2 ^ (w + d) := hd ▸ hcl
    refine ⟨b.acc >>> d, k, ⟨lowBits b.acc d, d⟩, ?_, shiftRight_lt hlt, lowBits_lt _ _, ?_, ?_⟩
    · simp [upRead, widthLegal_iff.2 hw, he, hd']
    · rcases hsmall with ⟨rfl, _⟩ | h7
      · simp only; omega
      · simp only; omega
    · rw [← hbits, hd, bitsOf_append, List.append_assoc]
  · omega

/-- UpRead where fewer than `w` bits are left: EOS, the source emptied, the bits gathered held, `up_eos` set (R158, R159). -/
theorem upRead_eos {w : Nat} {s : State} (hw : 1 ≤ w ∧ w ≤ s.config.maxW) (hc : BufClean s.up)
    (hl : (pendingBits s).length < w) :
    ∃ b, upRead w s = .done none { s with up := b, src := [], upEos := true } ∧ BufClean b ∧
      bitsOf b.cnt b.acc = pendingBits s := by
  rcases upFill_spec w w s (by omega) hc with ⟨hle, _⟩ | ⟨_, b, he, hcl, hbits⟩
  · omega
  · exact ⟨b, by simp [upRead, widthLegal_iff.2 hw, he], hcl, hbits⟩

/-- UpRead with a width out of range (R158). -/
theorem upRead_bad_width {w : Nat} {s : State} (hw : ¬ (1 ≤ w ∧ w ≤ s.config.maxW)) :
    upRead w s = .raised .badOperand s := by
  have : widthLegal s.config w = false := by simpa [widthLegal] using hw
  simp [upRead, this]

/-- The fill in any state takes bytes off the source and touches only `up`, `up_eos` and `src`. -/
theorem upFill_frame (w n : Nat) (s : State) :
    ∃ k ok b e, upFill w n s = (ok, { s with up := b, upEos := e, src := s.src.drop k }) ∧ k ≤ s.src.length ∧
      (ok = true → e = s.upEos ∧ b.cnt = s.up.cnt + 8 * k) := by
  induction n generalizing s with
  | zero => exact ⟨0, true, s.up, s.upEos, by simp [upFill], by omega, by simp⟩
  | succ n ih =>
    by_cases h : s.up.cnt < w
    · rcases srcPull_cases s with ⟨hs, e⟩ | ⟨b, bs, hs, e⟩
      · exact ⟨0, false, s.up, true, by simp [upFill, h, e], by omega, by simp⟩
      · obtain ⟨k, ok, b', e', he, hk, hok⟩ := ih { s with
          up := { acc := (s.up.acc <<< 8) ||| b.toNat, cnt := s.up.cnt + 8 }, src := bs }
        refine ⟨k + 1, ok, b', e', ?_, by simp [hs]; exact hk, ?_⟩
        · simp only [upFill, h, if_true, e]
          rw [he]
          simp [hs]
        · intro ht
          obtain ⟨h1, h2⟩ := hok ht
          exact ⟨h1, by simp only at h2; omega⟩
    · exact ⟨0, true, s.up, s.upEos, by simp [upFill, h], by omega, by simp⟩

/-- UpRead in any state: refused with nothing changed; or EOS; or a code. It takes bytes off the source and touches only
`up`, `up_eos` and `src`. -/
theorem upRead_cases (w : Nat) (s : State) :
    upRead w s = .raised .badOperand s ∨
    ∃ r k b e, upRead w s = .done r { s with up := b, upEos := e, src := s.src.drop k } := by
  by_cases h1 : widthLegal s.config w = false
  · exact .inl (by simp [upRead, h1])
  · obtain ⟨k, ok, b, e, he, _, _⟩ := upFill_frame w w s
    refine .inr ?_
    cases ok with
    | false => exact ⟨none, k, b, e, by simp [upRead, h1, he]⟩
    | true => exact ⟨_, k, _, e, by simp only [upRead, h1, he]; rfl⟩

end Sys2Proof.Machine
end

