-- ==== Sys2Proof/Laws/Trie.lean ====
section
/-! SUPPORT. The trie's building blocks: edges, slots, and the trie that TRIE.INIT builds (R121, R31, R32). -/

namespace Sys2Proof.Machine

/-! ### Edges -/

/-- The edge put under its first byte is the one found there; every other first byte finds what it found before. -/
theorem edgeFrom_putEdge (b : Byte) (e : Edge) (l : List Edge) :
    edgeFrom b (putEdge e l) = if e.first = b then some e else edgeFrom b l := by
  induction l with
  | nil => by_cases h : e.first = b <;> simp [putEdge, edgeFrom, h]
  | cons x xs ih =>
    simp only [putEdge]
    split
    · by_cases h : e.first = b <;> simp [edgeFrom, h]
    · split
      · rename_i hx
        by_cases h : e.first = b
        · simp [edgeFrom, h]
        · have : ¬ x.first = b := fun hb => h (hx.trans hb)
          simp [edgeFrom, h, this]
      · rename_i hx
        simp only [edgeFrom] at ih ⊢
        by_cases h : e.first = b
        · have : ¬ x.first = b := fun hb => hx (h.trans hb.symm)
          simp [h, this, ih]
        · by_cases hb : x.first = b
          · simp [h, hb]
          · simp [h, hb, ih]

/-- The edges after a put are the new one and old ones. -/
theorem mem_putEdge {e x : Edge} {l : List Edge} (h : x ∈ putEdge e l) : x = e ∨ x ∈ l := by
  induction l with
  | nil => simpa [putEdge] using h
  | cons y ys ih =>
    simp only [putEdge] at h
    split at h
    · simpa using h
    · split at h
      · rcases List.mem_cons.1 h with h | h
        · exact .inl h
        · exact .inr (List.mem_cons_of_mem _ h)
      · rcases List.mem_cons.1 h with h | h
        · exact .inr (h ▸ List.mem_cons_self ..)
        · exact (ih h).imp id (List.mem_cons_of_mem _)

/-- A put keeps the one order of a node's edges (R32 (I4)). -/
theorem putEdge_sorted {e : Edge} {l : List Edge} (h : KidsSorted l) : KidsSorted (putEdge e l) := by
  induction l with
  | nil => simp [putEdge, KidsSorted]
  | cons x xs ih =>
    have hxs : KidsSorted xs := (List.pairwise_cons.1 h).2
    have hx := (List.pairwise_cons.1 h).1
    simp only [putEdge]
    split
    · rename_i hlt
      refine List.pairwise_cons.2 ⟨fun y hy => ?_, h⟩
      rcases List.mem_cons.1 hy with rfl | hy
      · exact hlt
      · exact lt_trans hlt (hx y hy)
    · rename_i hnlt
      split
      · rename_i heq
        exact List.pairwise_cons.2 ⟨fun y hy => heq ▸ hx y hy, hxs⟩
      · rename_i hne
        refine List.pairwise_cons.2 ⟨fun y hy => ?_, ih hxs⟩
        rcases mem_putEdge hy with rfl | hy
        · have : x.first.toNat ≠ y.first.toNat := fun hh => hne (BitVec.eq_of_toNat_eq hh.symm)
          omega
        · exact hx y hy

theorem putLabel_sorted {label : Phrase} {child : Nat} {l : List Edge} (h : KidsSorted l) :
    KidsSorted (putLabel label child l) := by
  cases label with
  | nil => exact h
  | cons b bs => exact putEdge_sorted h

/-- In a sorted list two edges with one first byte are the same edge (R32 (I4)). -/
theorem edge_unique {l : List Edge} (h : KidsSorted l) {x y : Edge} (hx : x ∈ l) (hy : y ∈ l)
    (hf : x.first = y.first) : x = y := by
  induction l with
  | nil => cases hx
  | cons z zs ih =>
    obtain ⟨h1, h2⟩ := List.pairwise_cons.1 h
    rcases List.mem_cons.1 hx with rfl | hx' <;> rcases List.mem_cons.1 hy with rfl | hy'
    · rfl
    · have := h1 y hy'; rw [hf] at this; omega
    · have := h1 x hx'; rw [hf] at this; omega
    · exact ih h2 hx' hy'

/-- No edge begins with `b`. -/
theorem edgeFrom_eq_none {l : List Edge} {b : Byte} : edgeFrom b l = none ↔ ∀ e ∈ l, e.first ≠ b := by
  simp [edgeFrom, List.find?_eq_none]

theorem edgeFrom_eq_some {l : List Edge} (h : KidsSorted l) {b : Byte} {e : Edge} :
    edgeFrom b l = some e ↔ e ∈ l ∧ e.first = b := by
  constructor
  · intro he
    exact ⟨List.mem_of_find?_eq_some he, by simpa using List.find?_some he⟩
  · rintro ⟨hm, hf⟩
    cases hc : edgeFrom b l with
    | none =>
      have := List.find?_eq_none.1 hc e hm
      simp [hf] at this
    | some e' =>
      have h' : e' ∈ l ∧ e'.first = b :=
        ⟨List.mem_of_find?_eq_some hc, by simpa using List.find?_some hc⟩
      rw [edge_unique h hm h'.1 (hf.trans h'.2.symm)]

/-- The edge search follows is the edge with the key's first byte, if the rest of its label is a prefix of the rest of the
key (R126, R32 (I4)). -/
theorem searchEdge_eq {l : List Edge} (h : KidsSorted l) (b : Byte) (ks : Phrase) :
    l.find? (fun e => e.label.isPrefixOf (b :: ks))
      = (edgeFrom b l).filter (fun e => e.rest.isPrefixOf ks) := by
  induction l with
  | nil => rfl
  | cons x xs ih =>
    have hxs : KidsSorted xs := (List.pairwise_cons.1 h).2
    have ih := ih hxs
    simp only [edgeFrom] at ih ⊢
    by_cases hb : x.first = b
    · by_cases hp : x.rest.isPrefixOf ks
      · simp [Edge.label, List.isPrefixOf, hb, hp, Option.filter]
      · have hn : xs.find? (fun e => e.label.isPrefixOf (b :: ks)) = none := by
          rw [List.find?_eq_none]
          intro y hy
          have := (List.pairwise_cons.1 h).1 y hy
          have hne : ¬ y.first = b := fun hyb => by rw [hb, hyb] at this; omega
          simp [Edge.label, List.isPrefixOf, hne]
        simp [Edge.label, List.isPrefixOf, hb, hp, Option.filter]
        simpa [Edge.label, List.isPrefixOf] using hn
    · simp only [List.find?_cons, hb, decide_false]
      rw [← ih]
      have hbeq : (x.first == b) = false := by simp [hb]
      simp [Edge.label, List.isPrefixOf, hbeq]

/-! ### Slots -/

theorem nodeAt_setNode (t : Trie) (i j : Nat) (n : Node) :
    nodeAt (setNode i n t) j = if i = j ∧ i < trAlloc t then n else nodeAt t j := by
  simp only [nodeAt, setNode_nodes, trAlloc, List.getD_eq_getElem?_getD, List.getElem?_set]
  by_cases hij : i = j
  · subst hij
    by_cases hl : i < t.nodes.length
    · simp [hl]
    · simp [hl]
  · simp [hij]

theorem nodeAt_allocNode (t : Trie) (j : Nat) (n : Node) :
    nodeAt (allocNode n t) j = if j = trAlloc t then n else nodeAt t j := by
  simp only [nodeAt, allocNode_nodes, trAlloc, List.getD_eq_getElem?_getD]
  by_cases hj : j < t.nodes.length
  · have : j ≠ t.nodes.length := by omega
    simp [List.getElem?_append_left hj, this]
  · by_cases he : j = t.nodes.length
    · simp [he]
    · have h1 : t.nodes.length ≤ j := by omega
      have h2 : j - t.nodes.length ≠ 0 := by omega
      simp [List.getElem?_append_right h1, he, List.getElem?_eq_none h1]
      rw [List.getElem?_eq_none]
      · rfl
      · simp; omega

@[simp] theorem nodeAt_countInsert (t : Trie) (j : Nat) : nodeAt (countInsert t) j = nodeAt t j := rfl

@[simp] theorem trAlloc_setNode (t : Trie) (i : Nat) (n : Node) : trAlloc (setNode i n t) = trAlloc t := by
  simp [trAlloc]

@[simp] theorem trAlloc_allocNode (t : Trie) (n : Node) : trAlloc (allocNode n t) = trAlloc t + 1 := by
  simp [trAlloc]

@[simp] theorem trAlloc_linkLabel (t : Trie) (cur : Nat) (l : Phrase) (c : Nat) :
    trAlloc (linkLabel cur l c t) = trAlloc t := by simp [linkLabel]

@[simp] theorem trAlloc_countInsert (t : Trie) : trAlloc (countInsert t) = trAlloc t := rfl

@[simp] theorem trAlloc_attachTerminal (t : Trie) (cur : Nat) (l : Phrase) (v : Code) :
    trAlloc (attachTerminal cur l v t) = trAlloc t + 1 := by simp [attachTerminal]

theorem nodeAt_of_ge {t : Trie} {i : Nat} (h : trAlloc t ≤ i) : nodeAt t i = Node.blank := by
  simp only [nodeAt, List.getD_eq_getElem?_getD]
  rw [List.getElem?_eq_none h]
  rfl

theorem nodeAt_mem {t : Trie} {i : Nat} (h : i < trAlloc t) : nodeAt t i ∈ t.nodes := by
  have h' : i < t.nodes.length := h
  simp only [nodeAt, List.getD_eq_getElem?_getD, List.getElem?_eq_getElem h', Option.getD_some]
  exact List.getElem_mem h'

theorem nodeAt_sorted {t : Trie} (h : ∀ n ∈ t.nodes, KidsSorted n.kids) (i : Nat) : KidsSorted (nodeAt t i).kids := by
  by_cases hi : i < trAlloc t
  · exact h _ (nodeAt_mem hi)
  · rw [nodeAt_of_ge (by omega)]
    simp [Node.blank, KidsSorted]

/-- The longest common prefix is no longer than either string, and is a prefix of both (R15). -/
theorem commonPrefixLength_spec (x y : Phrase) :
    commonPrefixLength x y ≤ x.length ∧ commonPrefixLength x y ≤ y.length ∧
      x.take (commonPrefixLength x y) = y.take (commonPrefixLength x y) := by
  induction x generalizing y with
  | nil => simp [commonPrefixLength]
  | cons a x ih =>
    cases y with
    | nil => simp [commonPrefixLength]
    | cons b y =>
      by_cases h : a = b
      · obtain ⟨h1, h2, h3⟩ := ih y
        subst h
        simpa [commonPrefixLength, h3] using ⟨h1, h2⟩
      · simp [commonPrefixLength, h]

/-- The common prefix is the longest one: what follows it differs in its first byte (R15). -/
theorem commonPrefixLength_next (x y : Phrase) {a b : Byte} {xs ys : Phrase}
    (hx : x.drop (commonPrefixLength x y) = a :: xs) (hy : y.drop (commonPrefixLength x y) = b :: ys) : a ≠ b := by
  induction x generalizing y with
  | nil => simp [commonPrefixLength] at hx
  | cons c x ih =>
    cases y with
    | nil => simp [commonPrefixLength] at hy
    | cons d y =>
      by_cases h : c = d
      · simp only [commonPrefixLength, h, if_true, List.drop_succ_cons] at hx hy
        exact ih y hx hy
      · simp only [commonPrefixLength, h, if_false, List.drop_zero] at hx hy
        injection hx with h1 _
        injection hy with h2 _
        exact fun he => h (h1.trans (he.trans h2.symm))

/-! ### The trie of TRIE.INIT (R121) -/

/-- The trie that holds the single-byte phrases `0 .. k-1`: the root with `k` edges, edge `[i]` leading to slot `i + 1`,
which is terminal with code `i` and has no edges (R121). -/
def alphabetTrie (k : Nat) : Trie :=
  { nodes := { code := none, kids := (List.range k).map fun i => ⟨BitVec.ofNat 8 i, [], i + 1⟩ } ::
      (List.range k).map fun i => { code := some (BitVec.ofNat 32 i), kids := [] }
    size := k }

theorem nodeAt_alphabetTrie_root (k : Nat) : nodeAt (alphabetTrie k) 0 =
    { code := none, kids := (List.range k).map fun i => ⟨BitVec.ofNat 8 i, [], i + 1⟩ } := rfl

theorem nodeAt_alphabetTrie_leaf {k i : Nat} (h : i < k) :
    nodeAt (alphabetTrie k) (i + 1) = { code := some (BitVec.ofNat 32 i), kids := [] } := by
  simp [nodeAt, alphabetTrie, h]

@[simp] theorem trAlloc_alphabetTrie (k : Nat) : trAlloc (alphabetTrie k) = k + 1 := by
  simp [trAlloc, alphabetTrie]

/-- The next byte's edge goes behind all the edges there are. -/
theorem putEdge_alphabet {k n : Nat} (hk : k < 256) (hn : n ≤ k) :
    putEdge ⟨BitVec.ofNat 8 k, [], k + 1⟩ ((List.range' n (k - n)).map fun i => ⟨BitVec.ofNat 8 i, [], i + 1⟩)
      = (List.range' n (k + 1 - n)).map fun i => ⟨BitVec.ofNat 8 i, [], i + 1⟩ := by
  obtain ⟨d, rfl⟩ : ∃ d, k = n + d := ⟨k - n, by omega⟩
  clear hn
  induction d generalizing n with
  | zero => simp [putEdge]
  | succ d ih =>
    have h1 : n + (d + 1) - n = d + 1 := by omega
    have h2 : n + (d + 1) + 1 - n = (d + 1) + 1 := by omega
    rw [h1, h2, List.range'_succ, List.range'_succ (n := d + 1)]
    simp only [List.map_cons, putEdge, BitVec.toNat_ofNat]
    have e1 : (n + (d + 1)) % 2 ^ 8 = n + (d + 1) := Nat.mod_eq_of_lt (by omega)
    have e2 : n % 2 ^ 8 = n := Nat.mod_eq_of_lt (by omega)
    have hne : ¬ BitVec.ofNat 8 (n + (d + 1)) = BitVec.ofNat 8 n := by
      intro h
      have := congrArg BitVec.toNat h
      simp only [BitVec.toNat_ofNat, e1, e2] at this
      omega
    rw [e1, e2]
    simp only [show ¬ n + (d + 1) < n by omega, if_false, hne]
    have := ih (n := n + 1) (by omega)
    have h3 : n + 1 + d - (n + 1) = d := by omega
    have h4 : n + 1 + d + 1 - (n + 1) = d + 1 := by omega
    rw [h3, h4] at this
    have h5 : n + (d + 1) = n + 1 + d := by omega
    rw [h5, this]

/-- One insertion of TRIE.INIT's loop (R121): `[k] -> k` into the trie of the bytes below `k`. -/
theorem trieInsert_alphabet {k limit : Nat} (hk : k < 256) (hl : k + 2 ≤ limit) :
    trieInsert limit [BitVec.ofNat 8 k] (BitVec.ofNat 32 k) (alphabetTrie k) = .ok (alphabetTrie (k + 1)) := by
  have hnone : edgeFrom (BitVec.ofNat 8 k) (nodeAt (alphabetTrie k) 0).kids = none := by
    rw [nodeAt_alphabetTrie_root, edgeFrom, List.find?_eq_none]
    intro e he
    obtain ⟨i, hi, rfl⟩ := List.mem_map.1 he
    have hi : i < k := List.mem_range.1 hi
    simp only [decide_eq_true_eq]
    intro h
    have := congrArg BitVec.toNat h
    simp only [BitVec.toNat_ofNat] at this
    rw [Nat.mod_eq_of_lt (by omega), Nat.mod_eq_of_lt (by omega)] at this
    omega
  have hput := putEdge_alphabet (n := 0) hk (Nat.zero_le k)
  simp only [Nat.sub_zero, ← List.range_eq_range'] at hput
  have hroom : hasRoom limit 1 (alphabetTrie k) = true := by simp [hasRoom]; omega
  simp only [trieInsert, List.length_singleton, trieInsertFrom, hnone, trieAttach, hroom, if_true]
  congr 1
  have halloc : trAlloc (alphabetTrie k) = k + 1 := trAlloc_alphabetTrie k
  simp only [countInsert, attachTerminal, linkLabel, putLabel, halloc, setNode, allocNode, nodeAt]
  simp only [alphabetTrie, List.cons_append, List.getD_cons_zero, List.set_cons_zero, hput]
  simp only [List.range_succ, List.map_append, List.map_cons, List.map_nil]

/-- TRIE.INIT's loop builds the trie of the alphabet (R121). -/
theorem trieInit_fold {limit k : Nat} (hk : k ≤ 256) (hl : 257 ≤ limit) :
    (List.range k).foldl
      (fun t i =>
        match trieInsert limit [BitVec.ofNat 8 i] (BitVec.ofNat 32 i) t with
        | .ok t' => t'
        | .error _ => t)
      Trie.cleared = alphabetTrie k := by
  induction k with
  | zero => rfl
  | succ k ih =>
    rw [List.range_succ, List.foldl_append, ih (by omega)]
    simp only [List.foldl_cons, List.foldl_nil]
    rw [trieInsert_alphabet (by omega) (by omega)]

/-- TRIE.INIT's result (R121). -/
theorem trieInit_eq {limit : Nat} (hl : 257 ≤ limit) : trieInit limit = alphabetTrie 256 :=
  trieInit_fold (le_refl _) hl

/-- Searching the trie of the alphabet (R121): the single bytes below `k`, and nothing else. -/
theorem trieSearch_alphabet {k : Nat} (hk : k ≤ 256) (p : Phrase) :
    trieSearch (alphabetTrie k) p =
      match p with
      | [b] => if b.toNat < k then some (b.setWidth 32) else none
      | _ => none := by
  have hfind : ∀ (b : Byte) (ks : Phrase),
      (nodeAt (alphabetTrie k) 0).kids.find? (fun e => e.label.isPrefixOf (b :: ks))
        = if b.toNat < k then some ⟨b, [], b.toNat + 1⟩ else none := by
    intro b ks
    rw [nodeAt_alphabetTrie_root]
    have hlt : b.toNat < 256 := b.isLt
    by_cases hb : b.toNat < k
    · simp only [hb, if_true]
      rw [List.find?_eq_some_iff_append]
      refine ⟨by simp [Edge.label, List.isPrefixOf], (List.range b.toNat).map fun i => ⟨BitVec.ofNat 8 i, [], i + 1⟩,
        (List.range' (b.toNat + 1) (k - (b.toNat + 1))).map fun i => ⟨BitVec.ofNat 8 i, [], i + 1⟩, ?_, ?_⟩
      · have hr : List.range k = List.range b.toNat ++ b.toNat :: List.range' (b.toNat + 1) (k - (b.toNat + 1)) := by
          rw [List.range_eq_range', List.range_eq_range', ← List.range'_succ]
          have h1 : k - (b.toNat + 1) + 1 = k - b.toNat := by omega
          have h2 := @List.range'_append_1 0 b.toNat (k - b.toNat)
          rw [h1]
          simp only [Nat.zero_add] at h2
          rw [h2]
          congr 1
          omega
        rw [hr]
        simp
      · intro e he
        obtain ⟨i, hi, rfl⟩ := List.mem_map.1 he
        have hi : i < b.toNat := List.mem_range.1 hi
        have : ¬ BitVec.ofNat 8 i = b := by
          intro h
          have := congrArg BitVec.toNat h
          rw [BitVec.toNat_ofNat, Nat.mod_eq_of_lt (by omega)] at this
          omega
        simp [Edge.label, List.isPrefixOf, this]
    · simp only [hb, if_false]
      rw [List.find?_eq_none]
      intro e he
      obtain ⟨i, hi, rfl⟩ := List.mem_map.1 he
      have hi : i < k := List.mem_range.1 hi
      have : ¬ BitVec.ofNat 8 i = b := by
        intro h
        have := congrArg BitVec.toNat h
        rw [BitVec.toNat_ofNat, Nat.mod_eq_of_lt (by omega)] at this
        omega
      simp [Edge.label, List.isPrefixOf, this]
  have hcode : ∀ b : Byte, b.toNat < k → (nodeAt (alphabetTrie k) (b.toNat + 1)) = ⟨some (b.setWidth 32), []⟩ := by
    intro b hb
    rw [nodeAt_alphabetTrie_leaf hb]
    have : BitVec.ofNat 32 b.toNat = b.setWidth 32 := by
      apply BitVec.eq_of_toNat_eq
      simp
    rw [this]
  rcases p with _ | ⟨b, _ | ⟨c, p⟩⟩
  · rfl
  · simp only [trieSearch, List.length_singleton, trieSearchFrom, hfind]
    by_cases hb : b.toNat < k
    · simp [hb, Edge.label, trieSearchFrom, hcode b hb]
    · simp [hb]
  · simp only [trieSearch, List.length_cons, trieSearchFrom, hfind]
    by_cases hb : b.toNat < k
    · simp [hb, Edge.label, trieSearchFrom, hcode b hb]
    · simp [hb]

end Sys2Proof.Machine
end

