-- ==== Sys2Proof/Laws/TrieDict.lean ====
section
/-! SUPPORT. What a trie means: paths, the dictionary it denotes, and the search as that dictionary (R32, R33, R126). -/

namespace Sys2Proof.Machine

/-- `q` is stored with code `c`: its path leads to a terminal slot with that code (R33). -/
def Stored (t : Trie) (q : Phrase) (c : Code) : Prop := ∃ j, TriePath t j q ∧ (nodeAt t j).code = some c

/-! ### Edges and slots of a trie in its form (R32) -/

theorem lt_trAlloc_of_code {t : Trie} {i : Nat} {c : Code} (h : (nodeAt t i).code = some c) : i < trAlloc t := by
  by_contra hn
  rw [nodeAt_of_ge (by omega)] at h
  cases h

theorem lt_trAlloc_of_edge {t : Trie} {i : Nat} {e : Edge} (h : e ∈ (nodeAt t i).kids) : i < trAlloc t := by
  by_contra hn
  rw [nodeAt_of_ge (by omega)] at h
  cases h

theorem child_mem_childSlots {t : Trie} {i : Nat} {e : Edge} (h : e ∈ (nodeAt t i).kids) : e.child ∈ childSlots t :=
  List.mem_flatMap.2 ⟨_, nodeAt_mem (lt_trAlloc_of_edge h), List.mem_map_of_mem h⟩

/-- An edge leads to a slot in use, never to the root (R32 (I2)). -/
theorem TrieInv.child_range {t : Trie} (h : TrieInv t) {i : Nat} {e : Edge} (he : e ∈ (nodeAt t i).kids) :
    0 < e.child ∧ e.child < trAlloc t := by
  have := h.oneParent.mem_iff.1 (child_mem_childSlots he)
  have hr := h.hasRoot
  rw [List.mem_range'_1] at this
  omega

/-- A slot is the child of one edge of one slot (R32 (I2)). -/
theorem TrieInv.parent_unique {t : Trie} (h : TrieInv t) {i i' : Nat} {e e' : Edge}
    (he : e ∈ (nodeAt t i).kids) (he' : e' ∈ (nodeAt t i').kids) (hc : e.child = e'.child) : i = i' ∧ e = e' := by
  have hn : (childSlots t).Nodup := h.oneParent.nodup_iff.2 List.nodup_range'
  obtain ⟨h1, h2⟩ := List.nodup_flatMap.1 hn
  have hi := lt_trAlloc_of_edge he
  have hi' := lt_trAlloc_of_edge he'
  have hget : ∀ k, (hk : k < trAlloc t) → nodeAt t k = t.nodes[k]'hk := by
    intro k hk
    simp [nodeAt, List.getD_eq_getElem?_getD, List.getElem?_eq_getElem hk]
  have hd : ∀ a b, (ha : a < trAlloc t) → (hb : b < trAlloc t) → a < b →
      ∀ x ∈ (nodeAt t a).kids, ∀ y ∈ (nodeAt t b).kids, x.child ≠ y.child := by
    intro a b ha hb hab x hx y hy hxy
    have := List.pairwise_iff_getElem.1 h2 a b ha hb hab
    rw [hget a ha] at hx
    rw [hget b hb] at hy
    exact this (List.mem_map_of_mem hx) (hxy ▸ List.mem_map_of_mem hy)
  have hii : i = i' := by
    rcases Nat.lt_trichotomy i i' with hlt | heq | hlt
    · exact absurd hc (hd i i' hi hi' hlt e he e' he')
    · exact heq
    · exact absurd hc.symm (hd i' i hi' hi hlt e' he' e he)
  subst hii
  exact ⟨rfl, List.inj_on_of_nodup_map (h1 _ (nodeAt_mem hi)) he he' hc⟩

/-- A slot has one path (R33). -/
theorem TrieInv.path_unique {t : Trie} (h : TrieInv t) {i : Nat} {p q : Phrase} (hp : TriePath t i p)
    (hq : TriePath t i q) : p = q := by
  induction hp generalizing q with
  | root =>
    generalize h0 : (0 : Nat) = z at hq
    cases hq with
    | root => rfl
    | edge hq' he => have := h.child_range he; omega
  | edge hp' he ih =>
    rename_i i p e
    generalize hz : e.child = z at hq
    cases hq with
    | root => have := h.child_range he; omega
    | edge hq' he' =>
      obtain ⟨rfl, rfl⟩ := h.parent_unique he he' hz
      rw [ih hq']

theorem TrieInv.path_lt {t : Trie} (h : TrieInv t) {i : Nat} {p : Phrase} (hp : TriePath t i p) : i < trAlloc t := by
  cases hp with
  | root => exact h.hasRoot
  | edge _ he => exact (h.child_range he).2

/-- The denoted dictionary is what is stored (R33). -/
theorem TrieInv.denotes_iff {t : Trie} (h : TrieInv t) {p : Phrase} {c : Code} : Denotes t p c ↔ Stored t p c := by
  constructor
  · rintro ⟨i, _, _, hp, hc⟩
    exact ⟨i, hp, hc⟩
  · rintro ⟨i, hp, hc⟩
    refine ⟨i, ?_, lt_trAlloc_of_code hc, hp, hc⟩
    rcases Nat.eq_zero_or_pos i with rfl | hi
    · rw [h.rootPlain] at hc; cases hc
    · exact hi

/-! ### The search (R126) -/

theorem isPrefixOf_iff {x y : Phrase} : x.isPrefixOf y = true ↔ ∃ z, y = x ++ z := by
  rw [List.isPrefixOf_iff_prefix]
  exact ⟨fun ⟨z, hz⟩ => ⟨z, hz.symm⟩, fun ⟨z, hz⟩ => ⟨z, hz.symm⟩⟩

/-- Passes beyond the key's length change nothing. -/
theorem trieSearchFrom_fuel {t : Trie} (n m cur : Nat) (key : Phrase) (hn : key.length ≤ n) (hm : key.length ≤ m) :
    trieSearchFrom t n cur key = trieSearchFrom t m cur key := by
  induction n generalizing m cur key with
  | zero =>
    cases key with
    | nil => simp [trieSearchFrom]
    | cons b ks => simp at hn
  | succ n ih =>
    cases key with
    | nil => simp [trieSearchFrom]
    | cons b ks =>
      cases m with
      | zero => simp at hm
      | succ m =>
        simp only [trieSearchFrom]
        split
        · rfl
        · simp only [List.length_cons] at hn hm
          exact ih _ _ _ (by simp [Edge.label]; omega) (by simp [Edge.label]; omega)

/-- Search follows an edge whose label starts the key. -/
theorem trieSearchFrom_edge {t : Trie} {i : Nat} {e : Edge} (hs : KidsSorted (nodeAt t i).kids)
    (he : e ∈ (nodeAt t i).kids) (key : Phrase) (n : Nat) (hn : (e.label ++ key).length ≤ n) :
    trieSearchFrom t n i (e.label ++ key) = trieSearchFrom t key.length e.child key := by
  cases n with
  | zero => simp [Edge.label] at hn
  | succ n =>
    have hf : (nodeAt t i).kids.find? (fun x => x.label.isPrefixOf (e.first :: (e.rest ++ key))) = some e := by
      rw [searchEdge_eq hs, (edgeFrom_eq_some hs).2 ⟨he, rfl⟩]
      have : e.rest.isPrefixOf (e.rest ++ key) = true := isPrefixOf_iff.2 ⟨key, rfl⟩
      simp [Option.filter]
    simp only [Edge.label, List.cons_append, trieSearchFrom] at hn ⊢
    simp only [Edge.label] at hf
    rw [hf]
    simp only [List.length_cons, List.drop_succ_cons, List.drop_left]
    exact trieSearchFrom_fuel _ _ _ _ (by simp at hn; omega) (le_refl _)

/-- Search from the root walks a path. -/
theorem trieSearchFrom_path {t : Trie} (hs : ∀ n ∈ t.nodes, KidsSorted n.kids) {i : Nat} {p : Phrase}
    (hp : TriePath t i p) (key : Phrase) :
    trieSearchFrom t (p ++ key).length 0 (p ++ key) = trieSearchFrom t key.length i key := by
  induction hp generalizing key with
  | root => rfl
  | edge hp' he ih =>
    rename_i i p e
    rw [List.append_assoc, ih (e.label ++ key)]
    exact trieSearchFrom_edge (nodeAt_sorted hs i) he key _ (le_refl _)

/-- What a search finds is stored. -/
theorem stored_of_searchFrom {t : Trie} {n cur : Nat} {key q : Phrase} {c : Code} (hq : TriePath t cur q)
    (h : trieSearchFrom t n cur key = some c) : Stored t (q ++ key) c := by
  induction n generalizing cur key q with
  | zero =>
    cases key with
    | nil => exact ⟨cur, by simpa using hq, by simpa [trieSearchFrom] using h⟩
    | cons b ks => simp [trieSearchFrom] at h
  | succ n ih =>
    cases key with
    | nil => exact ⟨cur, by simpa using hq, by simpa [trieSearchFrom] using h⟩
    | cons b ks =>
      simp only [trieSearchFrom] at h
      split at h
      · cases h
      · rename_i e he
        have hpre : e.label.isPrefixOf (b :: ks) = true := by simpa using List.find?_some he
        obtain ⟨z, hz⟩ := isPrefixOf_iff.1 hpre
        have hm := List.mem_of_find?_eq_some he
        rw [hz, List.drop_left] at h
        have := ih (TriePath.edge hq hm) h
        rwa [List.append_assoc, ← hz] at this

/-- The search is the dictionary (R33, R126), for a trie whose edges stand in order. -/
theorem trieSearch_eq_some {t : Trie} (hs : ∀ n ∈ t.nodes, KidsSorted n.kids) {q : Phrase} {c : Code} :
    trieSearch t q = some c ↔ Stored t q c := by
  constructor
  · intro h
    simpa using stored_of_searchFrom (q := []) TriePath.root h
  · rintro ⟨j, hj, hc⟩
    have := trieSearchFrom_path hs hj []
    simpa [trieSearch, trieSearchFrom, hc] using this

/-- A string walked to a slot finds that slot's code. -/
theorem trieSearch_path {t : Trie} (hs : ∀ n ∈ t.nodes, KidsSorted n.kids) {i : Nat} {p : Phrase}
    (hp : TriePath t i p) : trieSearch t p = (nodeAt t i).code := by
  have := trieSearchFrom_path hs hp []
  simpa [trieSearch, trieSearchFrom] using this

end Sys2Proof.Machine
end

