-- ==== Sys2Proof/Laws/TrieInsert.lean ====
section
/-! SUPPORT. The insertion: what each of its cases does to the trie's form and to the dictionary it denotes (R122 to R125). -/

namespace Sys2Proof.Machine

/-! ### Putting an edge -/

/-- A put under a new first byte adds the edge. -/
theorem putEdge_perm_new {e : Edge} {l : List Edge} (h : edgeFrom e.first l = none) : (putEdge e l).Perm (e :: l) := by
  induction l with
  | nil => exact List.Perm.refl _
  | cons x xs ih =>
    have hx : ¬ x.first = e.first := by simpa using List.find?_eq_none.1 h x (List.mem_cons_self ..)
    have hxs : edgeFrom e.first xs = none :=
      List.find?_eq_none.2 fun y hy => List.find?_eq_none.1 h y (List.mem_cons_of_mem _ hy)
    simp only [putEdge]
    split
    · exact List.Perm.refl _
    · split
      · rename_i he
        exact absurd he.symm hx
      · exact ((ih hxs).cons x).trans (List.Perm.swap e x xs)

/-- A put under a first byte that is there replaces the edge. -/
theorem putEdge_perm_old {e x : Edge} {l : List Edge} (hs : KidsSorted l) (h : edgeFrom e.first l = some x) :
    (x :: putEdge e l).Perm (e :: l) := by
  induction l with
  | nil => cases h
  | cons y ys ih =>
    obtain ⟨hy, hys⟩ := List.pairwise_cons.1 hs
    obtain ⟨hm, hf⟩ := (edgeFrom_eq_some hs).1 h
    have hxy : x = y ∨ x ∈ ys := List.mem_cons.1 hm
    simp only [putEdge]
    split
    · rename_i hlt
      rcases hxy with rfl | hx
      · rw [hf] at hlt; omega
      · have := hy x hx; rw [hf] at this; omega
    · split
      · rename_i he
        obtain rfl := edge_unique hs hm (List.mem_cons_self ..) (hf.trans he)
        exact List.Perm.swap e x ys
      · rename_i he
        have hx : x ∈ ys := hxy.resolve_left fun hh => he (hh ▸ hf.symm)
        refine (List.Perm.swap y x _).trans ?_
        exact ((ih hys ((edgeFrom_eq_some hys).2 ⟨hx, hf⟩)).cons y).trans (List.Perm.swap e y ys)

/-- The edges after a put under a new first byte. -/
theorem mem_putEdge_new {e y : Edge} {l : List Edge} (h : edgeFrom e.first l = none) :
    y ∈ putEdge e l ↔ y = e ∨ y ∈ l := by
  rw [(putEdge_perm_new h).mem_iff, List.mem_cons]

/-- The edges after a put in the place of `x`. -/
theorem mem_putEdge_old {e x y : Edge} {l : List Edge} (hs : KidsSorted l) (h : edgeFrom e.first l = some x) :
    y ∈ putEdge e l ↔ y = e ∨ (y ∈ l ∧ y ≠ x) := by
  obtain ⟨hm, hf⟩ := (edgeFrom_eq_some hs).1 h
  have hp := (putEdge_perm_old hs h).mem_iff (a := y)
  simp only [List.mem_cons] at hp
  have hn : (putEdge e l).Pairwise fun a b => a.first.toNat < b.first.toNat := putEdge_sorted hs
  have he : e ∈ putEdge e l := by
    have := (putEdge_perm_old hs h).mem_iff (a := e)
    simp only [List.mem_cons, true_or, iff_true] at this
    rcases this with rfl | this
    · have h2 : edgeFrom e.first (putEdge e l) = some e := by rw [edgeFrom_putEdge, if_pos rfl]
      exact List.mem_of_find?_eq_some h2
    · exact this
  by_cases hye : y = e
  · subst hye; simp [he]
  · by_cases hyx : y = x
    · subst hyx
      constructor
      · intro hy
        exact absurd (edge_unique hn hy he hf) hye
      · rintro (h' | ⟨_, h'⟩)
        · exact absurd h' hye
        · exact absurd rfl h'
    · simp only [hye, hyx, false_or] at hp
      simp only [hye, false_or]
      rw [hp]
      exact ⟨fun h => ⟨h, hyx⟩, And.left⟩

/-! ### Counting children and terminal slots -/

theorem count_flatMap_set {α : Type} (f : α → List Nat) (a : Nat) (n : α) (l : List α) (i : Nat) (hi : i < l.length) :
    List.count a ((l.set i n).flatMap f) + List.count a (f (l[i]'hi))
      = List.count a (l.flatMap f) + List.count a (f n) := by
  induction l generalizing i with
  | nil => simp at hi
  | cons x xs ih =>
    cases i with
    | zero => simp [List.flatMap_cons]; omega
    | succ i =>
      have := ih i (by simpa using hi)
      simp only [List.set_cons_succ, List.flatMap_cons, List.count_append, List.getElem_cons_succ]
      omega

theorem countP_set' {α : Type} (f : α → Bool) (n : α) (l : List α) (i : Nat) (hi : i < l.length) :
    List.countP f (l.set i n) + (if f (l[i]'hi) then 1 else 0) = List.countP f l + (if f n then 1 else 0) := by
  induction l generalizing i with
  | nil => simp at hi
  | cons x xs ih =>
    cases i with
    | zero => simp [List.countP_cons]; omega
    | succ i =>
      have := ih i (by simpa using hi)
      simp only [List.set_cons_succ, List.countP_cons, List.getElem_cons_succ]
      omega

theorem nodeAt_eq_getElem {t : Trie} {i : Nat} (h : i < trAlloc t) : nodeAt t i = t.nodes[i]'h := by
  simp [nodeAt, List.getD_eq_getElem?_getD, List.getElem?_eq_getElem (show i < t.nodes.length from h)]
  rfl

theorem getElem?_nodes (t : Trie) (i : Nat) :
    t.nodes[i]? = if i < trAlloc t then some (nodeAt t i) else none := by
  by_cases h : i < t.nodes.length
  · rw [if_pos (show i < trAlloc t from h), nodeAt_eq_getElem h, List.getElem?_eq_getElem h]
  · rw [if_neg (show ¬ i < trAlloc t from h), List.getElem?_eq_none (by omega)]

/-- Replacing a slot trades its children for the new node's. -/
theorem count_childSlots_setNode {t : Trie} {i : Nat} (h : i < trAlloc t) (n : Node) (a : Nat) :
    (childSlots (setNode i n t)).count a + ((nodeAt t i).kids.map Edge.child).count a
      = (childSlots t).count a + (n.kids.map Edge.child).count a := by
  rw [nodeAt_eq_getElem h]
  exact count_flatMap_set (fun n => n.kids.map Edge.child) a n t.nodes i h

theorem count_childSlots_allocNode (t : Trie) (n : Node) (a : Nat) :
    (childSlots (allocNode n t)).count a = (childSlots t).count a + (n.kids.map Edge.child).count a := by
  simp [childSlots, allocNode_nodes]

/-- Replacing a slot trades its terminal mark for the new node's. -/
theorem terminalCount_setNode {t : Trie} {i : Nat} (h : i < trAlloc t) (n : Node) :
    terminalCount (setNode i n t) + (if (nodeAt t i).code.isSome then 1 else 0)
      = terminalCount t + (if n.code.isSome then 1 else 0) := by
  rw [nodeAt_eq_getElem h]
  exact countP_set' (fun n => n.code.isSome) n t.nodes i h

theorem terminalCount_allocNode (t : Trie) (n : Node) :
    terminalCount (allocNode n t) = terminalCount t + (if n.code.isSome then 1 else 0) := by
  simp [terminalCount, allocNode_nodes, List.countP_cons]

@[simp] theorem childSlots_countInsert (t : Trie) : childSlots (countInsert t) = childSlots t := rfl
@[simp] theorem terminalCount_countInsert (t : Trie) : terminalCount (countInsert t) = terminalCount t := rfl

/-- Linking under a new first byte adds one child. -/
theorem count_childSlots_link_new {t : Trie} {cur : Nat} {b : Byte} {ks : Phrase} (h : cur < trAlloc t)
    (hn : edgeFrom b (nodeAt t cur).kids = none) (c a : Nat) :
    (childSlots (linkLabel cur (b :: ks) c t)).count a = (childSlots t).count a + [c].count a := by
  have h1 := count_childSlots_setNode h { nodeAt t cur with kids := putEdge ⟨b, ks, c⟩ (nodeAt t cur).kids } a
  have h2 := ((putEdge_perm_new (e := ⟨b, ks, c⟩) hn).map Edge.child).count_eq a
  have h3 : List.count a (c :: (nodeAt t cur).kids.map Edge.child)
      = List.count a ((nodeAt t cur).kids.map Edge.child) + List.count a [c] := by
    simp only [List.count_cons, List.count_nil]; omega
  simp only [List.map_cons] at h2
  simp only [linkLabel, putLabel]
  dsimp only at h1
  omega

/-- Linking the same child in an edge's place changes no child. -/
theorem count_childSlots_link_old {t : Trie} {cur : Nat} {b : Byte} {ks : Phrase} {e : Edge} (h : cur < trAlloc t)
    (hs : KidsSorted (nodeAt t cur).kids) (he : edgeFrom b (nodeAt t cur).kids = some e) (a : Nat) :
    (childSlots (linkLabel cur (b :: ks) e.child t)).count a = (childSlots t).count a := by
  have h1 := count_childSlots_setNode h { nodeAt t cur with kids := putEdge ⟨b, ks, e.child⟩ (nodeAt t cur).kids } a
  have h2 := ((putEdge_perm_old (e := ⟨b, ks, e.child⟩) hs he).map Edge.child).count_eq a
  simp only [List.map_cons, List.count_cons] at h2
  simp only [linkLabel, putLabel]
  dsimp only at h1
  omega

theorem terminalCount_linkLabel {t : Trie} {cur : Nat} (h : cur < trAlloc t) (label : Phrase) (c : Nat) :
    terminalCount (linkLabel cur label c t) = terminalCount t := by
  have := terminalCount_setNode h { nodeAt t cur with kids := putLabel label c (nodeAt t cur).kids }
  simp only [linkLabel]
  dsimp only at this
  omega

theorem nodeAt_linkLabel {t : Trie} {cur : Nat} (h : cur < trAlloc t) (label : Phrase) (c j : Nat) :
    nodeAt (linkLabel cur label c t) j =
      if j = cur then { nodeAt t cur with kids := putLabel label c (nodeAt t cur).kids } else nodeAt t j := by
  rw [linkLabel, nodeAt_setNode]
  by_cases hj : j = cur
  · simp [hj, h]
  · have : ¬ cur = j := fun hh => hj hh.symm
    simp [hj, this]

/-- The children of a trie in its form, counted (R32 (I2)). -/
theorem TrieInv.count_children {t : Trie} (h : TrieInv t) (a : Nat) :
    (childSlots t).count a = (List.range' 1 (trAlloc t - 1)).count a := h.oneParent.count_eq a

theorem count_range'_succ (n a : Nat) :
    (List.range' 1 (n + 1)).count a = (List.range' 1 n).count a + [n + 1].count a := by
  rw [List.range'_concat, List.count_append]
  simp [Nat.add_comm]

theorem sorted_of_nodeAt {t : Trie} (h : ∀ i, i < trAlloc t → KidsSorted (nodeAt t i).kids) :
    ∀ n ∈ t.nodes, KidsSorted n.kids := by
  intro n hn
  obtain ⟨i, hi, rfl⟩ := List.mem_iff_getElem.1 hn
  have := h i hi
  rwa [nodeAt_eq_getElem hi] at this

/-- What an insertion of `p` with code `v` comes to: the form is kept, one more phrase is counted, and what is stored
is what was and `p` (R122, R127). -/
structure Grown (t t' : Trie) (p : Phrase) (v : Code) : Prop where
  inv : TrieInv t'
  size : t'.size = t.size + 1
  stored : ∀ q c, Stored t' q c ↔ Stored t q c ∨ (q = p ∧ c = v)

/-- The search after an insertion (R122, R126). -/
theorem Grown.search {t t' : Trie} {p : Phrase} {v : Code} (hg : Grown t t' p v) (hi : TrieInv t)
    (hn : trieSearch t p = none) (q : Phrase) :
    trieSearch t' q = if q = p then some v else trieSearch t q := by
  apply Option.ext
  intro c
  rw [trieSearch_eq_some hg.inv.sorted, hg.stored]
  split
  · rename_i hq
    subst hq
    rw [← trieSearch_eq_some hi.sorted, hn]
    simp [eq_comm]
  · rename_i hq
    simp [hq, trieSearch_eq_some hi.sorted]

/-! ### Case ATTACH (R122) -/

section
variable {t : Trie} {cur : Nat} {q0 : Phrase} {b : Byte} {ks : Phrase} {v : Code}

theorem nodeAt_attach (hc : cur < trAlloc t) (j : Nat) :
    nodeAt (countInsert (attachTerminal cur (b :: ks) v t)) j =
      if j = cur then { nodeAt t cur with kids := putEdge ⟨b, ks, trAlloc t⟩ (nodeAt t cur).kids }
      else if j = trAlloc t then ⟨some v, []⟩ else nodeAt t j := by
  have h1 : cur < trAlloc (allocNode ⟨some v, []⟩ t) := by simp; omega
  have h2 : nodeAt (allocNode ⟨some v, []⟩ t) cur = nodeAt t cur := by
    rw [nodeAt_allocNode, if_neg (by omega)]
  rw [nodeAt_countInsert, attachTerminal, nodeAt_linkLabel h1, h2, nodeAt_allocNode]
  rfl

/-- The slots of the trie after ATTACH: those of before, and the new one at the key's end. -/
theorem triePath_attach (hi : TrieInv t) (hq : TriePath t cur q0) (hn : edgeFrom b (nodeAt t cur).kids = none)
    {j : Nat} {q : Phrase} :
    TriePath (countInsert (attachTerminal cur (b :: ks) v t)) j q ↔
      TriePath t j q ∨ (j = trAlloc t ∧ q = q0 ++ b :: ks) := by
  have hc := hi.path_lt hq
  have hnode := fun j => nodeAt_attach (v := v) (b := b) (ks := ks) hc j
  have mono : ∀ {j q}, TriePath t j q → TriePath (countInsert (attachTerminal cur (b :: ks) v t)) j q := by
    intro j q h
    induction h with
    | root => exact .root
    | edge hp he ih =>
      refine .edge ih ?_
      have hlt := lt_trAlloc_of_edge he
      rw [hnode]
      split
      · rename_i hj
        subst hj
        exact (mem_putEdge_new hn).2 (.inr he)
      · rw [if_neg (by omega)]
        exact he
  constructor
  · intro h
    induction h with
    | root => exact .inl .root
    | edge hp he ih =>
      rename_i i p e
      rw [hnode] at he
      rcases ih with ih | ⟨rfl, rfl⟩
      · have hlt := hi.path_lt ih
        split at he
        · rename_i hj
          subst hj
          rcases (mem_putEdge_new hn).1 he with rfl | he
          · exact .inr ⟨rfl, by rw [hi.path_unique ih hq]; rfl⟩
          · exact .inl (.edge ih he)
        · rw [if_neg (by omega)] at he
          exact .inl (.edge ih he)
      · rw [if_neg (by omega), if_pos rfl] at he
        cases he
  · rintro (h | ⟨rfl, rfl⟩)
    · exact mono h
    · refine TriePath.edge (e := ⟨b, ks, trAlloc t⟩) (mono hq) ?_
      rw [hnode, if_pos rfl]
      exact (mem_putEdge_new hn).2 (.inl rfl)

/-- ATTACH stores the phrase (R122). -/
theorem grown_attach (hi : TrieInv t) (hq : TriePath t cur q0) (hn : edgeFrom b (nodeAt t cur).kids = none) :
    Grown t (countInsert (attachTerminal cur (b :: ks) v t)) (q0 ++ b :: ks) v := by
  have hc := hi.path_lt hq
  have hnode := fun j => nodeAt_attach (v := v) (b := b) (ks := ks) hc j
  have hpath := fun {j q} => triePath_attach (v := v) (ks := ks) (j := j) (q := q) hi hq hn
  have h1 : cur < trAlloc (allocNode ⟨some v, []⟩ t) := by simp; omega
  have h2 : nodeAt (allocNode ⟨some v, []⟩ t) cur = nodeAt t cur := by
    rw [nodeAt_allocNode, if_neg (by omega)]
  have hcode : ∀ j, j < trAlloc t → (nodeAt (countInsert (attachTerminal cur (b :: ks) v t)) j).code = (nodeAt t j).code := by
    intro j hj
    rw [hnode]
    split
    · rename_i h; subst h; rfl
    · rw [if_neg (by omega)]
  have hnew : nodeAt (countInsert (attachTerminal cur (b :: ks) v t)) (trAlloc t) = ⟨some v, []⟩ := by
    rw [hnode, if_neg (by omega), if_pos rfl]
  refine ⟨⟨?_, ?_, ?_, ?_, ?_, ?_, ?_⟩, rfl, ?_⟩
  · simp
  · rw [hcode 0 hi.hasRoot]; exact hi.rootPlain
  · rw [List.perm_iff_count]
    intro a
    have e1 := count_childSlots_link_new (ks := ks) h1 (by rw [h2]; exact hn) (trAlloc t) a
    have e2 := count_childSlots_allocNode t ⟨some v, []⟩ a
    have e3 := hi.count_children a
    have hr := hi.hasRoot
    have e4 := count_range'_succ (trAlloc t - 1) a
    rw [show trAlloc t - 1 + 1 = trAlloc t by omega] at e4
    simp only [childSlots_countInsert, attachTerminal, trAlloc_countInsert, trAlloc_linkLabel, trAlloc_allocNode,
      Nat.add_sub_cancel]
    simp only [List.map_nil, List.count_nil] at e2
    omega
  · intro i h
    simp only [trAlloc_countInsert, trAlloc_attachTerminal] at h
    rcases Nat.lt_succ_iff_lt_or_eq.1 h with h | rfl
    · obtain ⟨p, hp⟩ := hi.reachable i h
      exact ⟨p, hpath.2 (.inl hp)⟩
    · exact ⟨_, hpath.2 (.inr ⟨rfl, rfl⟩)⟩
  · refine sorted_of_nodeAt fun i _ => ?_
    rw [hnode]
    split
    · exact putEdge_sorted (nodeAt_sorted hi.sorted cur)
    · split
      · simp [KidsSorted]
      · exact nodeAt_sorted hi.sorted i
  · intro i h0 h hcd
    simp only [trAlloc_countInsert, trAlloc_attachTerminal] at h
    rcases Nat.lt_succ_iff_lt_or_eq.1 h with h | rfl
    · rw [hcode i h] at hcd
      have hb := hi.branching i h0 h hcd
      rw [hnode]
      split
      · rename_i hj
        subst hj
        rw [(putEdge_perm_new hn).length_eq]
        simp only [List.length_cons]
        omega
      · rw [if_neg (by omega)]
        exact hb
    · rw [hnew] at hcd
      cases hcd
  · rw [terminalCount_countInsert, attachTerminal, terminalCount_linkLabel h1, terminalCount_allocNode, ← hi.counted]
    rfl
  · intro q c
    constructor
    · rintro ⟨j, hj, hcj⟩
      rcases hpath.1 hj with hj | ⟨rfl, rfl⟩
      · rw [hcode j (hi.path_lt hj)] at hcj
        exact .inl ⟨j, hj, hcj⟩
      · rw [hnew] at hcj
        exact .inr ⟨rfl, (Option.some.inj hcj).symm⟩
    · rintro (⟨j, hj, hcj⟩ | ⟨rfl, rfl⟩)
      · exact ⟨j, hpath.2 (.inl hj), by rw [hcode j (hi.path_lt hj)]; exact hcj⟩
      · exact ⟨_, hpath.2 (.inr ⟨rfl, rfl⟩), by rw [hnew]⟩

end

/-! ### Case MARK (R122, R125 (a)) -/

/-- MARK stores the phrase of the slot (R125 (a)). -/
theorem grown_mark {t : Trie} {i : Nat} {q0 : Phrase} {v : Code} (hi : TrieInv t) (hq : TriePath t i q0) (h0 : 0 < i)
    (hc : (nodeAt t i).code = none) :
    Grown t (countInsert (setNode i { nodeAt t i with code := some v } t)) q0 v := by
  have hlt := hi.path_lt hq
  have hnode : ∀ j, nodeAt (countInsert (setNode i { nodeAt t i with code := some v } t)) j
      = if j = i then { nodeAt t i with code := some v } else nodeAt t j := by
    intro j
    rw [nodeAt_countInsert, nodeAt_setNode]
    by_cases hj : j = i
    · simp [hj, hlt]
    · have : ¬ i = j := fun hh => hj hh.symm
      simp [hj, this]
  have hkids : ∀ j, (nodeAt (countInsert (setNode i { nodeAt t i with code := some v } t)) j).kids = (nodeAt t j).kids := by
    intro j
    rw [hnode]
    split
    · rename_i h; subst h; rfl
    · rfl
  have hpath : ∀ {j q}, TriePath (countInsert (setNode i { nodeAt t i with code := some v } t)) j q ↔ TriePath t j q := by
    intro j q
    constructor
    · intro h
      induction h with
      | root => exact .root
      | edge _ he ih => exact .edge ih (by rwa [hkids] at he)
    · intro h
      induction h with
      | root => exact .root
      | edge _ he ih => exact .edge ih (by rwa [hkids])
  refine ⟨⟨?_, ?_, ?_, ?_, ?_, ?_, ?_⟩, rfl, ?_⟩
  · simpa using hi.hasRoot
  · rw [hnode, if_neg (by omega)]; exact hi.rootPlain
  · rw [List.perm_iff_count]
    intro a
    have e1 := count_childSlots_setNode hlt { nodeAt t i with code := some v } a
    have e3 := hi.count_children a
    simp only [childSlots_countInsert, trAlloc_countInsert, trAlloc_setNode]
    dsimp only at e1
    omega
  · intro j hj
    obtain ⟨p, hp⟩ := hi.reachable j (by simpa using hj)
    exact ⟨p, hpath.2 hp⟩
  · exact sorted_of_nodeAt fun j _ => by rw [hkids]; exact nodeAt_sorted hi.sorted j
  · intro j h0 hj hcj
    rw [hkids]
    rw [hnode] at hcj
    split at hcj
    · cases hcj
    · exact hi.branching j h0 (by simpa using hj) hcj
  · have e1 := terminalCount_setNode hlt { nodeAt t i with code := some v }
    have e2 := hi.counted
    rw [hc] at e1
    simp only [terminalCount_countInsert]
    simp only [countInsert, setNode_size]
    simpa [e2] using e1.symm
  · intro q c
    constructor
    · rintro ⟨j, hj, hcj⟩
      have hj' := hpath.1 hj
      rw [hnode] at hcj
      split at hcj
      · rename_i h
        subst h
        exact .inr ⟨hi.path_unique hj' hq, (Option.some.inj hcj).symm⟩
      · exact .inl ⟨j, hj', hcj⟩
    · rintro (⟨j, hj, hcj⟩ | ⟨rfl, rfl⟩)
      · refine ⟨j, hpath.2 hj, ?_⟩
        rw [hnode, if_neg]
        · exact hcj
        · rintro rfl
          rw [hc] at hcj
          cases hcj
      · exact ⟨i, hpath.2 hq, by rw [hnode, if_pos rfl]⟩

/-! ### Case SPLIT (R122, R123, R125 (b)) -/

/-- The trie SPLIT leaves (R122): the label of `e` cut after `r + 1` bytes, `d :: ds` the part cut off, `rest` what is
left of the key. -/
def splitTrie (v : Code) (cur : Nat) (e : Edge) (r : Nat) (d : Byte) (ds rest : Phrase) (t : Trie) : Trie :=
  let t3 := linkLabel cur (e.first :: e.rest.take r) e.child
    (setNode e.child ⟨none, [⟨d, ds, trAlloc t⟩]⟩ (allocNode (nodeAt t e.child) t))
  countInsert
    (match rest with
      | [] => setNode e.child ⟨some v, [⟨d, ds, trAlloc t⟩]⟩ t3
      | k :: ks => attachTerminal e.child (k :: ks) v t3)

section
variable {t : Trie} {cur : Nat} {q0 : Phrase} {e : Edge} {r : Nat} {d : Byte} {ds rest : Phrase} {v : Code}

/-- The intermediate node of a SPLIT (R122, R125 (b)). -/
def splitNode (v : Code) (y : Nat) (d : Byte) (ds : Phrase) : Phrase → Node
  | [] => ⟨some v, [⟨d, ds, y⟩]⟩
  | k :: ks => ⟨none, putEdge ⟨k, ks, y + 1⟩ [⟨d, ds, y⟩]⟩

/-- The slots of the trie after SPLIT (R123). -/
theorem nodeAt_split (hcur : cur < trAlloc t) (hch : e.child < trAlloc t) (hne : cur ≠ e.child) (j : Nat) :
    nodeAt (splitTrie v cur e r d ds rest t) j =
      if j = cur then { nodeAt t cur with kids := putEdge ⟨e.first, e.rest.take r, e.child⟩ (nodeAt t cur).kids }
      else if j = e.child then splitNode v (trAlloc t) d ds rest
      else if j = trAlloc t then nodeAt t e.child
      else if j = trAlloc t + 1 ∧ rest ≠ [] then ⟨some v, []⟩
      else nodeAt t j := by
  have l1 : trAlloc (allocNode (nodeAt t e.child) t) = trAlloc t + 1 := by simp
  have n2 : ∀ j, nodeAt (setNode e.child ⟨none, [⟨d, ds, trAlloc t⟩]⟩ (allocNode (nodeAt t e.child) t)) j
      = if j = e.child then ⟨none, [⟨d, ds, trAlloc t⟩]⟩ else if j = trAlloc t then nodeAt t e.child else nodeAt t j := by
    intro j
    rw [nodeAt_setNode, nodeAt_allocNode, l1]
    by_cases hj : j = e.child
    · simp only [hj, true_and, if_true]; rw [if_pos (by omega)]
    · rw [if_neg (by omega), if_neg hj]
  have n3 : ∀ j, nodeAt (linkLabel cur (e.first :: e.rest.take r) e.child
      (setNode e.child ⟨none, [⟨d, ds, trAlloc t⟩]⟩ (allocNode (nodeAt t e.child) t))) j
      = if j = cur then { nodeAt t cur with kids := putEdge ⟨e.first, e.rest.take r, e.child⟩ (nodeAt t cur).kids }
        else if j = e.child then ⟨none, [⟨d, ds, trAlloc t⟩]⟩ else if j = trAlloc t then nodeAt t e.child
        else nodeAt t j := by
    intro j
    rw [nodeAt_linkLabel (by simp; omega), n2, n2, if_neg hne, if_neg (show ¬ cur = trAlloc t by omega)]
    rfl
  have l3 : trAlloc (linkLabel cur (e.first :: e.rest.take r) e.child
      (setNode e.child ⟨none, [⟨d, ds, trAlloc t⟩]⟩ (allocNode (nodeAt t e.child) t))) = trAlloc t + 1 := by simp
  cases rest with
  | nil =>
    simp only [splitTrie, nodeAt_countInsert, nodeAt_setNode, l3, n3, splitNode]
    by_cases hj : j = cur
    · rw [if_neg (by omega)]; simp [hj]
    · by_cases hj2 : j = e.child
      · rw [if_pos (by omega)]; simp [hj2, Ne.symm hne]
      · rw [if_neg (by omega)]; simp [hj, hj2]
  | cons k ks =>
    simp only [splitTrie, nodeAt_countInsert, attachTerminal, l3]
    rw [nodeAt_linkLabel (by simp; omega), nodeAt_allocNode, nodeAt_allocNode, l3, n3, n3]
    by_cases hj : j = cur
    · have h1 : ¬ cur = e.child := hne
      have h2 : ¬ cur = trAlloc t + 1 := by omega
      simp [hj, h1, h2]
    · by_cases hj2 : j = e.child
      · have h1 : ¬ e.child = cur := by omega
        have h2 : ¬ e.child = trAlloc t + 1 := by omega
        simp [hj2, h1, h2, splitNode, putLabel]
      · by_cases hj3 : j = trAlloc t
        · have : ¬ trAlloc t = e.child := by omega
          have : ¬ trAlloc t = cur := by omega
          simp [*]
        · by_cases hj4 : j = trAlloc t + 1
          · have h1 : ¬ trAlloc t + 1 = e.child := by omega
            have h2 : ¬ trAlloc t + 1 = cur := by omega
            simp [hj4, h1, h2]
          · simp [*]

theorem trAlloc_split : trAlloc (splitTrie v cur e r d ds rest t) = trAlloc t + (if rest = [] then 1 else 2) := by
  cases rest <;> simp [splitTrie]

/-- An edge never leads back to the slot it leaves. -/
theorem TrieInv.child_ne {t : Trie} {cur : Nat} {q0 : Phrase} {e : Edge} (hi : TrieInv t) (hq : TriePath t cur q0)
    (he : e ∈ (nodeAt t cur).kids) : cur ≠ e.child := by
  intro h
  have := hi.path_unique (h ▸ hq) (TriePath.edge hq he)
  have := congrArg List.length this
  simp [Edge.label] at this

/-- The edges of the intermediate node. -/
theorem mem_splitNode {y : Nat} (hd : ∀ k ks, rest = k :: ks → d ≠ k) (x : Edge) :
    x ∈ (splitNode v y d ds rest).kids ↔ x = ⟨d, ds, y⟩ ∨ ∃ k ks, rest = k :: ks ∧ x = ⟨k, ks, y + 1⟩ := by
  cases rest with
  | nil => simp [splitNode]
  | cons k ks =>
    have hn : edgeFrom k [(⟨d, ds, y⟩ : Edge)] = none := by simp [edgeFrom, hd k ks rfl]
    simp only [splitNode]
    rw [mem_putEdge_new hn]
    simp [or_comm]

/-- The paths of the trie after SPLIT (R123): each slot's, with the displaced node at the fresh slot, the intermediate node
at the common part, and the new phrase's slot. -/
theorem triePath_split (hi : TrieInv t) (hq : TriePath t cur q0) (he : e ∈ (nodeAt t cur).kids)
    (hl : e.rest.drop r = d :: ds) (hd : ∀ k ks, rest = k :: ks → d ≠ k) {j : Nat} {q : Phrase} :
    TriePath (splitTrie v cur e r d ds rest t) j q ↔
      (j ≠ e.child ∧ TriePath t j q) ∨ (j = trAlloc t ∧ TriePath t e.child q) ∨
      (j = e.child ∧ q = q0 ++ e.first :: e.rest.take r) ∨
      (rest ≠ [] ∧ j = trAlloc t + 1 ∧ q = q0 ++ (e.first :: e.rest.take r ++ rest)) := by
  have hcur := hi.path_lt hq
  have hch := (hi.child_range he).2
  have hch0 := (hi.child_range he).1
  have hne := hi.child_ne hq he
  have hnode := fun j => nodeAt_split (v := v) (r := r) (d := d) (ds := ds) (rest := rest) hcur hch hne j
  have hlabel : e.first :: e.rest.take r ++ d :: ds = e.label := by
    simp only [Edge.label, List.cons_append, ← hl, List.take_append_drop]
  have hs := nodeAt_sorted hi.sorted cur
  have hfrom : edgeFrom e.first (nodeAt t cur).kids = some e := (edgeFrom_eq_some hs).2 ⟨he, rfl⟩
  have kcur : ∀ x, x ∈ (nodeAt (splitTrie v cur e r d ds rest t) cur).kids ↔
      x = ⟨e.first, e.rest.take r, e.child⟩ ∨ (x ∈ (nodeAt t cur).kids ∧ x ≠ e) := by
    intro x
    rw [hnode, if_pos rfl]
    exact mem_putEdge_old hs hfrom
  have kch : ∀ x, x ∈ (nodeAt (splitTrie v cur e r d ds rest t) e.child).kids ↔
      x = ⟨d, ds, trAlloc t⟩ ∨ ∃ k ks, rest = k :: ks ∧ x = ⟨k, ks, trAlloc t + 1⟩ := by
    intro x
    rw [hnode, if_neg (Ne.symm hne), if_pos rfl]
    exact mem_splitNode hd x
  have ky : nodeAt (splitTrie v cur e r d ds rest t) (trAlloc t) = nodeAt t e.child := by
    rw [hnode, if_neg (by omega), if_neg (by omega), if_pos rfl]
  have kold : ∀ i, i < trAlloc t → i ≠ cur → i ≠ e.child →
      nodeAt (splitTrie v cur e r d ds rest t) i = nodeAt t i := by
    intro i h1 h2 h3
    rw [hnode, if_neg h2, if_neg h3, if_neg (by omega), if_neg (by omega)]
  constructor
  · intro h
    induction h with
    | root => exact .inl ⟨by omega, .root⟩
    | edge hp hx ih =>
      rename_i i p x
      rcases ih with ⟨hic, hp'⟩ | ⟨rfl, hp'⟩ | ⟨rfl, rfl⟩ | ⟨hr, rfl, rfl⟩
      · have hlt := hi.path_lt hp'
        by_cases hcu : i = cur
        · subst hcu
          obtain rfl := hi.path_unique hp' hq
          rcases (kcur x).1 hx with rfl | ⟨hx, hxe⟩
          · exact .inr (.inr (.inl ⟨rfl, rfl⟩))
          · exact .inl ⟨fun hc => hxe (hi.parent_unique hx he hc).2, .edge hp' hx⟩
        · rw [kold i hlt hcu hic] at hx
          exact .inl ⟨fun hc => hcu (hi.parent_unique hx he hc).1, .edge hp' hx⟩
      · rw [ky] at hx
        exact .inl ⟨fun hc => hne (hi.parent_unique hx he hc).1.symm, .edge hp' hx⟩
      · rcases (kch x).1 hx with rfl | ⟨k, ks, hr, rfl⟩
        · refine .inr (.inl ⟨rfl, ?_⟩)
          have := TriePath.edge hq he
          rw [← hlabel] at this
          simpa [Edge.label, List.append_assoc] using this
        · refine .inr (.inr (.inr ⟨by simp [hr], rfl, ?_⟩))
          simp [Edge.label, hr]
      · rw [hnode, if_neg (by omega), if_neg (by omega), if_neg (by omega), if_pos ⟨rfl, hr⟩] at hx
        cases hx
  · have main : ∀ {j q}, TriePath t j q →
        TriePath (splitTrie v cur e r d ds rest t) (if j = e.child then trAlloc t else j) q := by
      intro j q h
      induction h with
      | root => rw [if_neg (by omega)]; exact .root
      | edge hp hx ih =>
        rename_i i p x
        by_cases hxe : i = cur ∧ x = e
        · obtain ⟨rfl, rfl⟩ := hxe
          rw [if_neg hne] at ih
          rw [if_pos rfl]
          have h1 := TriePath.edge ih ((kcur ⟨x.first, x.rest.take r, x.child⟩).2 (.inl rfl))
          have h2 := TriePath.edge h1 ((kch ⟨d, ds, trAlloc t⟩).2 (.inl rfl))
          rw [← hlabel]
          simpa [Edge.label, List.append_assoc] using h2
        · have hxc : x.child ≠ e.child := fun hc => hxe (hi.parent_unique hx he hc)
          rw [if_neg hxc]
          refine .edge ih ?_
          by_cases hic : i = e.child
          · subst hic
            rw [if_pos rfl, ky]
            exact hx
          · rw [if_neg hic]
            by_cases hcu : i = cur
            · subst hcu
              exact (kcur x).2 (.inr ⟨hx, fun h => hxe ⟨rfl, h⟩⟩)
            · rw [kold i (lt_trAlloc_of_edge hx) hcu hic]
              exact hx
    have mid : TriePath (splitTrie v cur e r d ds rest t) e.child (q0 ++ e.first :: e.rest.take r) := by
      have h := main hq
      rw [if_neg hne] at h
      exact TriePath.edge h ((kcur ⟨e.first, e.rest.take r, e.child⟩).2 (.inl rfl))
    rintro (⟨hj, h⟩ | ⟨rfl, h⟩ | ⟨rfl, rfl⟩ | ⟨hr, rfl, rfl⟩)
    · have := main h
      rwa [if_neg hj] at this
    · have := main h
      rwa [if_pos rfl] at this
    · exact mid
    · obtain ⟨k, ks, hk⟩ := List.exists_cons_of_ne_nil hr
      subst hk
      have := TriePath.edge mid ((kch ⟨k, ks, trAlloc t + 1⟩).2 (.inr ⟨k, ks, rfl, rfl⟩))
      simpa [Edge.label, List.append_assoc] using this

/-- SPLIT stores the phrase (R122, R125 (b)). -/
theorem grown_split (hi : TrieInv t) (hq : TriePath t cur q0) (he : e ∈ (nodeAt t cur).kids)
    (hl : e.rest.drop r = d :: ds) (hd : ∀ k ks, rest = k :: ks → d ≠ k) :
    Grown t (splitTrie v cur e r d ds rest t) (q0 ++ (e.first :: e.rest.take r ++ rest)) v := by
  have hcur := hi.path_lt hq
  have hch := (hi.child_range he).2
  have hch0 := (hi.child_range he).1
  have hne := hi.child_ne hq he
  have hnode := fun j => nodeAt_split (v := v) (r := r) (d := d) (ds := ds) (rest := rest) hcur hch hne j
  have hpath := fun {j q} => triePath_split (v := v) (j := j) (q := q) hi hq he hl hd
  have hs := nodeAt_sorted hi.sorted cur
  have hfrom : edgeFrom e.first (nodeAt t cur).kids = some e := (edgeFrom_eq_some hs).2 ⟨he, rfl⟩
  have cch : (nodeAt (splitTrie v cur e r d ds rest t) e.child).code = if rest = [] then some v else none := by
    rw [hnode, if_neg (Ne.symm hne), if_pos rfl]
    cases rest <;> simp [splitNode]
  have cy : (nodeAt (splitTrie v cur e r d ds rest t) (trAlloc t)) = nodeAt t e.child := by
    rw [hnode, if_neg (by omega), if_neg (by omega), if_pos rfl]
  have cold : ∀ i, i < trAlloc t → i ≠ e.child →
      (nodeAt (splitTrie v cur e r d ds rest t) i).code = (nodeAt t i).code := by
    intro i h1 h3
    rw [hnode]
    split
    · rename_i h; subst h; rfl
    · rw [if_neg (by omega), if_neg (by omega)]
  have cz : rest ≠ [] → (nodeAt (splitTrie v cur e r d ds rest t) (trAlloc t + 1)) = ⟨some v, []⟩ := by
    intro hr
    rw [hnode, if_neg (by omega), if_neg (by omega), if_neg (by omega), if_pos ⟨rfl, hr⟩]
  have hn2 : ∀ k ks, rest = k :: ks → edgeFrom k [(⟨d, ds, trAlloc t⟩ : Edge)] = none := by
    intro k ks hr
    simp [edgeFrom, hd k ks hr]
  -- the steps of the construction
  have l1 : trAlloc (allocNode (nodeAt t e.child) t) = trAlloc t + 1 := by simp
  have m1 : nodeAt (allocNode (nodeAt t e.child) t) e.child = nodeAt t e.child := by
    rw [nodeAt_allocNode, if_neg (by omega)]
  have m2 : nodeAt (setNode e.child ⟨none, [⟨d, ds, trAlloc t⟩]⟩ (allocNode (nodeAt t e.child) t)) cur = nodeAt t cur := by
    rw [nodeAt_setNode, if_neg (by simp [Ne.symm hne]), nodeAt_allocNode, if_neg (by omega)]
  have l2 : cur < trAlloc (setNode e.child ⟨none, [⟨d, ds, trAlloc t⟩]⟩ (allocNode (nodeAt t e.child) t)) := by
    simp; omega
  have m3 : nodeAt (linkLabel cur (e.first :: e.rest.take r) e.child
      (setNode e.child ⟨none, [⟨d, ds, trAlloc t⟩]⟩ (allocNode (nodeAt t e.child) t))) e.child
        = ⟨none, [⟨d, ds, trAlloc t⟩]⟩ := by
    rw [nodeAt_linkLabel l2, if_neg (Ne.symm hne), nodeAt_setNode, if_pos ⟨rfl, by simp; omega⟩]
  have l3 : e.child < trAlloc (linkLabel cur (e.first :: e.rest.take r) e.child
      (setNode e.child ⟨none, [⟨d, ds, trAlloc t⟩]⟩ (allocNode (nodeAt t e.child) t))) := by
    simp; omega
  refine ⟨⟨?_, ?_, ?_, ?_, ?_, ?_, ?_⟩, ?_, ?_⟩
  · rw [trAlloc_split]; split <;> omega
  · rw [cold 0 hi.hasRoot (by omega)]; exact hi.rootPlain
  · rw [List.perm_iff_count]
    intro a
    have e1 := count_childSlots_allocNode t (nodeAt t e.child) a
    have e2 := count_childSlots_setNode (t := allocNode (nodeAt t e.child) t) (i := e.child) (by omega) ⟨none, [⟨d, ds, trAlloc t⟩]⟩ a
    rw [m1] at e2
    have e3 := count_childSlots_link_old (ks := e.rest.take r) l2 (by rw [m2]; exact hs) (by rw [m2]; exact hfrom) a
    have e5 := hi.count_children a
    have hr := hi.hasRoot
    have e6 := count_range'_succ (trAlloc t - 1) a
    rw [show trAlloc t - 1 + 1 = trAlloc t by omega] at e6
    have e7 := count_range'_succ (trAlloc t) a
    rw [trAlloc_split]
    cases rest with
    | nil =>
      have e4 := count_childSlots_setNode l3 ⟨some v, [⟨d, ds, trAlloc t⟩]⟩ a
      rw [m3] at e4
      simp only [splitTrie, childSlots_countInsert, if_true, Nat.add_sub_cancel]
      simp only [List.map_cons, List.map_nil] at e2 e4
      omega
    | cons k ks =>
      have l4 : e.child < trAlloc (allocNode ⟨some v, []⟩ (linkLabel cur (e.first :: e.rest.take r) e.child
          (setNode e.child ⟨none, [⟨d, ds, trAlloc t⟩]⟩ (allocNode (nodeAt t e.child) t)))) := by
        simp; omega
      have m4 : nodeAt (allocNode ⟨some v, []⟩ (linkLabel cur (e.first :: e.rest.take r) e.child
          (setNode e.child ⟨none, [⟨d, ds, trAlloc t⟩]⟩ (allocNode (nodeAt t e.child) t)))) e.child
            = ⟨none, [⟨d, ds, trAlloc t⟩]⟩ := by
        rw [nodeAt_allocNode, if_neg (by omega), m3]
      have e4 := count_childSlots_allocNode (linkLabel cur (e.first :: e.rest.take r) e.child
          (setNode e.child ⟨none, [⟨d, ds, trAlloc t⟩]⟩ (allocNode (nodeAt t e.child) t))) ⟨some v, []⟩ a
      have e8 := count_childSlots_link_new (ks := ks) l4 (by rw [m4]; exact hn2 k ks rfl) (trAlloc t + 1) a
      simp only [splitTrie, childSlots_countInsert, attachTerminal, trAlloc_linkLabel, trAlloc_setNode,
        trAlloc_allocNode, reduceCtorEq, if_false]
      simp only [List.map_cons, List.map_nil, List.count_nil] at e2 e4
      rw [show trAlloc t + 2 - 1 = trAlloc t + 1 by omega]
      omega
  · intro i h
    by_cases hic : i = e.child
    · exact ⟨_, hpath.2 (.inr (.inr (.inl ⟨hic, rfl⟩)))⟩
    · by_cases hlt : i < trAlloc t
      · obtain ⟨p, hp⟩ := hi.reachable i hlt
        exact ⟨p, hpath.2 (.inl ⟨hic, hp⟩)⟩
      · by_cases hy : i = trAlloc t
        · obtain ⟨p, hp⟩ := hi.reachable e.child hch
          exact ⟨p, hpath.2 (.inr (.inl ⟨hy, hp⟩))⟩
        · rw [trAlloc_split] at h
          by_cases hr : rest = []
          · rw [if_pos hr] at h; omega
          · rw [if_neg hr] at h
            exact ⟨_, hpath.2 (.inr (.inr (.inr ⟨hr, by omega, rfl⟩)))⟩
  · refine sorted_of_nodeAt fun i _ => ?_
    rw [hnode]
    split
    · exact putEdge_sorted hs
    · split
      · cases rest with
        | nil => simp [splitNode, KidsSorted]
        | cons k ks => exact putEdge_sorted (by simp [KidsSorted])
      · split
        · exact nodeAt_sorted hi.sorted _
        · split
          · simp [KidsSorted]
          · exact nodeAt_sorted hi.sorted i
  · intro i h0 h hcd
    rw [hnode] at hcd ⊢
    split
    · rename_i hic
      subst hic
      rw [if_pos rfl] at hcd
      have hb := hi.branching i h0 hcur hcd
      have := (putEdge_perm_old (e := ⟨e.first, e.rest.take r, e.child⟩) hs hfrom).length_eq
      simp only [List.length_cons] at this
      dsimp only
      omega
    · rename_i hic
      rw [if_neg hic] at hcd
      split
      · rename_i hie
        rw [if_pos hie] at hcd
        cases rest with
        | nil => cases hcd
        | cons k ks =>
          simp only [splitNode]
          rw [(putEdge_perm_new (hn2 k ks rfl)).length_eq]
          simp
      · rename_i hie
        rw [if_neg hie] at hcd
        split
        · rename_i hy
          rw [if_pos hy] at hcd
          exact hi.branching _ hch0 hch hcd
        · rename_i hy
          rw [if_neg hy] at hcd
          split
          · rename_i hz
            rw [if_pos hz] at hcd
            cases hcd
          · rename_i hz
            rw [if_neg hz] at hcd
            refine hi.branching i h0 ?_ hcd
            rw [trAlloc_split] at h
            by_cases hr : rest = []
            · rw [if_pos hr] at h; omega
            · rw [if_neg hr] at h
              have : i ≠ trAlloc t + 1 := fun h => hz ⟨h, hr⟩
              omega
  · have e0 := hi.counted
    have e1 := terminalCount_allocNode t (nodeAt t e.child)
    have e2 := terminalCount_setNode (t := allocNode (nodeAt t e.child) t) (i := e.child) (by omega) ⟨none, [⟨d, ds, trAlloc t⟩]⟩
    rw [m1] at e2
    have e3 := terminalCount_linkLabel l2 (e.first :: e.rest.take r) e.child
    cases rest with
    | nil =>
      have e4 := terminalCount_setNode l3 ⟨some v, [⟨d, ds, trAlloc t⟩]⟩
      rw [m3] at e4
      simp only [Option.isSome_none, Option.isSome_some, if_true, Bool.false_eq_true, if_false] at e2 e4
      show t.size + 1 = terminalCount (setNode _ _ _)
      omega
    | cons k ks =>
      have e4 := terminalCount_allocNode (linkLabel cur (e.first :: e.rest.take r) e.child
          (setNode e.child ⟨none, [⟨d, ds, trAlloc t⟩]⟩ (allocNode (nodeAt t e.child) t))) ⟨some v, []⟩
      have l4 : e.child < trAlloc (allocNode ⟨some v, []⟩ (linkLabel cur (e.first :: e.rest.take r) e.child
          (setNode e.child ⟨none, [⟨d, ds, trAlloc t⟩]⟩ (allocNode (nodeAt t e.child) t)))) := by
        simp; omega
      have e5 := terminalCount_linkLabel l4 (k :: ks) (trAlloc t + 1)
      simp only [Option.isSome_none, Option.isSome_some, if_true, Bool.false_eq_true, if_false] at e2 e4
      have : (splitTrie v cur e r d ds (k :: ks) t).size = t.size + 1 := rfl
      rw [this]
      simp only [splitTrie, terminalCount_countInsert, attachTerminal, trAlloc_linkLabel, trAlloc_setNode,
        trAlloc_allocNode]
      omega
  · cases rest <;> rfl
  · intro q c
    constructor
    · rintro ⟨j, hj, hcj⟩
      rcases hpath.1 hj with ⟨hjc, hj'⟩ | ⟨rfl, hj'⟩ | ⟨rfl, rfl⟩ | ⟨hr, rfl, rfl⟩
      · rw [cold j (hi.path_lt hj') hjc] at hcj
        exact .inl ⟨j, hj', hcj⟩
      · rw [cy] at hcj
        exact .inl ⟨_, hj', hcj⟩
      · rw [cch] at hcj
        split at hcj
        · rename_i hr
          exact .inr ⟨by simp [hr], (Option.some.inj hcj).symm⟩
        · cases hcj
      · rw [cz hr] at hcj
        exact .inr ⟨rfl, (Option.some.inj hcj).symm⟩
    · rintro (⟨j, hj, hcj⟩ | ⟨rfl, rfl⟩)
      · by_cases hjc : j = e.child
        · subst hjc
          exact ⟨_, hpath.2 (.inr (.inl ⟨rfl, hj⟩)), by rw [cy]; exact hcj⟩
        · exact ⟨j, hpath.2 (.inl ⟨hjc, hj⟩), by rw [cold j (hi.path_lt hj) hjc]; exact hcj⟩
      · by_cases hr : rest = []
        · exact ⟨e.child, hpath.2 (.inr (.inr (.inl ⟨rfl, by simp [hr]⟩))), by rw [cch, if_pos hr]⟩
        · exact ⟨_, hpath.2 (.inr (.inr (.inr ⟨hr, rfl, rfl⟩))), by rw [cz hr]⟩

end

/-! ### The whole insertion (R122) -/

/-- A part two strings share counts whole. -/
theorem commonPrefixLength_append_append (x y z : Phrase) :
    commonPrefixLength (x ++ y) (x ++ z) = x.length + commonPrefixLength y z := by
  induction x with
  | nil => simp
  | cons a x ih => simp [commonPrefixLength, ih]; omega

theorem commonPrefixLength_append (x y : Phrase) : commonPrefixLength x (x ++ y) = x.length := by
  have := commonPrefixLength_append_append x [] y
  cases y <;> simpa [commonPrefixLength] using this

/-- The first pass of an insertion at a slot with an edge of the key's first byte, where the label does not start the key. -/
theorem trieInsertFrom_split {t : Trie} {limit : Nat} {v : Code} {n cur : Nat} {b : Byte} {ks : Phrase} {e : Edge}
    (he : edgeFrom b (nodeAt t cur).kids = some e) (hr : commonPrefixLength e.rest ks ≠ e.rest.length) :
    trieInsertFrom limit v (n + 1) cur (b :: ks) t =
      trieSplit limit v cur e (commonPrefixLength e.rest ks) (ks.drop (commonPrefixLength e.rest ks)) t := by
  simp [trieInsertFrom, he, hr]

/-- SPLIT in the words of `splitTrie`. -/
theorem trieSplit_eq {t : Trie} {limit : Nat} {v : Code} {cur : Nat} {e : Edge} {r : Nat} {d : Byte} {ds rest : Phrase}
    (hcur : cur < trAlloc t) (hch : e.child < trAlloc t) (hne : cur ≠ e.child) (hl : e.rest.drop r = d :: ds) :
    trieSplit limit v cur e r rest t =
      if trAlloc t + (if rest = [] then 1 else 2) ≤ limit then .ok (splitTrie v cur e r d ds rest t)
      else .error .storeFull := by
  have n3 : nodeAt (linkLabel cur (e.first :: e.rest.take r) e.child
      (setNode e.child ⟨none, [⟨d, ds, trAlloc t⟩]⟩ (allocNode (nodeAt t e.child) t))) e.child
        = ⟨none, [⟨d, ds, trAlloc t⟩]⟩ := by
    rw [nodeAt_linkLabel (by simp; omega), if_neg (Ne.symm hne), nodeAt_setNode, if_pos ⟨rfl, by simp; omega⟩]
  simp only [trieSplit, hasRoom, decide_eq_true_eq, hl, putLabel, putEdge, n3]
  cases rest <;> simp [splitTrie]

/-- No case needs more than two fresh slots (R124). -/
theorem FreshSlots.le_two {t : Trie} {p : Phrase} {k : Nat} (h : FreshSlots t p k) : k ≤ 2 := by cases h <;> omega

/-- What an insertion at a slot comes to: DUP_PHRASE where the rest of the key is stored below it; else it grows the trie by
the phrase if the fresh slots its case needs are there, and raises STORE_FULL if they are not. -/
theorem trieInsertFrom_spec {t : Trie} {limit : Nat} {v : Code} (hi : TrieInv t) (n cur : Nat) (q0 key : Phrase)
    (hq : TriePath t cur q0) (hk : key ≠ []) (hn : key.length ≤ n) :
    (∀ c, trieSearchFrom t key.length cur key = some c → trieInsertFrom limit v n cur key t = .error .dupPhrase) ∧
    (trieSearchFrom t key.length cur key = none →
      ∃ k, FreshSlots t (q0 ++ key) k ∧
        (k = 0 ∨ trAlloc t + k ≤ limit →
          ∃ t', trieInsertFrom limit v n cur key t = .ok t' ∧ trAlloc t' = trAlloc t + k ∧ Grown t t' (q0 ++ key) v) ∧
        (0 < k → limit < trAlloc t + k → trieInsertFrom limit v n cur key t = .error .storeFull)) := by
  induction n generalizing cur q0 key with
  | zero => cases key <;> simp_all
  | succ n ih =>
    obtain ⟨b, ks, rfl⟩ := List.exists_cons_of_ne_nil hk
    have hs := nodeAt_sorted hi.sorted cur
    have hcur := hi.path_lt hq
    cases hf : edgeFrom b (nodeAt t cur).kids with
    | none =>
      have hsn : trieSearchFrom t (b :: ks).length cur (b :: ks) = none := by
        simp only [List.length_cons, trieSearchFrom, searchEdge_eq hs, hf, Option.filter]
      refine ⟨fun c hc => (by rw [hsn] at hc; cases hc), fun _ => ⟨1, .attach hq (edgeFrom_eq_none.1 hf), ?_, ?_⟩⟩
      · intro hroom
        have hroom : trAlloc t + 1 ≤ limit := by omega
        refine ⟨_, by simp [trieInsertFrom, hf, trieAttach, hasRoom, hroom], by simp, grown_attach hi hq hf⟩
      · intro _ hfull
        have : ¬ trAlloc t + 1 ≤ limit := by omega
        simp [trieInsertFrom, hf, trieAttach, hasRoom, this]
    | some e =>
      obtain ⟨he, rfl⟩ := (edgeFrom_eq_some hs).1 hf
      obtain ⟨hr1, hr2, hr3⟩ := commonPrefixLength_spec e.rest ks
      by_cases hr : commonPrefixLength e.rest ks = e.rest.length
      · have hks : ks = e.rest ++ ks.drop e.rest.length := by
          rw [hr, List.take_length] at hr3
          conv_lhs => rw [← List.take_append_drop e.rest.length ks]
          rw [← hr3]
        generalize hdr : ks.drop e.rest.length = rest at hks
        subst hks
        have hsearch : trieSearchFrom t (e.first :: (e.rest ++ rest)).length cur (e.first :: (e.rest ++ rest))
            = trieSearchFrom t rest.length e.child rest :=
          trieSearchFrom_edge hs he rest _ (le_refl _)
        rw [hsearch]
        have hpath := TriePath.edge hq he
        have happ : q0 ++ e.first :: (e.rest ++ rest) = (q0 ++ e.label) ++ rest := by simp [Edge.label]
        rw [happ]
        cases rest with
        | nil =>
          have hins : trieInsertFrom limit v (n + 1) cur (e.first :: (e.rest ++ [])) t = trieMark v e.child t := by
            simp only [List.append_nil] at hr
            simp [trieInsertFrom, hf, hr]
          rw [hins, List.append_nil]
          simp only [trieSearchFrom]
          cases hc : (nodeAt t e.child).code with
          | some c => simp [trieMark, hc]
          | none =>
            refine ⟨by simp, fun _ => ⟨0, .mark hpath, fun _ =>
              ⟨countInsert (setNode e.child { nodeAt t e.child with code := some v } t), ?_, by simp,
                grown_mark hi hpath (hi.child_range he).1 hc⟩, by simp⟩⟩
            simp only [trieMark, hc]
        | cons k ks' =>
          have hins : trieInsertFrom limit v (n + 1) cur (e.first :: (e.rest ++ k :: ks')) t
              = trieInsertFrom limit v n e.child (k :: ks') t := by
            simp [trieInsertFrom, hf, hr]
          rw [hins]
          refine ih e.child (q0 ++ e.label) (k :: ks') hpath (by simp) ?_
          simp at hn ⊢
          omega
      · have hlt : commonPrefixLength e.rest ks < e.rest.length := by omega
        obtain ⟨d, ds, hl⟩ : ∃ d ds, e.rest.drop (commonPrefixLength e.rest ks) = d :: ds :=
          List.exists_cons_of_ne_nil (by simp; omega)
        have hne := hi.child_ne hq he
        have hch := (hi.child_range he).2
        have hkey : e.first :: ks
            = e.first :: e.rest.take (commonPrefixLength e.rest ks) ++ ks.drop (commonPrefixLength e.rest ks) := by
          rw [hr3, List.cons_append, List.take_append_drop]
        have hd : ∀ k ks', ks.drop (commonPrefixLength e.rest ks) = k :: ks' → d ≠ k :=
          fun k ks' hk' => commonPrefixLength_next _ _ hl hk'
        have hsn : trieSearchFrom t (e.first :: ks).length cur (e.first :: ks) = none := by
          have : e.rest.isPrefixOf ks = false := by
            rw [Bool.eq_false_iff]
            intro h
            obtain ⟨z, rfl⟩ := isPrefixOf_iff.1 h
            exact hr (commonPrefixLength_append _ _)
          simp only [List.length_cons, trieSearchFrom, searchEdge_eq hs, hf, Option.filter, this]
          rfl
        refine ⟨fun c hc => (by rw [hsn] at hc; cases hc), fun _ => ?_⟩
        have hins := trieInsertFrom_split (limit := limit) (v := v) (n := n) hf hr
        rw [trieSplit_eq hcur hch hne hl] at hins
        have hlab : e.label = (e.first :: e.rest.take (commonPrefixLength e.rest ks)) ++ d :: ds := by
          rw [Edge.label, List.cons_append, ← hl, List.take_append_drop]
        refine ⟨if ks.drop (commonPrefixLength e.rest ks) = [] then 1 else 2, ?_, ?_, ?_⟩
        · rw [hkey]
          cases hk' : ks.drop (commonPrefixLength e.rest ks) with
          | nil =>
            rw [List.append_nil, if_pos rfl]
            exact .splitEnd hq he hlab (by simp) (by simp)
          | cons k ks' =>
            rw [if_neg (by simp)]
            exact .splitFork hq he hlab (by simp) (Ne.symm (hd k ks' hk'))
        · intro hroom
          have hroom : trAlloc t + (if ks.drop (commonPrefixLength e.rest ks) = [] then 1 else 2) ≤ limit := by
            rcases hroom with h | h
            · split at h <;> omega
            · exact h
          rw [if_pos hroom] at hins
          refine ⟨_, hins, trAlloc_split, ?_⟩
          rw [hkey]
          exact grown_split hi hq he hl hd
        · intro _ hfull
          rw [hins, if_neg (by omega)]

/-- What `TrieInsert` of a non-empty phrase comes to (R122, R124, R125). -/
theorem trieInsert_spec {t : Trie} (hi : TrieInv t) (limit : Nat) (p : Phrase) (v : Code) (hp : p ≠ []) :
    (∀ c, trieSearch t p = some c → trieInsert limit p v t = .error .dupPhrase) ∧
    (trieSearch t p = none →
      ∃ k, FreshSlots t p k ∧
        (k = 0 ∨ trAlloc t + k ≤ limit →
          ∃ t', trieInsert limit p v t = .ok t' ∧ trAlloc t' = trAlloc t + k ∧ Grown t t' p v) ∧
        (0 < k → limit < trAlloc t + k → trieInsert limit p v t = .error .storeFull)) :=
  trieInsertFrom_spec hi p.length 0 [] p .root hp (le_refl _)

/-- An insertion whose key's path to a slot is there goes on from that slot. -/
theorem trieInsertFrom_path {t : Trie} {limit : Nat} {v : Code} (hs : ∀ n ∈ t.nodes, KidsSorted n.kids) {i : Nat}
    {p : Phrase} (hp : TriePath t i p) (n : Nat) (key : Phrase) (hk : key ≠ []) (hn : (p ++ key).length ≤ n) :
    ∃ m, key.length ≤ m ∧ trieInsertFrom limit v n 0 (p ++ key) t = trieInsertFrom limit v m i key t := by
  induction hp generalizing key with
  | root => exact ⟨n, hn, rfl⟩
  | edge hp' he ih =>
    rename_i i p e
    obtain ⟨m, hm, h⟩ := ih (e.label ++ key) (by simp [Edge.label]) (by rwa [← List.append_assoc])
    rw [List.append_assoc, h]
    obtain ⟨b, ks, rfl⟩ := List.exists_cons_of_ne_nil hk
    cases m with
    | zero => simp [Edge.label] at hm
    | succ m =>
      refine ⟨m, by simp [Edge.label] at hm ⊢; omega, ?_⟩
      have hf := (edgeFrom_eq_some (nodeAt_sorted hs i)).2 ⟨he, rfl⟩
      simp [trieInsertFrom, Edge.label, hf, commonPrefixLength_append]

/-- A SPLIT at a slot the key's path leads to: the label of `e` is `x ++ d :: ys`, and the key goes on with `x` and then
`rest`, which does not begin with `d`. -/
theorem trieInsert_split {t : Trie} {limit : Nat} {v : Code} (hi : TrieInv t) {i : Nat} {q : Phrase} {e : Edge}
    {x ys rest : Phrase} {d : Byte} (hq : TriePath t i q) (he : e ∈ (nodeAt t i).kids) (hl : e.label = x ++ d :: ys)
    (hx : x ≠ []) (hd : ∀ b z, rest = b :: z → d ≠ b) :
    ∃ t', trAlloc t' = trAlloc t + (if rest = [] then 1 else 2) ∧ Grown t t' (q ++ (x ++ rest)) v ∧
      trieInsert limit (q ++ (x ++ rest)) v t =
        if trAlloc t + (if rest = [] then 1 else 2) ≤ limit then .ok t' else .error .storeFull := by
  obtain ⟨a, xs, rfl⟩ := List.exists_cons_of_ne_nil hx
  obtain ⟨rfl, hrest⟩ : e.first = a ∧ e.rest = xs ++ d :: ys := by simpa [Edge.label] using hl
  have hc : commonPrefixLength e.rest (xs ++ rest) = xs.length := by
    rw [hrest, commonPrefixLength_append_append]
    cases rest with
    | nil => simp [commonPrefixLength]
    | cons b z => simp [commonPrefixLength, hd b z rfl]
  have hdrop : e.rest.drop xs.length = d :: ys := by rw [hrest, List.drop_left]
  have htake : e.rest.take xs.length = xs := by rw [hrest, List.take_left]
  obtain ⟨m, hm, hp⟩ := trieInsertFrom_path (limit := limit) (v := v) hi.sorted hq _ ((e.first :: xs) ++ rest) (by simp) (le_refl _)
  obtain ⟨m, rfl⟩ : ∃ n, m = n + 1 := ⟨m - 1, by simp at hm; omega⟩
  have hg := grown_split (v := v) hi hq he hdrop hd
  rw [htake] at hg
  refine ⟨_, trAlloc_split, hg, ?_⟩
  rw [trieInsert, hp, List.cons_append,
    trieInsertFrom_split ((edgeFrom_eq_some (nodeAt_sorted hi.sorted i)).2 ⟨he, rfl⟩) (by rw [hc, hrest]; simp), hc, List.drop_left,
    trieSplit_eq (hi.path_lt hq) (hi.child_range he).2 (hi.child_ne hq he) hdrop]

/-- What `TrieInsert` of a phrase not stored comes to, by the case its walk ends in (R122, R124): the case's fresh slots
are taken and the phrase is stored, or they are not there and STORE_FULL is raised. -/
theorem trieInsert_fresh {t : Trie} (hi : TrieInv t) {p : Phrase} {k : Nat} (h : FreshSlots t p k) (hp : p ≠ [])
    (hn : trieSearch t p = none) (limit : Nat) (v : Code) :
    (k = 0 ∨ trAlloc t + k ≤ limit →
      ∃ t', trieInsert limit p v t = .ok t' ∧ trAlloc t' = trAlloc t + k ∧ Grown t t' p v) ∧
    (0 < k → limit < trAlloc t + k → trieInsert limit p v t = .error .storeFull) := by
  cases h with
  | mark hq =>
    have hcode : (nodeAt t _).code = none := (trieSearch_path hi.sorted hq).symm.trans hn
    refine ⟨fun _ => ?_, fun h => absurd h (lt_irrefl 0)⟩
    cases hq with
    | root => exact absurd rfl hp
    | @edge i q e hq he =>
      obtain ⟨m, hm, hins⟩ := trieInsertFrom_path (limit := limit) (v := v) hi.sorted hq _ e.label (by simp [Edge.label]) (le_refl _)
      obtain ⟨m, rfl⟩ : ∃ n, m = n + 1 := ⟨m - 1, by simp [Edge.label] at hm; omega⟩
      refine ⟨countInsert (setNode e.child { nodeAt t e.child with code := some v } t), ?_, by simp,
        grown_mark hi (.edge hq he) (hi.child_range he).1 hcode⟩
      have hf := (edgeFrom_eq_some (nodeAt_sorted hi.sorted i)).2 ⟨he, rfl⟩
      have hself := commonPrefixLength_append e.rest []
      rw [List.append_nil] at hself
      rw [trieInsert, hins]
      simp [trieInsertFrom, Edge.label, hf, hself, trieMark, hcode]
  | attach hq hno =>
    rename_i i q b ks
    obtain ⟨m, hm, hins⟩ := trieInsertFrom_path (limit := limit) (v := v) hi.sorted hq _ (b :: ks) (by simp) (le_refl _)
    obtain ⟨m, rfl⟩ : ∃ n, m = n + 1 := ⟨m - 1, by simp at hm; omega⟩
    have hf := edgeFrom_eq_none.2 hno
    constructor
    · intro hroom
      have hroom : trAlloc t + 1 ≤ limit := by omega
      exact ⟨_, by rw [trieInsert, hins]; simp [trieInsertFrom, hf, trieAttach, hasRoom, hroom], by simp, grown_attach hi hq hf⟩
    · intro _ hfull
      rw [trieInsert, hins]
      simp [trieInsertFrom, hf, trieAttach, hasRoom, show ¬ trAlloc t + 1 ≤ limit by omega]
  | splitEnd hq he hl hx hy =>
    obtain ⟨d, ys, rfl⟩ := List.exists_cons_of_ne_nil hy
    obtain ⟨t', ha, hg, hins⟩ := trieInsert_split (limit := limit) (v := v) (rest := []) hi hq he hl hx (by simp)
    simp only [List.append_nil, if_true] at ha hg hins
    refine ⟨fun hroom => ⟨t', ?_, ha, hg⟩, fun _ hfull => ?_⟩
    · rw [hins, if_pos (by omega)]
    · rw [hins, if_neg (by omega)]
  | splitFork hq he hl hx hb =>
    rename_i i q e x y z d b
    obtain ⟨t', ha, hg, hins⟩ := trieInsert_split (limit := limit) (v := v) (rest := b :: z) hi hq he hl hx
      (fun _ _ h => by rw [← (List.cons.inj h).1]; exact Ne.symm hb)
    simp only [if_neg (List.cons_ne_nil b z)] at ha hins
    refine ⟨fun hroom => ⟨t', ?_, ha, hg⟩, fun _ hfull => ?_⟩
    · rw [hins, if_pos (by omega)]
    · rw [hins, if_neg (by omega)]

/-- A trie can be grown to any number of slots, one at a time, below a slot `i` with no edges: the other slots stay as they
are, and so does every search of a phrase no longer than that slot's. -/
theorem exists_grown {t : Trie} (hi : TrieInv t) {i : Nat} {q : Phrase} (hq : TriePath t i q) (hk : (nodeAt t i).kids = [])
    (n : Nat) :
    ∃ t', TrieInv t' ∧ trAlloc t' = trAlloc t + n ∧ (∀ j p, TriePath t j p → TriePath t' j p) ∧
      (∀ j, j < trAlloc t → j ≠ i → nodeAt t' j = nodeAt t j) ∧
      ∀ p, p.length ≤ q.length → trieSearch t' p = trieSearch t p := by
  suffices h : ∃ t' j, (j = i ∨ trAlloc t ≤ j) ∧ TriePath t' j (q ++ List.replicate n 0) ∧ (nodeAt t' j).kids = [] ∧
      TrieInv t' ∧ trAlloc t' = trAlloc t + n ∧ (∀ j p, TriePath t j p → TriePath t' j p) ∧
      (∀ j, j < trAlloc t → j ≠ i → nodeAt t' j = nodeAt t j) ∧
      ∀ p, p.length ≤ q.length → trieSearch t' p = trieSearch t p by
    obtain ⟨t', _, _, _, _, h⟩ := h
    exact ⟨t', h⟩
  induction n with
  | zero => exact ⟨t, i, .inl rfl, by simpa using hq, hk, hi, rfl, fun _ _ h => h, fun _ _ _ => rfl, fun _ _ => rfl⟩
  | succ n ih =>
    obtain ⟨t', j, hj, hp, hjk, hi', ha, hpaths, hnodes, hsearch⟩ := ih
    have hno : edgeFrom 0 (nodeAt t' j).kids = none := by rw [hjk]; rfl
    have hlt := hi'.path_lt hp
    have hnode := fun m => nodeAt_attach (v := 0) (b := 0) (ks := []) hlt m
    have hg := grown_attach (v := 0) (ks := []) hi' hp hno
    refine ⟨countInsert (attachTerminal j [0] 0 t'), trAlloc t', .inr (by omega), ?_, ?_, hg.inv, by simp; omega, ?_, ?_, ?_⟩
    · refine (triePath_attach hi' hp hno).2 (.inr ⟨rfl, ?_⟩)
      rw [List.replicate_succ', List.append_assoc]
    · rw [hnode, if_neg (by omega), if_pos rfl]
    · exact fun m p h => (triePath_attach hi' hp hno).2 (.inl (hpaths m p h))
    · intro m hm hmi
      rw [hnode, if_neg (by omega), if_neg (by omega)]
      exact hnodes m hm hmi
    · intro p hpl
      rw [← hsearch p hpl]
      apply Option.ext
      intro c
      rw [trieSearch_eq_some hg.inv.sorted, trieSearch_eq_some hi'.sorted, hg.stored]
      refine or_iff_left fun h => ?_
      have := congrArg List.length h.1
      simp at this
      omega

end Sys2Proof.Machine
end

