-- ==== Sys2Proof/Laws/Compress.lean ====
section
/-! SUPPORT. The compression driver: what its procedures come to in a sound state, and that a pass keeps a session sound
(R170 to R178). -/

namespace Sys2Proof.Machine

/-! ### Tries that need no insertion to be known -/

theorem trieInv_cleared : TrieInv Trie.cleared where
  hasRoot := by decide
  rootPlain := rfl
  oneParent := by decide
  reachable := by
    intro i hi
    have : i = 0 := by
      have : trAlloc Trie.cleared = 1 := rfl
      omega
    exact ⟨[], this ▸ .root⟩
  sorted := by decide
  branching := by
    intro i h0 hi
    have : trAlloc Trie.cleared = 1 := rfl
    omega
  counted := by decide

/-- Nothing is stored in a cleared trie. -/
theorem trieSearch_cleared (p : Phrase) : trieSearch Trie.cleared p = none := by
  cases p <;> rfl

theorem trieInv_alphabetTrie {k : Nat} (hk : k ≤ 256) : TrieInv (alphabetTrie k) := by
  induction k with
  | zero => exact trieInv_cleared
  | succ k ih =>
    have hi := ih (by omega)
    have hn : trieSearch (alphabetTrie k) [BitVec.ofNat 8 k] = none := by
      rw [trieSearch_alphabet (by omega)]
      simp only [BitVec.toNat_ofNat]
      rw [Nat.mod_eq_of_lt (by omega), if_neg (by omega)]
    obtain ⟨_, h⟩ := trieInsert_spec hi (k + 3) [BitVec.ofNat 8 k] (BitVec.ofNat 32 k) (by simp)
    obtain ⟨j, hf, h, _⟩ := h hn
    have hj := hf.le_two
    obtain ⟨t', he, _, hg⟩ := h (.inr (by simp; omega))
    rw [trieInsert_alphabet (by omega) (by omega)] at he
    obtain rfl := Except.ok.inj he
    exact hg.inv

/-! ### The trie of a session (R130) -/

/-- In a trie of one-byte labels whose slots but the root are all terminal, a stored string or the root is extended by a
byte with one fresh slot, ATTACH (R130). -/
theorem trieInsert_oneByte {t : Trie} (hi : TrieInv t) (h1 : ∀ n ∈ t.nodes, ∀ e ∈ n.kids, e.rest = [])
    (hterm : ∀ i, 0 < i → i < trAlloc t → (nodeAt t i).code.isSome) {j : Nat} {p : Phrase} (hp : TriePath t j p)
    {b : Byte} (hs : trieSearch t (p ++ [b]) = none) {limit : Nat} (hroom : trAlloc t + 1 ≤ limit) (v : Code) :
    ∃ t', trieInsert limit (p ++ [b]) v t = .ok t' ∧ Grown t t' (p ++ [b]) v ∧ trAlloc t' = trAlloc t + 1 ∧
      t'.nodes.map Node.code = t.nodes.map Node.code ++ [some v] ∧
      ∀ n ∈ t'.nodes, ∀ e ∈ n.kids, e.rest = [] := by
  have hj := hi.path_lt hp
  have hf : edgeFrom b (nodeAt t j).kids = none := by
    cases hc : edgeFrom b (nodeAt t j).kids with
    | none => rfl
    | some e =>
      obtain ⟨he, rfl⟩ := (edgeFrom_eq_some (nodeAt_sorted hi.sorted j)).1 hc
      have hr := h1 _ (nodeAt_mem hj) e he
      have hpath := TriePath.edge hp he
      have := trieSearch_path hi.sorted hpath
      simp only [Edge.label, hr] at this
      rw [hs] at this
      have hcr := hi.child_range he
      have hct := hterm _ hcr.1 hcr.2
      rw [← this] at hct
      cases hct
  refine ⟨countInsert (attachTerminal j (b :: []) v t), ?_, grown_attach hi hp hf, by simp, ?_, ?_⟩
  · obtain ⟨m, hm, he⟩ := trieInsertFrom_path (limit := limit) (v := v) hi.sorted hp (p ++ [b]).length [b] (by simp) (le_refl _)
    rw [trieInsert, he]
    obtain ⟨m, rfl⟩ : ∃ k, m = k + 1 := ⟨m - 1, by simp at hm; omega⟩
    simp [trieInsertFrom, hf, trieAttach, hasRoom, hroom]
  · apply List.ext_getElem?
    intro i
    have hnode := nodeAt_attach (v := v) (b := b) (ks := []) hj i
    have hlen : t.nodes.length = trAlloc t := rfl
    rw [List.getElem?_append]
    simp only [List.getElem?_map, getElem?_nodes, trAlloc_countInsert, trAlloc_attachTerminal, List.length_map, hlen]
    rcases Nat.lt_trichotomy i (trAlloc t) with h | h | h
    · rw [if_pos (by omega), if_pos h, if_pos h, hnode]
      split
      · rename_i h; subst h; rfl
      · rw [if_neg (by omega)]
    · subst h
      rw [if_pos (by omega), if_neg (by omega), hnode, if_neg (by omega), if_pos rfl]
      simp
    · rw [if_neg (by omega), if_neg (by omega)]
      rw [List.getElem?_eq_none (by simp; omega)]
      rfl
  · intro n hn e he
    obtain ⟨i, hilt, rfl⟩ := List.mem_iff_getElem.1 hn
    rw [← nodeAt_eq_getElem (t := countInsert (attachTerminal j [b] v t)) (i := i) hilt, nodeAt_attach hj] at he
    split at he
    · rcases (mem_putEdge_new hf).1 he with rfl | he
      · rfl
      · exact h1 _ (nodeAt_mem hj) e he
    · split at he
      · cases he
      · exact h1 _ (nodeAt_mem (lt_trAlloc_of_edge he)) e he

section
variable {s : State}

/-- R130, R178 (c): the slots of a session's trie number one more than its counter. -/
theorem CompInv.alloc (hc : CompInv s) : trAlloc s.trie = s.encNext + 1 := by
  have := congrArg List.length hc.slots
  simpa [trAlloc] using this

/-- R130: slot `i + 1` holds code `i`. -/
theorem CompInv.code_succ (hc : CompInv s) {i : Nat} (h : i < s.encNext) :
    (nodeAt s.trie (i + 1)).code = some (BitVec.ofNat 32 i) := by
  have hlt : i + 1 < trAlloc s.trie := by rw [hc.alloc]; omega
  have := congrArg (fun l => l[i + 1]?) hc.slots
  simp only [List.getElem?_map, List.getElem?_cons_succ, getElem?_nodes, hlt, if_true] at this
  simpa [h] using this

theorem CompInv.terminal (hc : CompInv s) {i : Nat} (h0 : 0 < i) (h : i < trAlloc s.trie) :
    (nodeAt s.trie i).code.isSome := by
  obtain ⟨i, rfl⟩ : ∃ k, i = k + 1 := ⟨i - 1, by omega⟩
  rw [hc.alloc] at h
  rw [hc.code_succ (by omega)]
  rfl

/-- R178 (b): a stored code is one below the counter. -/
theorem CompInv.code_lt (hi : Inv s) (hc : CompInv s) {p : Phrase} {c : Code} (h : trieSearch s.trie p = some c) :
    c.toNat < s.encNext := by
  obtain ⟨j, hj, hcj⟩ := (trieSearch_eq_some hi.trie.sorted).1 h
  have hlt := lt_trAlloc_of_code hcj
  rcases Nat.eq_zero_or_pos j with rfl | h0
  · rw [hi.trie.rootPlain] at hcj; cases hcj
  · obtain ⟨i, rfl⟩ : ∃ k, j = k + 1 := ⟨j - 1, by omega⟩
    rw [hc.alloc] at hlt
    rw [hc.code_succ (by omega)] at hcj
    obtain rfl := Option.some.inj hcj
    have hle := hi.encRange.2
    have hp : 2 ^ s.config.maxBits ≤ 2 ^ 30 := Nat.pow_le_pow_right (by omega) hi.config.2
    rw [BitVec.toNat_ofNat, Nat.mod_eq_of_lt (by omega)]
    omega

theorem cap_le (hi : Inv s) : cap s ≤ 2 ^ s.config.maxBits := Nat.pow_le_pow_right (by omega) hi.bits.2

theorem alphabet_le_cap (hi : Inv s) : 512 ≤ cap s := by
  have : 2 ^ 9 ≤ 2 ^ s.cfgBits := Nat.pow_le_pow_right (by omega) hi.bits.1
  simpa [cap] using this

theorem bitLength_le {n k : Nat} (h : n < 2 ^ k) : bitLength n ≤ k := by
  rcases Nat.eq_zero_or_pos n with rfl | hn
  · simp [bitLength]
  · by_contra hk
    have h1 := (bitLength_bounds hn).1
    have h2 : 2 ^ k ≤ 2 ^ (bitLength n - 1) := Nat.pow_le_pow_right (by omega) (by omega)
    omega

/-- R164: at a counter no greater than CAP the policy's width is 9 or more and at most MAXW. -/
theorem codeWidth_range (hi : Inv s) {n : Nat} (hn : n ≤ cap s) :
    9 ≤ codeWidth s.cfgVar s.cfgBits n ∧ codeWidth s.cfgVar s.cfgBits n ≤ s.config.maxW := by
  have hb := hi.bits
  simp only [minBits] at hb
  simp only [codeWidth, Config.maxW]
  split
  · have : bitLength n ≤ s.cfgBits + 1 := by
      apply bitLength_le
      have : cap s < 2 ^ (s.cfgBits + 1) := Nat.pow_lt_pow_right (by omega) (by omega)
      omega
    omega
  · omega

/-- R178 (d): a code below a counter no greater than CAP fits the policy's width. -/
theorem code_fits {n c : Nat} (hn : n ≤ cap s) (hc : c < n) : c < 2 ^ codeWidth s.cfgVar s.cfgBits n := by
  simp only [codeWidth]
  split
  · have h1 := (bitLength_bounds (show 1 ≤ n by omega)).2
    have h2 : 2 ^ bitLength n ≤ 2 ^ max 9 (bitLength n) := Nat.pow_le_pow_right (by omega) (by omega)
    omega
  · simp only [cap] at hn
    omega

/-- R171 steps 3 and 4: in a session with a match held, the match's code goes out at the current width. -/
theorem emitMatch_spec (hi : Inv s) (hc : CompInv s) (hne : s.compS ≠ []) :
    ∃ (code : Code) (x : List Byte) (b : BitBuf), trieSearch s.trie s.compS = some code ∧ code.toNat < s.encNext ∧
      emitMatch s = .done () { s with snk := s.snk ++ x, pk := b } ∧ b.cnt ≤ 7 ∧ BufClean b ∧
      byteBits x ++ bitsOf b.cnt b.acc
        = packerBits s ++ bitsOf (codeWidth s.cfgVar s.cfgBits s.encNext) code.toNat := by
  obtain ⟨code, hcode⟩ := Option.isSome_iff_exists.1 (hc.matched.resolve_left hne)
  have hlt := hc.code_lt hi hcode
  obtain ⟨hw1, hw2⟩ := codeWidth_range hi hc.counter.2
  obtain ⟨x, b, he, h7, hcl, hbits⟩ := pkEmit_spec (s := s) ⟨by omega, hw2⟩ (code_fits hc.counter.2 hlt) hi.packer.2
  exact ⟨code, x, b, hcode, hlt, by simp [emitMatch, hcode, he], h7, hcl, hbits⟩

end

/-! ### A pass of C.STEP -/

theorem CompInv.frame {s : State} (c : CompInv s) (ph : Phase) (fc : Cause) (pk up : BitBuf) (src snk : List Byte)
    (eos : Bool) (host : List HostMove) (out : HostGets) :
    CompInv { s with ph := ph, fcause := fc, pk := pk, up := up, src := src, snk := snk, upEos := eos, host := host, out := out } :=
  ⟨c.slots, c.oneByte, c.alphabet, c.matched, c.counter, c.short⟩

theorem DecInv.frame {s : State} (d : DecInv s) (fc : Cause) (pk : BitBuf) (trie : Trie) (S : Phrase) (n : Nat)
    (src snk : List Byte) (eos : Bool) (host : List HostMove) (out : HostGets) :
    DecInv { s with fcause := fc, pk := pk, trie := trie, compS := S, encNext := n, src := src, snk := snk, upEos := eos, host := host, out := out } :=
  ⟨d.counter, d.first, d.previous, d.alphabet, d.short, d.growing, d.held⟩

/-- The streams, `up_eos`, the pending moves and the response are in no clause of soundness. -/
theorem Inv.frame {s : State} (i : Inv s) (src snk : List Byte) (eos : Bool) (host : List HostMove) (out : HostGets) :
    Inv { s with src := src, snk := snk, upEos := eos, host := host, out := out } :=
  ⟨i.config, i.cause, i.bits, i.prefixLength, i.encRange, i.oldLength, i.decRange, i.packer, i.unpacker,
    i.trie, i.arena, i.table, i.entries, fun h => (i.comp h).frame .., fun h => (i.dec h).frame ..⟩

/-- The compression side may change to another sound one in a compression session, or as it ends. -/
theorem Inv.withCompression {s : State} (i : Inv s) (h : s.ph = .comp) {ph : Phase} (hph : ph = .comp ∨ ph = .done)
    {S : Phrase} {n : Nat} {tr : Trie} {pk : BitBuf} (hpk : pk.cnt ≤ 7 ∧ BufClean pk) (htr : TrieInv tr)
    (hc : CompInv { s with compS := S, encNext := n, trie := tr }) (h256 : 256 ≤ n) :
    Inv { s with ph := ph, compS := S, encNext := n, trie := tr, pk := pk } := by
  have hcap := cap_le i
  have hn : n ≤ cap s := hc.counter.2
  have halloc : trAlloc tr = n + 1 := hc.alloc
  have hp : (2 : Nat) ^ (s.config.maxBits + 1) = 2 * 2 ^ s.config.maxBits := by rw [Nat.pow_succ]; omega
  have hpos : 256 ≤ 2 ^ s.config.maxBits := i.encRange.1.trans i.encRange.2
  refine ⟨i.config, ?_, i.bits, ?_, ⟨h256, by simp only; omega⟩, i.oldLength, i.decRange, hpk, i.unpacker, htr, ?_,
    i.table, i.entries, fun _ => hc.frame .., ?_⟩
  · have := i.cause
    rw [h] at this
    rcases hph with rfl | rfl <;> simpa using this
  · rcases hc.matched with h0 | h0
    · simp only at h0
      simp [h0]
    · obtain ⟨c, hcs⟩ := Option.isSome_iff_exists.1 h0
      have := hc.short _ _ hcs
      simp only [Config.phraseMax] at this ⊢
      omega
  · simp only [Config.trieNodes]
    omega
  · intro hd
    rcases hph with rfl | rfl <;> simp at hd

/-- R171 step 2: the match extended. -/
theorem cConsume_found {s : State} {b : Byte} {c : Code} (h : trieSearch s.trie (s.compS ++ [b]) = some c) :
    cConsume b s = .done Response.ok { s with compS := s.compS ++ [b] } := by
  simp [cConsume, h]

theorem Inv.extendMatch {s : State} (i : Inv s) (hp : s.ph = .comp) {b : Byte} {c : Code}
    (h : trieSearch s.trie (s.compS ++ [b]) = some c) : Inv { s with compS := s.compS ++ [b] } := by
  have k := i.comp hp
  have := i.withCompression hp (ph := .comp) (.inl rfl) (S := s.compS ++ [b]) (n := s.encNext) i.packer i.trie
    ⟨k.slots, k.oneByte, k.alphabet, .inr (by simp [h]), k.counter, k.short⟩ i.encRange.1
  rw [← hp] at this
  exact this

/-- In a session a match with nothing stored beyond it is not the empty string: the single bytes are stored (R12). -/
theorem compS_ne_nil {s : State} (k : CompInv s) {b : Byte} (h : trieSearch s.trie (s.compS ++ [b]) = none) :
    s.compS ≠ [] := by
  intro h0
  have := k.alphabet b
  rw [h0] at h
  simp only [List.nil_append] at h
  rw [h] at this
  cases this

/-- R171 step 3, R172, R174: the match's code goes out at the counter's width, the extended string is stored under the
counter while it is below CAP, and the match becomes the byte. -/
theorem cConsume_missed {s : State} (i : Inv s) (hp : s.ph = .comp) {b : Byte}
    (h : trieSearch s.trie (s.compS ++ [b]) = none) :
    ∃ (code : Code) (x : List Byte) (pk : BitBuf) (tr : Trie) (n : Nat),
      trieSearch s.trie s.compS = some code ∧ code.toNat < s.encNext ∧
      cConsume b s = .done Response.ok { s with snk := s.snk ++ x, pk := pk, trie := tr, encNext := n, compS := [b] } ∧
      pk.cnt ≤ 7 ∧ BufClean pk ∧
      byteBits x ++ bitsOf pk.cnt pk.acc
        = packerBits s ++ bitsOf (codeWidth s.cfgVar s.cfgBits s.encNext) code.toNat ∧
      (cap s ≤ s.encNext → tr = s.trie ∧ n = s.encNext) ∧
      (s.encNext < cap s → n = s.encNext + 1 ∧ trAlloc tr = trAlloc s.trie + 1 ∧
        Grown s.trie tr (s.compS ++ [b]) (BitVec.ofNat 32 s.encNext)) ∧
      Inv { s with snk := s.snk ++ x, pk := pk, trie := tr, encNext := n, compS := [b] } := by
  have k := i.comp hp
  have hne := compS_ne_nil k h
  obtain ⟨code, x, pk, hcode, hlt, he, h7, hcl, hbits⟩ := emitMatch_spec i k hne
  by_cases hfull : cap s ≤ s.encNext
  · have hnlt : ¬ s.encNext < cap s := by omega
    refine ⟨code, x, pk, s.trie, s.encNext, hcode, hlt, ?_, h7, hcl, hbits, fun _ => ⟨rfl, rfl⟩, fun hc => absurd hc hnlt, ?_⟩
    · have : ¬ s.encNext < cap { s with snk := s.snk ++ x, pk := pk } := hnlt
      simp [cConsume, h, he, growTrie, this]
    · have h1 := i.withCompression hp (ph := .comp) (.inl rfl) (S := [b]) (n := s.encNext) (tr := s.trie) ⟨h7, hcl⟩ i.trie
        ⟨k.slots, k.oneByte, k.alphabet, .inr (k.alphabet b), k.counter, k.short⟩ i.encRange.1
      rw [← hp] at h1
      exact h1.frame s.src (s.snk ++ x) s.upEos s.host s.out
  · have hroom : s.encNext < cap s := by omega
    obtain ⟨j, hj, _⟩ := (trieSearch_eq_some i.trie.sorted).1 hcode
    have hcap := cap_le i
    have halloc := k.alloc
    have hpow : s.config.trieNodes = 2 * 2 ^ s.config.maxBits := by
      simp only [Config.trieNodes, Nat.pow_succ]; omega
    obtain ⟨tr, hins, hg, hal, hslots, hone⟩ := trieInsert_oneByte i.trie k.oneByte (fun _ h0 hl => k.terminal h0 hl) hj h
      (limit := s.config.trieNodes) (by omega) (BitVec.ofNat 32 s.encNext)
    refine ⟨code, x, pk, tr, s.encNext + 1, hcode, hlt, ?_, h7, hcl, hbits, fun hc => absurd hroom (by omega),
      fun _ => ⟨rfl, hal, hg⟩, ?_⟩
    · have : s.encNext < cap { s with snk := s.snk ++ x, pk := pk } := hroom
      simp [cConsume, h, he, growTrie, this, insertPhrase, hins]
    · have hsearch := hg.search i.trie h
      have h1 := i.withCompression hp (ph := .comp) (.inl rfl) (S := [b]) (n := s.encNext + 1) (tr := tr) (pk := pk)
        ⟨h7, hcl⟩ hg.inv ⟨?_, hone, ?_, ?_, ?_, ?_⟩ (by have := i.encRange.1; omega)
      · rw [← hp] at h1
        exact h1.frame s.src (s.snk ++ x) s.upEos s.host s.out
      · simp only
        rw [hslots, k.slots, List.range_succ]
        simp
      · intro b'
        simp only
        rw [hsearch]
        split
        · rfl
        · exact k.alphabet b'
      · right
        simp only
        rw [hsearch]
        split
        · rfl
        · exact k.alphabet b
      · simp only
        refine ⟨by rw [hg.size, k.counter.1], ?_⟩
        have : s.encNext + 1 ≤ cap s := by omega
        exact this
      · intro q c hq
        simp only at hq ⊢
        rw [hsearch] at hq
        split at hq
        · rename_i hqq
          subst hqq
          have := k.short _ _ hcode
          simp only [List.length_append, List.length_singleton]
          omega
        · have := k.short _ _ hq
          omega

/-- R171 step 4, R173, R175: the last match, if there is one, goes out, then the held bits padded with zeros. -/
theorem cFinish_spec {s : State} (i : Inv s) (hp : s.ph = .comp) :
    ∃ x, cFinish s = .done Response.finished { s with snk := s.snk ++ x, pk := BitBuf.empty, ph := .done } ∧
      Inv { s with snk := s.snk ++ x, pk := BitBuf.empty, ph := .done } ∧
      (s.compS = [] → ∃ z, z ≤ 7 ∧ byteBits x = packerBits s ++ List.replicate z false) ∧
      (s.compS ≠ [] → ∃ (code : Code) (z : Nat), trieSearch s.trie s.compS = some code ∧ code.toNat < s.encNext ∧ z ≤ 7 ∧
        byteBits x = packerBits s ++ bitsOf (codeWidth s.cfgVar s.cfgBits s.encNext) code.toNat
          ++ List.replicate z false) := by
  have k := i.comp hp
  have hinv : ∀ x, Inv { s with snk := s.snk ++ x, pk := BitBuf.empty, ph := .done } := by
    intro x
    have h1 := i.withCompression hp (ph := .done) (.inr rfl) (S := s.compS) (n := s.encNext) (tr := s.trie)
      (pk := BitBuf.empty) (by decide) i.trie
      ⟨k.slots, k.oneByte, k.alphabet, k.matched, k.counter, k.short⟩ i.encRange.1
    exact h1.frame s.src (s.snk ++ x) s.upEos s.host s.out
  by_cases h0 : s.compS = []
  · obtain ⟨x, he, hb⟩ := pkFlush_spec i.packer.1
    refine ⟨x, ?_, hinv x, fun _ => ⟨_, ?_, hb⟩, fun h => absurd h0 h⟩
    · simp [cFinish, h0, he]
    · split <;> omega
  · obtain ⟨code, x, pk, hcode, hlt, he, h7, hcl, hbits⟩ := emitMatch_spec i k h0
    obtain ⟨y, hf, hb⟩ := pkFlush_spec (s := { s with snk := s.snk ++ x, pk := pk }) h7
    refine ⟨x ++ y, ?_, hinv _, fun h => absurd h h0, fun _ => ⟨code, if pk.cnt = 0 then 0 else 8 - pk.cnt, hcode, hlt, ?_, ?_⟩⟩
    · simp [cFinish, h0, he, hf]
    · split <;> omega
    · rw [byteBits_append, hb, ← hbits]
      simp [packerBits]

/-! ### C.START and the loop of C.RUN -/

theorem snkPushAll_eq (x : Phrase) (s : State) : snkPushAll x s = { s with snk := s.snk ++ x } := by
  induction x generalizing s with
  | nil => simp [snkPushAll]
  | cons b bs ih => simp [snkPushAll, ih, snkPush]

theorem trieInit_legal {c : Config} (h : c.legal) : trieInit c.trieNodes = alphabetTrie 256 := by
  apply trieInit_eq
  have : 2 ^ 9 ≤ 2 ^ (c.maxBits + 1) := Nat.pow_le_pow_right (by omega) (by have := h.1; omega)
  simp only [Config.trieNodes]
  omega

/-- C.START's next state (R170, R38). -/
theorem cStart_eq {s : State} (h : s.config.legal) :
    cStart s = { s with
      ph := .comp, trie := alphabetTrie 256, pk := BitBuf.empty, compS := [], encNext := 256
      snk := s.snk ++ headerBytes s } := by
  simp only [cStart, trieInit_legal h, snkPushAll_eq]
  rfl

/-- A session just opened is sound (R178). -/
theorem compInv_start {s : State} (hb : 8 ≤ s.cfgBits) (ht : s.trie = alphabetTrie 256) (h0 : s.compS = [])
    (hn : s.encNext = 256) : CompInv s := by
  have hcap : 2 ^ 8 ≤ 2 ^ s.cfgBits := Nat.pow_le_pow_right (by omega) hb
  refine ⟨?_, ?_, ?_, .inl h0, ⟨by rw [hn, ht]; rfl, by rw [hn]; simpa [cap] using hcap⟩, ?_⟩
  · rw [ht, hn]
    simp only [alphabetTrie, List.map_cons, List.map_map]
    rfl
  · rw [ht]
    intro n hm e he
    simp only [alphabetTrie, List.mem_cons, List.mem_map, List.mem_range] at hm
    rcases hm with rfl | ⟨i, _, rfl⟩
    · obtain ⟨i, _, rfl⟩ := List.mem_map.1 he
      rfl
    · cases he
  · intro b
    rw [ht, trieSearch_alphabet (le_refl _)]
    have := b.isLt
    simp only [show b.toNat < 256 from b.isLt, if_true, Option.isSome_some]
  · intro p c h
    rw [ht, trieSearch_alphabet (le_refl _)] at h
    rw [hn]
    match p, h with
    | [b], _ => simp

theorem Inv.cStart {s : State} (i : Inv s) (h : s.ph = .idle ∨ s.ph = .done) : Inv (cStart s) := by
  rw [cStart_eq i.config]
  have hb := i.bits.1
  simp only [minBits] at hb
  have hpos : 256 ≤ 2 ^ s.config.maxBits := i.encRange.1.trans i.encRange.2
  have hp : (2 : Nat) ^ (s.config.maxBits + 1) = 2 * 2 ^ s.config.maxBits := by rw [Nat.pow_succ]; omega
  refine ⟨i.config, ?_, i.bits, by simp, ⟨le_refl _, hpos⟩, i.oldLength, i.decRange, ⟨Nat.zero_le _, Nat.one_pos⟩,
    i.unpacker, trieInv_alphabetTrie (le_refl _), ?_, i.table, i.entries, fun _ => compInv_start ?_ rfl rfl rfl, ?_⟩
  · have := i.cause
    rcases h with h | h <;> rw [h] at this <;> simpa using this
  · simp only [Config.trieNodes, trAlloc_alphabetTrie]; omega
  · simp only; omega
  · intro hd
    simp at hd

/-- The loop of C.RUN in a sound session: it ends in DONE with the source used up, the packer flushed and the session's
invariants as they were; nothing of the decompression side has changed (R176, R178, R264). -/
theorem cLoop_spec {n : Nat} {s : State} (i : Inv s) (hp : s.ph = .comp) (hn : s.src.length < n) :
    ∃ (x : List Byte) (tr : Trie) (S : Phrase) (k : Nat),
      cLoop n s = .done () { s with
        ph := .done, src := [], snk := s.snk ++ x, pk := BitBuf.empty, trie := tr, compS := S, encNext := k } ∧
      CompInv { s with ph := .done, compS := S, encNext := k, trie := tr } ∧
      Inv { s with ph := .done, src := [], snk := s.snk ++ x, pk := BitBuf.empty, trie := tr, compS := S, encNext := k } := by
  induction n generalizing s with
  | zero => omega
  | succ n ih =>
    rcases srcPull_cases s with ⟨hs, e⟩ | ⟨b, bs, hs, e⟩
    · obtain ⟨x, hf, hi, _⟩ := cFinish_spec i hp
      have hq : ({ s with src := [] } : State) = s := by rw [← hs]
      refine ⟨x, s.trie, s.compS, s.encNext, ?_, (i.comp hp).frame .done s.fcause s.pk s.up s.src s.snk s.upEos s.host s.out, ?_⟩
      · have : cLoop (n + 1) s = cLoop n { s with snk := s.snk ++ x, pk := BitBuf.empty, ph := .done } := by
          simp [cLoop, hp, cStep, e, hf]
        rw [this]
        cases n <;> simp [cLoop, hs]
      · simpa [hs] using hi
    · have hl : cLoop (n + 1) s = (cConsume b { s with src := bs }).andThen fun _ s1 => cLoop n s1 := by
        rw [cLoop, if_pos hp]
        simp only [cStep, e]
      rw [hl]
      have i1 : Inv { s with src := bs } := i.frame bs s.snk s.upEos s.host s.out
      have hp1 : ({ s with src := bs } : State).ph = .comp := hp
      have hn1 : bs.length < n := by rw [hs] at hn; simpa using hn
      cases hc : trieSearch s.trie (s.compS ++ [b]) with
      | some c =>
        have hstep := cConsume_found (s := { s with src := bs }) hc
        have i2 : Inv { s with src := bs, compS := s.compS ++ [b] } := i1.extendMatch hp1 hc
        obtain ⟨x, tr, S, k, h1, h2, h3⟩ := ih i2 hp hn1
        refine ⟨x, tr, S, k, ?_, h2.frame .done s.fcause s.pk s.up s.src s.snk s.upEos s.host s.out, h3⟩
        rw [hstep]
        exact h1
      | none =>
        obtain ⟨code, y, pk, tr1, m, _, _, hstep, _, _, _, _, _, i2⟩ := cConsume_missed i1 hp1 hc
        obtain ⟨x, tr, S, k, h1, h2, h3⟩ := ih i2 hp hn1
        refine ⟨y ++ x, tr, S, k, ?_, h2.frame .done s.fcause s.pk s.up s.src s.snk s.upEos s.host s.out, ?_⟩
        · rw [← List.append_assoc, hstep]
          exact h1
        · rw [← List.append_assoc]; exact h3

end Sys2Proof.Machine
end

