-- ==== Sys2Proof/Laws/Decompress.lean ====
section
/-! SUPPORT. The decompression driver: what its procedures come to in a sound state, and that a pass keeps a session sound
(R190 to R199). -/

namespace Sys2Proof.Machine

/-- Fault entry keeps a state sound (R228). -/
theorem Inv.faultEntry {s : State} (i : Inv s) {c : Cause} (hc : c ≠ .none) : Inv (faultEntry c s) :=
  ⟨i.config, by simp [Machine.faultEntry, hc], i.bits, i.prefixLength, i.encRange, i.oldLength, i.decRange, i.packer,
    i.unpacker, i.trie, i.arena, i.table, i.entries, fun h => by simp [Machine.faultEntry] at h,
    fun h => by simp [Machine.faultEntry] at h⟩

/-- A response keeps a state sound. -/
theorem Inv.respond {s : State} (i : Inv s) (r : Response) : Inv (respond r s) :=
  i.frame s.src s.snk s.upEos s.host (.response r)

/-- The decompression side may change to another sound one in a decompression session, or as it ends. -/
theorem Inv.withDecompression {s : State} (i : Inv s) (h : s.ph = .dec0 ∨ s.ph = .dec1) {ph : Phase}
    (hph : ph = .dec0 ∨ ph = .dec1 ∨ ph = .done) {old : Phrase} {n : Nat} {rd : List Phrase} {up : BitBuf} (src snk : List Byte) (eos : Bool)
    (hup : up.cnt ≤ s.config.maxBits ∧ BufClean up) (hold : old.length ≤ s.config.phraseMax)
    (hn : 256 ≤ n ∧ n ≤ cap s) (hrd : rd.length = n) (hent : ∀ p ∈ rd, 1 ≤ p.length ∧ p.length ≤ s.config.phraseMax)
    (hd : ph = .dec0 ∨ ph = .dec1 → DecInv { s with ph := ph, old := old, decNext := n, rd := rd, up := up }) :
    Inv { s with ph := ph, old := old, decNext := n, rd := rd, up := up, src := src, snk := snk, upEos := eos } := by
  have hcap := cap_le i
  refine ⟨i.config, ?_, i.bits, i.prefixLength, i.encRange, hold, ⟨hn.1, ?_⟩, i.packer, hup, i.trie, i.arena, ?_,
    hent, ?_, fun hd' => (hd hd').frame ..⟩
  · have := i.cause
    rcases h with h | h <;> rw [h] at this <;> rcases hph with rfl | rfl | rfl <;> simpa using this
  · simp only; omega
  · simp only [rdLen, Config.rdSize]; omega
  · intro hc
    rcases hph with rfl | rfl | rfl <;> simp at hc

section
variable {s : State}

/-- R192: the width of the next read is a width the unpacker accepts, and 9 or more. -/
theorem dWidth_range (i : Inv s) (hp : s.ph = .dec0 ∨ s.ph = .dec1) : 9 ≤ dWidth s ∧ dWidth s ≤ s.config.maxW := by
  have d := i.dec hp
  apply codeWidth_range i
  have := alphabet_le_cap i
  split
  · omega
  · simp only [widthCounter]
    have := d.counter.2
    split <;> omega

/-- R71: an entry below 256 is its byte. -/
theorem DecInv.entry_byte (d : DecInv s) {c : Nat} (h : c < 256) : rdLookup c s = some [BitVec.ofNat 8 c] := by
  have := congrArg (fun l => l[c]?) d.alphabet
  simp only [List.getElem?_take, h, if_true, Machine.alphabet] at this
  simpa [rdLookup, h] using this

/-- R194 step 1, R191: the first code, once read. -/
theorem dFirst_spec (i : Inv s) (hp : s.ph = .dec0) (c : Nat) :
    (c < 256 → dFirst c s = .done Response.ok { s with snk := s.snk ++ [BitVec.ofNat 8 c], old := [BitVec.ofNat 8 c], ph := .dec1 } ∧
      Inv { s with snk := s.snk ++ [BitVec.ofNat 8 c], old := [BitVec.ofNat 8 c], ph := .dec1 }) ∧
    (256 ≤ c → dFirst c s = .raised .invalidCode s) := by
  have d := i.dec (.inl hp)
  have hn := d.first hp
  constructor
  · intro h
    refine ⟨by simp [dFirst, d.entry_byte h, snkPushAll_eq], ?_⟩
    have := i.withDecompression (.inl hp) (ph := .dec1) (.inr (.inl rfl)) (old := [BitVec.ofNat 8 c]) (n := s.decNext) (rd := s.rd) (up := s.up)
      s.src (s.snk ++ [BitVec.ofNat 8 c]) s.upEos i.unpacker (by simp [Config.phraseMax]; exact Nat.one_le_two_pow)
      ⟨i.decRange.1, d.counter.2⟩ d.counter.1.symm i.entries
      (fun _ => ⟨d.counter, by simp, by simp, d.alphabet, d.short, fun _ _ => by simp only; rw [hn]; simp, d.held⟩)
    exact this
  · intro h
    have : rdLookup c s = none := by
      simp only [rdLookup]
      rw [List.getElem?_eq_none]
      have := d.counter.1
      simp only [rdLen] at this
      omega
    simp [dFirst, this]

/-- R193, R195: what the code stands for. -/
def resolved (c : Nat) (s : State) : Phrase := (rdLookup c s).getD (s.old ++ s.old.take 1)

/-- R194 step 2, R193, R195: a later code, once read: resolved, pushed, the table extended while below CAP; or, where the rebuilt
phrase is too long, STORE_FULL with nothing changed (U6). -/
theorem dNext_spec (i : Inv s) (hp : s.ph = .dec1) (c : Nat) :
    (c < rdLen s ∨ s.old.length + 1 ≤ s.config.phraseMax →
      dNext c s = .done Response.ok { s with
        snk := s.snk ++ resolved c s, old := resolved c s
        rd := if s.decNext < cap s then s.rd ++ [s.old ++ (resolved c s).take 1] else s.rd
        decNext := if s.decNext < cap s then s.decNext + 1 else s.decNext } ∧
      Inv { s with
        snk := s.snk ++ resolved c s, old := resolved c s
        rd := if s.decNext < cap s then s.rd ++ [s.old ++ (resolved c s).take 1] else s.rd
        decNext := if s.decNext < cap s then s.decNext + 1 else s.decNext }) ∧
    (rdLen s ≤ c → s.config.phraseMax < s.old.length + 1 → dNext c s = .raised .storeFull s) := by
  have d := i.dec (.inr hp)
  have hold := d.previous hp
  have hcap := cap_le i
  have hlen := d.counter.1
  simp only [rdLen] at hlen
  obtain ⟨o, os, ho⟩ := List.exists_cons_of_ne_nil hold
  constructor
  · intro hok
    -- the resolution
    have hres : dResolve c s = .done (resolved c s) s ∧ resolved c s ≠ [] ∧
        (resolved c s).length ≤ s.config.phraseMax ∧
        (s.decNext < cap s → (resolved c s).length + 255 ≤ s.decNext + 1) := by
      by_cases hc : c < rdLen s
      · have hl : rdLookup c s = some (s.rd[c]'hc) := List.getElem?_eq_getElem hc
        have hm : s.rd[c]'hc ∈ s.rd := List.getElem_mem hc
        obtain ⟨h1, h2⟩ := i.entries _ hm
        have h3 := d.short _ hm
        simp only [resolved, hl, Option.getD_some, dResolve]
        refine ⟨trivial, ?_, h2, fun _ => by omega⟩
        intro h0
        rw [h0] at h1
        simp at h1
      · have hl : rdLookup c s = none := List.getElem?_eq_none (by simp only [rdLen] at hc; omega)
        have hlen1 : s.old.length + 1 ≤ s.config.phraseMax := hok.resolve_left hc
        have hn : ¬ s.config.phraseMax < s.old.length + 1 := by omega
        refine ⟨?_, ?_, ?_, ?_⟩
        · simp only [resolved, hl, Option.getD_none, dResolve, hn, if_false]
          simp [ho]
        · simp [resolved, hl, ho]
        · simp only [resolved, hl, Option.getD_none]
          simp [ho] at hlen1 ⊢
          omega
        · intro hg
          have := d.growing hp hg
          simp only [resolved, hl, Option.getD_none]
          simp [ho] at this ⊢
          omega
    obtain ⟨h1, h2, h3, h4⟩ := hres
    generalize hpp : resolved c s = p at h1 h2 h3 h4 ⊢
    obtain ⟨q, qs, rfl⟩ := List.exists_cons_of_ne_nil h2
    by_cases hg : s.decNext < cap s
    · have hgrow := d.growing hp hg
      have hcap' : s.decNext < 2 ^ s.config.maxBits := by omega
      have hext : dExtend (q :: qs) { s with snk := s.snk ++ q :: qs }
          = .done () { s with snk := s.snk ++ q :: qs, rd := s.rd ++ [s.old ++ [q]], decNext := s.decNext + 1 } := by
        have hg' : ({ s with snk := s.snk ++ q :: qs } : State).decNext < cap { s with snk := s.snk ++ q :: qs } := hg
        have e1 : ¬ (s.decNext ≠ rdLen { s with snk := s.snk ++ q :: qs }) := by
          simp only [rdLen]; omega
        have e2 : ¬ ((s.old ++ [q]).length < 1 ∨ s.config.phraseMax < (s.old ++ [q]).length) := by
          simp [Config.phraseMax]; omega
        have e3 : ¬ s.config.rdSize ≤ rdLen { s with snk := s.snk ++ q :: qs } := by
          simp only [rdLen, Config.rdSize]; omega
        simp only [dExtend, hg', if_true, rdExtend, e1, e2, e3, if_false, andThen_done]
      refine ⟨?_, ?_⟩
      · simp only [dNext, h1, andThen_done, snkPushAll_eq, hext, hg, if_true, List.take_succ_cons, List.take_zero]
      · simp only [hg, if_true, List.take_succ_cons, List.take_zero]
        have := i.withDecompression (.inr hp) (ph := .dec1) (.inr (.inl rfl)) (old := q :: qs) (n := s.decNext + 1)
          (rd := s.rd ++ [s.old ++ [q]]) (up := s.up) s.src (s.snk ++ q :: qs) s.upEos i.unpacker h3
          ⟨by have := i.decRange.1; omega, by omega⟩ (by simp; omega)
          (fun p hp' => by
            rcases List.mem_append.1 hp' with hp' | hp'
            · exact i.entries p hp'
            · obtain rfl := List.mem_singleton.1 hp'
              simp [Config.phraseMax]; omega)
          (fun _ => ⟨⟨by simp [rdLen]; omega, by simp only [cap] at hg ⊢; omega⟩, by simp, by simp, ?_, ?_, ?_, d.held⟩)
        · rw [← hp] at this
          exact this
        · simp only
          rw [List.take_append_of_le_length (by have := i.decRange.1; omega)]
          exact d.alphabet
        · intro p hp'
          simp only at hp' ⊢
          rcases List.mem_append.1 hp' with hp' | hp'
          · have := d.short p hp'; omega
          · obtain rfl := List.mem_singleton.1 hp'
            simp; omega
        · intro _ _
          exact h4 hg
    · have hext : dExtend (q :: qs) { s with snk := s.snk ++ q :: qs } = .done () { s with snk := s.snk ++ q :: qs } := by
        have hg' : ¬ ({ s with snk := s.snk ++ q :: qs } : State).decNext < cap { s with snk := s.snk ++ q :: qs } := hg
        simp only [dExtend, hg', if_false]
      refine ⟨?_, ?_⟩
      · simp only [dNext, h1, andThen_done, snkPushAll_eq, hext, hg, if_false]
      · simp only [hg, if_false]
        have := i.withDecompression (.inr hp) (ph := .dec1) (.inr (.inl rfl)) (old := q :: qs) (n := s.decNext)
          (rd := s.rd) (up := s.up) s.src (s.snk ++ q :: qs) s.upEos i.unpacker h3
          ⟨i.decRange.1, d.counter.2⟩ d.counter.1.symm i.entries
          (fun _ => ⟨d.counter, by simp, by simp, d.alphabet, d.short, fun _ h => absurd h hg, d.held⟩)
        rw [← hp] at this
        exact this
  · intro hc hfull
    have hl : rdLookup c s = none := List.getElem?_eq_none (by simp only [rdLen] at hc; omega)
    simp [dNext, dResolve, hl, hfull]

/-- R194: D.STEP's pass with a whole code left: it is read at the width of the counter, and resolved by step 1 or step 2. -/
theorem dStep_code (i : Inv s) (hp : s.ph = .dec0 ∨ s.ph = .dec1) (hl : dWidth s ≤ (pendingBits s).length) :
    ∃ (c k : Nat) (b : BitBuf),
      dStep s = (if s.ph = .dec0 then dFirst c { s with up := b, src := s.src.drop k }
        else dNext c { s with up := b, src := s.src.drop k }) ∧
      c < 2 ^ dWidth s ∧ b.cnt ≤ 7 ∧ BufClean b ∧ Inv { s with up := b, src := s.src.drop k } ∧
      pendingBits s = bitsOf (dWidth s) c ++ (bitsOf b.cnt b.acc ++ byteBits (s.src.drop k)) := by
  have d := i.dec hp
  obtain ⟨hw1, hw2⟩ := dWidth_range i hp
  obtain ⟨c, k, b, he, hc, hcl, h7, hbits⟩ := upRead_code (s := s) ⟨by omega, hw2⟩ i.unpacker.2 hl
  have h7 : b.cnt ≤ 7 := by have := d.held; omega
  refine ⟨c, k, b, by simp only [dStep, he, andThen_done], hc, h7, hcl, ?_, hbits⟩
  have hb9 : 9 ≤ s.config.maxBits := i.config.1
  have := i.withDecompression hp (ph := s.ph) (by tauto) (old := s.old) (n := s.decNext) (rd := s.rd) (up := b) (s.src.drop k) s.snk s.upEos
    ⟨by omega, hcl⟩ i.oldLength ⟨i.decRange.1, d.counter.2⟩ d.counter.1.symm i.entries
    (fun _ => ⟨d.counter, d.first, d.previous, d.alphabet, d.short, d.growing, h7⟩)
  exact this

/-- R194 step 3, R196: D.STEP's pass at the end of the stream. -/
theorem dStep_end (i : Inv s) (hp : s.ph = .dec0 ∨ s.ph = .dec1) (hl : (pendingBits s).length < dWidth s) :
    ∃ b, dStep s = .done Response.finished { s with ph := .done, up := b, src := [], upEos := true } ∧
      BufClean b ∧ bitsOf b.cnt b.acc = pendingBits s ∧
      Inv { s with ph := .done, up := b, src := [], upEos := true } := by
  have d := i.dec hp
  obtain ⟨hw1, hw2⟩ := dWidth_range i hp
  obtain ⟨b, he, hcl, hbits⟩ := upRead_eos (s := s) ⟨by omega, hw2⟩ i.unpacker.2 hl
  have hcnt : b.cnt = (pendingBits s).length := by
    have := congrArg List.length hbits
    simpa using this
  refine ⟨b, by simp [dStep, he], hcl, hbits, ?_⟩
  have := i.withDecompression hp (ph := .done) (by tauto) (old := s.old) (n := s.decNext) (rd := s.rd) (up := b) [] s.snk true
    ⟨by simp only [Config.maxW] at hw2; omega, hcl⟩ i.oldLength ⟨i.decRange.1, d.counter.2⟩ d.counter.1.symm i.entries (by simp)
  exact this

/-- R92, R221: what the header's checks accept. -/
theorem headerFields_some {c : Config} {h : List Byte} {v : Bool} {fb : Nat} (he : headerFields c h = some (v, fb)) :
    9 ≤ fb ∧ fb ≤ c.maxBits := by
  match h, he with
  | [h0, h1, h2, h3, h4], he =>
    simp only [headerFields] at he
    split at he
    · cases he
    · split at he
      · cases he
      · rename_i hn
        simp only [Option.some.injEq, Prod.mk.injEq] at he
        simp only [minBits] at hn
        omega

/-- R190: D.START refuses the header, with the bytes pulled consumed, or opens a session. -/
theorem dStart_cases (s : State) :
    dStart s = .raised .invalidHeader { s with src := s.src.drop 5 } ∨
    ∃ v fb, 5 ≤ s.src.length ∧ headerFields s.config (s.src.take 5) = some (v, fb) ∧
      dStart s = .done () { s with
        cfgVar := v, cfgBits := fb, rd := alphabet, up := BitBuf.empty, upEos := false, old := [], decNext := 256
        ph := .dec0, src := s.src.drop 5 } := by
  by_cases h5 : 5 ≤ s.src.length
  · cases hf : headerFields s.config (s.src.take 5) with
    | none => exact .inl (by simp [dStart, srcPullMany_eq, h5, hf])
    | some p => exact .inr ⟨p.1, p.2, h5, rfl, by simp [dStart, srcPullMany_eq, h5, hf, rdInit, upClear]⟩
  · exact .inl (by simp [dStart, srcPullMany_eq, h5])

theorem alphabet_length : alphabet.length = 256 := by simp [alphabet]

/-- A decompression session just opened is sound (R199). -/
theorem Inv.dStarted (i : Inv s) (h : s.ph = .idle ∨ s.ph = .done) {v : Bool} {fb : Nat} (hfb : 9 ≤ fb ∧ fb ≤ s.config.maxBits)
    (src : List Byte) :
    Inv { s with cfgVar := v, cfgBits := fb, rd := alphabet, up := BitBuf.empty, upEos := false, old := [], decNext := 256
                 ph := .dec0, src := src } := by
  have hmem : ∀ p ∈ alphabet, p.length = 1 := by
    intro p hp
    obtain ⟨j, _, rfl⟩ := List.mem_map.1 hp
    rfl
  have hpos : 256 ≤ 2 ^ s.config.maxBits := i.encRange.1.trans i.encRange.2
  refine ⟨i.config, ?_, hfb, i.prefixLength, i.encRange, by simp, ⟨le_refl _, hpos⟩, i.packer,
    ⟨Nat.zero_le _, Nat.one_pos⟩, i.trie, i.arena, ?_, ?_, ?_, fun _ => ⟨⟨?_, ?_⟩, fun _ => rfl, by simp, ?_, ?_, by simp, Nat.zero_le _⟩⟩
  · have := i.cause
    rcases h with h | h <;> rw [h] at this <;> simpa using this
  · simp only [rdLen, alphabet_length, Config.rdSize]; exact hpos
  · intro p hp
    rw [hmem p hp]
    exact ⟨le_refl _, by simp only [Config.phraseMax]; omega⟩
  · intro hc
    simp at hc
  · simp [rdLen, alphabet_length]
  · have : 2 ^ 9 ≤ 2 ^ fb := Nat.pow_le_pow_right (by omega) hfb.1
    simp only [cap]
    omega
  · simp only
    rw [List.take_of_length_le (by rw [alphabet_length])]
  · intro p hp
    rw [hmem p hp]

/-- What a decompression session may have changed: its own registers, the phase, and the streams, `src` shorter by bytes off
its front and `snk` longer at its end (R61 to R63). -/
structure Advanced (s t : State) : Prop where
  rest : t = { s with
    ph := t.ph, rd := t.rd, up := t.up, upEos := t.upEos, old := t.old, decNext := t.decNext, src := t.src, snk := t.snk }
  src : t.src <:+ s.src
  snk : s.snk <+: t.snk

theorem Advanced.refl (s : State) : Advanced s s := ⟨rfl, List.suffix_refl _, List.prefix_refl _⟩

theorem Advanced.trans {s t u : State} (h : Advanced s t) (h' : Advanced t u) : Advanced s u := by
  refine ⟨?_, h'.src.trans h.src, h.snk.trans h'.snk⟩
  rw [h'.rest, h.rest]

/-- A pass of D.STEP with a whole code left, summed up: a response OK with the session still open and at least one bit fewer
to read, or a fault of the body. -/
theorem dStep_advances (i : Inv s) (hp : s.ph = .dec0 ∨ s.ph = .dec1) (hl : dWidth s ≤ (pendingBits s).length) :
    (∃ t, dStep s = .done Response.ok t ∧ t.ph = .dec1 ∧ Inv t ∧ Advanced s t ∧
      (pendingBits t).length + dWidth s = (pendingBits s).length) ∨
    (∃ c t, dStep s = .raised c t ∧ (c = .invalidCode ∨ c = .storeFull) ∧ Inv t ∧ Advanced s t ∧ t.ph = s.ph ∧ t.snk = s.snk) := by
  obtain ⟨c, k, b, he, hc, h7, hcl, i1, hbits⟩ := dStep_code i hp hl
  have hlen := congrArg List.length hbits
  simp only [List.length_append, bitsOf_length] at hlen
  have hsrc : s.src.drop k <:+ s.src := List.drop_suffix _ _
  have adv1 : Advanced s { s with up := b, src := s.src.drop k } := ⟨rfl, hsrc, List.prefix_refl _⟩
  by_cases h0 : s.ph = .dec0
  · rw [if_pos h0] at he
    obtain ⟨hok, hbad⟩ := dFirst_spec i1 h0 c
    by_cases h256 : c < 256
    · obtain ⟨h1, h2⟩ := hok h256
      refine .inl ⟨_, he.trans h1, rfl, h2, ⟨rfl, hsrc, List.prefix_append _ _⟩, ?_⟩
      simp only [pendingBits, List.length_append, bitsOf_length] at hlen ⊢
      omega
    · exact .inr ⟨_, _, he.trans (hbad (by omega)), .inl rfl, i1, adv1, rfl, rfl⟩
  · rw [if_neg h0] at he
    have h1 : s.ph = .dec1 := hp.resolve_left h0
    obtain ⟨hok, hbad⟩ := dNext_spec i1 h1 c
    by_cases hc1 : c < rdLen s ∨ s.old.length + 1 ≤ s.config.phraseMax
    · obtain ⟨h2, h3⟩ := hok hc1
      refine .inl ⟨_, he.trans h2, h1, h3, ⟨rfl, hsrc, List.prefix_append _ _⟩, ?_⟩
      simp only [pendingBits, List.length_append, bitsOf_length] at hlen ⊢
      omega
    · simp only [not_or, Nat.not_lt, Nat.not_le] at hc1
      exact .inr ⟨_, _, he.trans (hbad hc1.1 hc1.2), .inr rfl, i1, adv1, rfl, rfl⟩

/-- The loop of D.RUN in a sound session: it ends in DONE with the source used up, or with a fault of the body (R197). -/
theorem dLoop_spec {n : Nat} (i : Inv s) (hp : s.ph = .dec0 ∨ s.ph = .dec1) (hn : (pendingBits s).length < n) :
    ∃ t, Inv t ∧ Advanced s t ∧
      ((dLoop n s = .done () t ∧ t.ph = .done ∧ t.src = [] ∧ t.upEos = true) ∨
       ∃ c, (c = .invalidCode ∨ c = .storeFull) ∧ dLoop n s = .raised c t) := by
  induction n generalizing s with
  | zero => omega
  | succ n ih =>
    have hl : dLoop (n + 1) s = (dStep s).andThen fun _ s1 => dLoop n s1 := by rw [dLoop, if_pos hp]
    rw [hl]
    by_cases hw : dWidth s ≤ (pendingBits s).length
    · have := (dWidth_range i hp).1
      rcases dStep_advances i hp hw with ⟨t, he, ht, it, adv, hlen⟩ | ⟨c, t, he, hc, it, adv, _⟩
      · obtain ⟨u, iu, adv', hu⟩ := ih it (.inr ht) (by omega)
        rw [he]
        exact ⟨u, iu, adv.trans adv', hu⟩
      · rw [he]
        exact ⟨t, it, adv, .inr ⟨c, hc, rfl⟩⟩
    · obtain ⟨b, he, _, _, it⟩ := dStep_end i hp (by omega)
      rw [he]
      refine ⟨_, it, ⟨rfl, List.nil_suffix, List.prefix_refl _⟩, .inl ⟨?_, rfl, rfl, rfl⟩⟩
      cases n <;> simp [dLoop]

end

/-! ### Sound states to begin from -/

/-- The block after reset and a legal configuration, with a source bound, is sound. -/
theorem inv_configured (c : Config) (hc : c.legal) (v : Bool) (fb : Nat) (h : 9 ≤ fb ∧ fb ≤ c.maxBits) (src : List Byte) :
    Inv { State.reset with config := c, cfgVar := v, cfgBits := fb, src := src } := by
  have hpos : 2 ^ 9 ≤ 2 ^ c.maxBits := Nat.pow_le_pow_right (by omega) hc.1
  refine ⟨hc, by simp [State.reset], h, by simp [State.reset], ⟨le_refl _, ?_⟩, by simp [State.reset], ⟨le_refl _, ?_⟩,
    ⟨Nat.zero_le _, Nat.one_pos⟩, ⟨Nat.zero_le _, Nat.one_pos⟩, trieInv_cleared, ?_, Nat.zero_le _, by simp [State.reset], ?_, ?_⟩
  · simp only [State.reset]; omega
  · simp only [State.reset]; omega
  · exact Nat.one_le_two_pow
  · intro h'; cases h'
  · intro h'; rcases h' with h' | h' <;> cases h'

/-- In a sound session some stored string has an extension by the byte 0 that is not stored. -/
theorem exists_missed {s : State} (i : Inv s) (hp : s.ph = .comp) :
    ∃ S, (trieSearch s.trie S).isSome ∧ trieSearch s.trie (S ++ [0]) = none := by
  have k := i.comp hp
  by_contra hno
  have hall : ∀ S, (trieSearch s.trie S).isSome → (trieSearch s.trie (S ++ [0])).isSome := by
    intro S hS
    by_contra h
    exact hno ⟨S, hS, by simpa using h⟩
  have hlong : ∀ n, ∃ S : Phrase, S.length = n + 1 ∧ (trieSearch s.trie S).isSome := by
    intro n
    induction n with
    | zero => exact ⟨[0], rfl, k.alphabet 0⟩
    | succ n ih =>
      obtain ⟨S, hl, hS⟩ := ih
      exact ⟨S ++ [0], by simp [hl], hall S hS⟩
  obtain ⟨S, hl, hS⟩ := hlong s.encNext
  obtain ⟨c, hc⟩ := Option.isSome_iff_exists.1 hS
  have := k.short S c hc
  omega

/-- A session can be brought to any counter up to CAP, with a match held whose extension by the byte 0 is not stored. -/
theorem exists_session (v : Bool) (n : Nat) (hn : 256 ≤ n ∧ n ≤ 512) (src : List Byte) :
    ∃ s, Inv s ∧ s.ph = .comp ∧ s.cfgVar = v ∧ s.cfgBits = 9 ∧ s.config = Config.default ∧ s.encNext = n ∧ s.src = src ∧
      trieSearch s.trie (s.compS ++ [0]) = none := by
  have hmatch : ∀ s, Inv s → s.ph = .comp → ∃ S, Inv { s with compS := S, src := src } ∧ trieSearch s.trie (S ++ [0]) = none := by
    intro s i hp
    have k := i.comp hp
    obtain ⟨S, hS, hmiss⟩ := exists_missed i hp
    have := i.withCompression hp (ph := .comp) (.inl rfl) (S := S) (n := s.encNext) i.packer i.trie
      ⟨k.slots, k.oneByte, k.alphabet, .inr hS, k.counter, k.short⟩ i.encRange.1
    rw [← hp] at this
    exact ⟨S, this.frame src s.snk s.upEos s.host s.out, hmiss⟩
  obtain ⟨d, rfl⟩ : ∃ d, n = 256 + d := ⟨n - 256, by omega⟩
  induction d with
  | zero =>
    have i := (inv_configured Config.default (by decide) v 9 (by decide) src).cStart (.inl rfl)
    rw [cStart_eq (show Config.default.legal by decide)] at i
    obtain ⟨S, i2, hm⟩ := hmatch _ i rfl
    exact ⟨_, i2, rfl, rfl, rfl, rfl, rfl, rfl, hm⟩
  | succ d ih =>
    obtain ⟨s, i, hp, hv, hb, hc, he, _, hm⟩ := ih (by omega)
    obtain ⟨code, x, pk, tr, m, _, _, _, _, _, _, _, hgrow, i2⟩ := cConsume_missed i hp hm
    have hcap : s.encNext < cap s := by simp only [cap, hb]; omega
    obtain ⟨rfl, _, _⟩ := hgrow hcap
    obtain ⟨S, i3, hm3⟩ := hmatch _ i2 hp
    exact ⟨_, i3, hp, hv, hb, hc, by simp only [he]; omega, rfl, hm3⟩

end Sys2Proof.Machine
end

