-- ==== Sys2Proof/Laws/PerInstr.lean ====
section
/-! SUPPORT. The per-instruction family EncodedFields: what the encoder writes for each command (R106, R108, R112). -/

namespace Sys2Proof.Laws.EncodedFields

open Sys2Proof Sys2Proof.Machine

/-- The encoder writes the command's opcode, zeros in the reserved field and in every operand field the command does not
use, and an empty phrase where it uses none (R106, R112). -/
def Statement (i : Instr) : Prop :=
  opField (encode i).word = (fieldsOf i).op ∧ opField (encode i).word ∈ listedOpcodes ∧
  zField (encode i).word = 0 ∧
  ((usedFields i).a = false → aField (encode i).word = 0) ∧
  ((usedFields i).b = false → bField (encode i).word = 0) ∧
  ((usedFields i).pin = false → (encode i).pin = [])

theorem append_toNat {n m : Nat} (x : BitVec n) (y : BitVec m) :
    (x ++ y).toNat = x.toNat * 2 ^ m + y.toNat := by
  rw [BitVec.toNat_append, ← Nat.shiftLeft_add_eq_or_of_lt y.isLt, Nat.shiftLeft_eq]

/-- The number of a packed word. -/
theorem packFields_toNat (f : CmdFields) :
    (packFields f).toNat = f.op.toNat * 2 ^ 56 + f.a.toNat * 2 ^ 32 + f.b.toNat := by
  show ((f.op ++ 0#16 ++ f.a) ++ f.b : BitVec (8 + 16 + 8 + 32)).toNat = _
  rw [append_toNat, append_toNat, append_toNat]
  simp
  omega

/-- The fields of a packed word. -/
theorem fields_packFields (f : CmdFields) :
    opField (packFields f) = f.op ∧ zField (packFields f) = 0 ∧ aField (packFields f) = f.a ∧
      bField (packFields f) = f.b := by
  have h := packFields_toNat f
  have := f.op.isLt
  have := f.a.isLt
  have := f.b.isLt
  refine ⟨?_, ?_, ?_, ?_⟩ <;>
    (apply BitVec.eq_of_toNat_eq
     simp [opField, zField, aField, bField, h, Nat.shiftRight_eq_div_pow]
     try omega)

/-- The statement holds once the fields do. -/
theorem of_fields {i : Instr} (ho : (fieldsOf i).op ∈ listedOpcodes)
    (ha : (usedFields i).a = false → (fieldsOf i).a = 0) (hb : (usedFields i).b = false → (fieldsOf i).b = 0)
    (hp : (usedFields i).pin = false → (fieldsOf i).pin = []) : Statement i := by
  obtain ⟨h1, h2, h3, h4⟩ := fields_packFields (fieldsOf i)
  exact ⟨h1, by rw [encode, h1]; exact ho, h2, fun h => h3.trans (ha h), fun h => h4.trans (hb h), hp⟩

theorem ctlNop : Statement .ctlNop := of_fields (by simp [fieldsOf, listedOpcodes]) (by simp [usedFields, fieldsOf]) (by simp [usedFields, fieldsOf])
  (by simp [usedFields, fieldsOf])

theorem ctlRst : Statement .ctlRst := of_fields (by simp [fieldsOf, listedOpcodes]) (by simp [usedFields, fieldsOf]) (by simp [usedFields, fieldsOf])
  (by simp [usedFields, fieldsOf])

theorem ctlCfg (var : Byte) (fixedBits : Code) : Statement (.ctlCfg var fixedBits) := of_fields (by simp [fieldsOf, listedOpcodes]) (by simp [usedFields, fieldsOf]) (by simp [usedFields, fieldsOf])
  (by simp [usedFields, fieldsOf])

theorem trieClr : Statement .trieClr := of_fields (by simp [fieldsOf, listedOpcodes]) (by simp [usedFields, fieldsOf]) (by simp [usedFields, fieldsOf])
  (by simp [usedFields, fieldsOf])

theorem trieInit : Statement .trieInit := of_fields (by simp [fieldsOf, listedOpcodes]) (by simp [usedFields, fieldsOf]) (by simp [usedFields, fieldsOf])
  (by simp [usedFields, fieldsOf])

theorem trieIns (phrase : Phrase) (code : Code) : Statement (.trieIns phrase code) := of_fields (by simp [fieldsOf, listedOpcodes]) (by simp [usedFields, fieldsOf]) (by simp [usedFields, fieldsOf])
  (by simp [usedFields, fieldsOf])

theorem trieSrch (phrase : Phrase) : Statement (.trieSrch phrase) := of_fields (by simp [fieldsOf, listedOpcodes]) (by simp [usedFields, fieldsOf]) (by simp [usedFields, fieldsOf])
  (by simp [usedFields, fieldsOf])

theorem trieSize : Statement .trieSize := of_fields (by simp [fieldsOf, listedOpcodes]) (by simp [usedFields, fieldsOf]) (by simp [usedFields, fieldsOf])
  (by simp [usedFields, fieldsOf])

theorem rdInit : Statement .rdInit := of_fields (by simp [fieldsOf, listedOpcodes]) (by simp [usedFields, fieldsOf]) (by simp [usedFields, fieldsOf])
  (by simp [usedFields, fieldsOf])

theorem rdExt (code : Code) (phrase : Phrase) : Statement (.rdExt code phrase) := of_fields (by simp [fieldsOf, listedOpcodes]) (by simp [usedFields, fieldsOf]) (by simp [usedFields, fieldsOf])
  (by simp [usedFields, fieldsOf])

theorem rdLkp (code : Code) : Statement (.rdLkp code) := of_fields (by simp [fieldsOf, listedOpcodes]) (by simp [usedFields, fieldsOf]) (by simp [usedFields, fieldsOf])
  (by simp [usedFields, fieldsOf])

theorem pkClr : Statement .pkClr := of_fields (by simp [fieldsOf, listedOpcodes]) (by simp [usedFields, fieldsOf]) (by simp [usedFields, fieldsOf])
  (by simp [usedFields, fieldsOf])

theorem pkEmit (code : Code) (width : Byte) : Statement (.pkEmit code width) := of_fields (by simp [fieldsOf, listedOpcodes]) (by simp [usedFields, fieldsOf]) (by simp [usedFields, fieldsOf])
  (by simp [usedFields, fieldsOf])

theorem pkFlush : Statement .pkFlush := of_fields (by simp [fieldsOf, listedOpcodes]) (by simp [usedFields, fieldsOf]) (by simp [usedFields, fieldsOf])
  (by simp [usedFields, fieldsOf])

theorem upClr : Statement .upClr := of_fields (by simp [fieldsOf, listedOpcodes]) (by simp [usedFields, fieldsOf]) (by simp [usedFields, fieldsOf])
  (by simp [usedFields, fieldsOf])

theorem upRead (width : Byte) : Statement (.upRead width) := of_fields (by simp [fieldsOf, listedOpcodes]) (by simp [usedFields, fieldsOf]) (by simp [usedFields, fieldsOf])
  (by simp [usedFields, fieldsOf])

theorem widGet (n : Code) : Statement (.widGet n) := of_fields (by simp [fieldsOf, listedOpcodes]) (by simp [usedFields, fieldsOf]) (by simp [usedFields, fieldsOf])
  (by simp [usedFields, fieldsOf])

theorem cStart : Statement .cStart := of_fields (by simp [fieldsOf, listedOpcodes]) (by simp [usedFields, fieldsOf]) (by simp [usedFields, fieldsOf])
  (by simp [usedFields, fieldsOf])

theorem cStep : Statement .cStep := of_fields (by simp [fieldsOf, listedOpcodes]) (by simp [usedFields, fieldsOf]) (by simp [usedFields, fieldsOf])
  (by simp [usedFields, fieldsOf])

theorem cRun : Statement .cRun := of_fields (by simp [fieldsOf, listedOpcodes]) (by simp [usedFields, fieldsOf]) (by simp [usedFields, fieldsOf])
  (by simp [usedFields, fieldsOf])

theorem dStart : Statement .dStart := of_fields (by simp [fieldsOf, listedOpcodes]) (by simp [usedFields, fieldsOf]) (by simp [usedFields, fieldsOf])
  (by simp [usedFields, fieldsOf])

theorem dStep : Statement .dStep := of_fields (by simp [fieldsOf, listedOpcodes]) (by simp [usedFields, fieldsOf]) (by simp [usedFields, fieldsOf])
  (by simp [usedFields, fieldsOf])

theorem dRun : Statement .dRun := of_fields (by simp [fieldsOf, listedOpcodes]) (by simp [usedFields, fieldsOf]) (by simp [usedFields, fieldsOf])
  (by simp [usedFields, fieldsOf])

end Sys2Proof.Laws.EncodedFields
end

