-- ==== Sys2Proof/Laws/Sides.lean ====
section
/-! SUPPORT. What the decompression driver never reads nor writes (R61): a session comes to the same whatever that part of
the state holds. -/

namespace Sys2Proof.Machine

/-- `s` with everything the decompression driver never touches taken from `c`: the compression side, the fault cause, and
the model's own `host` and `out`. -/
def withUntouched (c s : State) : State :=
  { s with
    fcause := c.fcause, compS := c.compS, encNext := c.encNext, pk := c.pk, trie := c.trie, host := c.host, out := c.out }

/-- The state a procedure leaves, changed. -/
def Proc.mapState {α : Type} (f : State → State) : Proc α → Proc α
  | .done a s => .done a (f s)
  | .raised x s => .raised x (f s)
  | .stuck x => .stuck x

@[simp] theorem mapState_done {α : Type} (f : State → State) (a : α) (s : State) :
    (Proc.done a s).mapState f = .done a (f s) := rfl
@[simp] theorem mapState_raised {α : Type} (f : State → State) (x : Cause) (s : State) :
    (Proc.raised x s : Proc α).mapState f = .raised x (f s) := rfl
@[simp] theorem mapState_stuck {α : Type} (f : State → State) (x : Fault) :
    (Proc.stuck x : Proc α).mapState f = .stuck x := rfl

/-- Where each next procedure comes to the same in a changed state, so do the two after one another. -/
theorem andThen_mapState {α β : Type} (f : State → State) (p : Proc α) (k : α → State → Proc β)
    (h : ∀ a s, k a (f s) = (k a s).mapState f) : (p.mapState f).andThen k = (p.andThen k).mapState f := by
  cases p with
  | done a s => exact h a s
  | raised x s => rfl
  | stuck x => rfl

variable (c s : State)

@[simp] theorem withUntouched_ph : (withUntouched c s).ph = s.ph := rfl
@[simp] theorem withUntouched_cfgVar : (withUntouched c s).cfgVar = s.cfgVar := rfl
@[simp] theorem withUntouched_cfgBits : (withUntouched c s).cfgBits = s.cfgBits := rfl
@[simp] theorem withUntouched_old : (withUntouched c s).old = s.old := rfl
@[simp] theorem withUntouched_decNext : (withUntouched c s).decNext = s.decNext := rfl
@[simp] theorem withUntouched_up : (withUntouched c s).up = s.up := rfl
@[simp] theorem withUntouched_upEos : (withUntouched c s).upEos = s.upEos := rfl
@[simp] theorem withUntouched_rd : (withUntouched c s).rd = s.rd := rfl
@[simp] theorem withUntouched_src : (withUntouched c s).src = s.src := rfl
@[simp] theorem withUntouched_snk : (withUntouched c s).snk = s.snk := rfl
@[simp] theorem withUntouched_config : (withUntouched c s).config = s.config := rfl
@[simp] theorem withUntouched_self : withUntouched s s = s := rfl

theorem snkPushAll_withUntouched (p : Phrase) : snkPushAll p (withUntouched c s) = withUntouched c (snkPushAll p s) := by
  induction p generalizing s with
  | nil => rfl
  | cons b bs ih => exact ih (snkPush b s)

theorem upFill_withUntouched (w n : Nat) :
    upFill w n (withUntouched c s) = ((upFill w n s).1, withUntouched c (upFill w n s).2) := by
  induction n generalizing s with
  | zero => rfl
  | succ n ih =>
    rw [upFill, upFill]
    by_cases h : s.up.cnt < w
    · rw [if_pos (show (withUntouched c s).up.cnt < w from h), if_pos h, srcPull, srcPull, withUntouched_src]
      cases s.src with
      | nil => rfl
      | cons b bs => exact ih { s with src := bs, up := ⟨(s.up.acc <<< 8) ||| b.toNat, s.up.cnt + 8⟩ }
    · rw [if_neg (show ¬ (withUntouched c s).up.cnt < w from h), if_neg h]

theorem upRead_withUntouched (w : Nat) : upRead w (withUntouched c s) = (upRead w s).mapState (withUntouched c) := by
  rw [upRead, upRead, upFill_withUntouched]
  by_cases h : widthLegal s.config w = false
  · rw [if_pos h, if_pos (show widthLegal (withUntouched c s).config w = false from h)]; rfl
  · rw [if_neg h, if_neg (show ¬ widthLegal (withUntouched c s).config w = false from h)]
    obtain ⟨b, s1⟩ := upFill w w s
    cases b <;> rfl

theorem rdExtend_withUntouched (n : Nat) (p : Phrase) :
    rdExtend n p (withUntouched c s) = (rdExtend n p s).mapState (withUntouched c) := by
  rw [rdExtend, rdExtend, show rdLen (withUntouched c s) = rdLen s from rfl]
  by_cases h1 : n ≠ rdLen s
  · rw [if_pos h1, if_pos h1]; rfl
  rw [if_neg h1, if_neg h1]
  by_cases h2 : p.length < 1 ∨ s.config.phraseMax < p.length
  · rw [if_pos h2, if_pos (show p.length < 1 ∨ (withUntouched c s).config.phraseMax < p.length from h2)]; rfl
  rw [if_neg h2, if_neg (show ¬ (p.length < 1 ∨ (withUntouched c s).config.phraseMax < p.length) from h2)]
  by_cases h3 : s.config.rdSize ≤ rdLen s
  · rw [if_pos h3, if_pos (show (withUntouched c s).config.rdSize ≤ rdLen s from h3)]; rfl
  · rw [if_neg h3, if_neg (show ¬ (withUntouched c s).config.rdSize ≤ rdLen s from h3)]; rfl

theorem dFirst_withUntouched (n : Nat) : dFirst n (withUntouched c s) = (dFirst n s).mapState (withUntouched c) := by
  simp only [dFirst, rdLookup, withUntouched_rd, snkPushAll_withUntouched]
  cases s.rd[n]? <;> rfl

theorem dResolve_withUntouched (n : Nat) : dResolve n (withUntouched c s) = (dResolve n s).mapState (withUntouched c) := by
  rw [dResolve, dResolve, show rdLookup n (withUntouched c s) = rdLookup n s from rfl]
  cases rdLookup n s with
  | some p => rfl
  | none =>
    by_cases h : s.config.phraseMax < s.old.length + 1
    · simp only
      rw [if_pos h, if_pos (show (withUntouched c s).config.phraseMax < (withUntouched c s).old.length + 1 from h)]; rfl
    · simp only
      rw [if_neg h, if_neg (show ¬ (withUntouched c s).config.phraseMax < (withUntouched c s).old.length + 1 from h),
        withUntouched_old]
      cases s.old <;> rfl

theorem dExtend_withUntouched (p : Phrase) : dExtend p (withUntouched c s) = (dExtend p s).mapState (withUntouched c) := by
  simp only [dExtend]
  by_cases h : s.decNext < cap s
  · rw [if_pos h, if_pos (show (withUntouched c s).decNext < cap (withUntouched c s) from h)]
    cases p with
    | nil => rfl
    | cons b bs =>
      simp only [rdExtend_withUntouched, withUntouched_decNext, withUntouched_old]
      exact andThen_mapState _ _ _ fun _ _ => rfl
  · rw [if_neg h, if_neg (show ¬ (withUntouched c s).decNext < cap (withUntouched c s) from h)]; rfl

theorem dNext_withUntouched (n : Nat) : dNext n (withUntouched c s) = (dNext n s).mapState (withUntouched c) := by
  rw [dNext, dResolve_withUntouched]
  refine andThen_mapState _ _ _ fun p s1 => ?_
  rw [snkPushAll_withUntouched, dExtend_withUntouched]
  exact andThen_mapState _ _ _ fun _ _ => rfl

/-- D.STEP comes to the same whatever the compression side holds. -/
theorem dStep_withUntouched : dStep (withUntouched c s) = (dStep s).mapState (withUntouched c) := by
  rw [dStep, show dWidth (withUntouched c s) = dWidth s from rfl, upRead_withUntouched]
  refine andThen_mapState _ _ _ fun r s1 => ?_
  cases r with
  | none => rfl
  | some n =>
    by_cases h : s.ph = .dec0
    · have h' : (withUntouched c s).ph = .dec0 := h
      simp only [if_pos h']
      exact dFirst_withUntouched c s1 n
    · have h' : ¬ (withUntouched c s).ph = .dec0 := h
      simp only [if_neg h']
      exact dNext_withUntouched c s1 n

/-- So do the passes of D.RUN. -/
theorem dLoop_withUntouched (n : Nat) : dLoop n (withUntouched c s) = (dLoop n s).mapState (withUntouched c) := by
  induction n generalizing s with
  | zero => rfl
  | succ n ih =>
    rw [dLoop, dLoop]
    by_cases h : s.ph = .dec0 ∨ s.ph = .dec1
    · rw [if_pos h, if_pos (show (withUntouched c s).ph = .dec0 ∨ (withUntouched c s).ph = .dec1 from h), dStep_withUntouched]
      exact andThen_mapState _ _ _ fun _ s1 => ih s1
    · rw [if_neg h, if_neg (show ¬ ((withUntouched c s).ph = .dec0 ∨ (withUntouched c s).ph = .dec1) from h)]; rfl

end Sys2Proof.Machine
end

