-- ==== Sys2Proof/Tests/Slice0.lean ====
section
/-! SUPPORT. Tests: the well-formedness checks, a decoded word for every command, steps of the spec's test vectors, and for
every obligation with hypotheses states and operands that meet them. Expected results come from 95_test_vectors.md (V, P)
or from the rule a test names. -/

namespace Sys2Proof.Tests

open Sys2Proof Sys2Proof.Machine

/-! ### Well-formedness (R105): a phrase longer than PHRASE_MAX does not go on `pin` -/

theorem test_wf_ins : (Instr.trieIns (List.replicate 512 0x41) 1).wellFormed ⟨9⟩ = true ∧
    (Instr.trieIns (List.replicate 513 0x41) 1).wellFormed ⟨9⟩ = false := by
  simp only [Instr.wellFormed, pinFits, Config.phraseMax, List.length_replicate]
  decide
theorem test_wf_srch : (Instr.trieSrch (List.replicate 512 0x41)).wellFormed ⟨9⟩ = true ∧
    (Instr.trieSrch (List.replicate 513 0x41)).wellFormed ⟨9⟩ = false := by
  simp only [Instr.wellFormed, pinFits, Config.phraseMax, List.length_replicate]
  decide
theorem test_wf_ext : (Instr.rdExt 1 (List.replicate 512 0x41)).wellFormed ⟨9⟩ = true ∧
    (Instr.rdExt 1 (List.replicate 513 0x41)).wellFormed ⟨9⟩ = false := by
  simp only [Instr.wellFormed, pinFits, Config.phraseMax, List.length_replicate]
  decide

/-! ### Decoding (R106, R108): a word for every command -/

/-- R210 -/
theorem test_decode_ctlNop : decode ⟨0x0000000000000000#64, []⟩ = .instr .ctlNop := by decide
/-- V1 -/
theorem test_decode_ctlRst : decode ⟨0x0100000000000000#64, []⟩ = .instr .ctlRst := by decide
/-- V6 -/
theorem test_decode_ctlCfg : decode ⟨0x020000010000000C#64, []⟩ = .instr (.ctlCfg 1 12) := by decide
/-- V30 -/
theorem test_decode_trieClr : decode ⟨0x1000000000000000#64, []⟩ = .instr .trieClr := by decide
/-- V33 -/
theorem test_decode_trieInit : decode ⟨0x1100000000000000#64, []⟩ = .instr .trieInit := by decide
/-- V30 -/
theorem test_decode_trieIns : decode ⟨0x120000000000000B#64, [0x78, 0x79]⟩ = .instr (.trieIns [0x78, 0x79] 11) := by decide
/-- V31 -/
theorem test_decode_trieSrch : decode ⟨0x1300000000000000#64, [0x61, 0x62]⟩ = .instr (.trieSrch [0x61, 0x62]) := by decide
/-- V30 -/
theorem test_decode_trieSize : decode ⟨0x1400000000000000#64, []⟩ = .instr .trieSize := by decide
/-- V35 -/
theorem test_decode_rdInit : decode ⟨0x2000000000000000#64, []⟩ = .instr .rdInit := by decide
/-- V35 -/
theorem test_decode_rdExt : decode ⟨0x210000000000012C#64, [0x42]⟩ = .instr (.rdExt 300 [0x42]) := by decide
/-- V35 -/
theorem test_decode_rdLkp : decode ⟨0x22000000000000FF#64, []⟩ = .instr (.rdLkp 255) := by decide
/-- V1 -/
theorem test_decode_pkClr : decode ⟨0x3000000000000000#64, []⟩ = .instr .pkClr := by decide
/-- V4 -/
theorem test_decode_pkEmit : decode ⟨0x310000110001FFFF#64, []⟩ = .instr (.pkEmit 0x1FFFF 17) := by decide
/-- V1 -/
theorem test_decode_pkFlush : decode ⟨0x3200000000000000#64, []⟩ = .instr .pkFlush := by decide
/-- V2 -/
theorem test_decode_upClr : decode ⟨0x4000000000000000#64, []⟩ = .instr .upClr := by decide
/-- V3 -/
theorem test_decode_upRead : decode ⟨0x4100000C00000000#64, []⟩ = .instr (.upRead 12) := by decide
/-- V6 -/
theorem test_decode_widGet : decode ⟨0x5000000000000200#64, []⟩ = .instr (.widGet 512) := by decide
/-- P2 -/
theorem test_decode_cStart : decode ⟨0x6000000000000000#64, []⟩ = .instr .cStart := by decide
/-- P2 -/
theorem test_decode_cStep : decode ⟨0x6100000000000000#64, []⟩ = .instr .cStep := by decide
/-- V10 -/
theorem test_decode_cRun : decode ⟨0x6200000000000000#64, []⟩ = .instr .cRun := by decide
/-- R190 -/
theorem test_decode_dStart : decode ⟨0x7000000000000000#64, []⟩ = .instr .dStart := by decide
/-- V41 -/
theorem test_decode_dStep : decode ⟨0x7100000000000000#64, []⟩ = .instr .dStep := by decide
/-- V20 -/
theorem test_decode_dRun : decode ⟨0x7200000000000000#64, []⟩ = .instr .dRun := by decide
/-- V41 -/
theorem test_decode_reserved : decode ⟨0x0300000000000000#64, []⟩ = .reserved 0x03 ∧
    decode ⟨0x1500000000000000#64, []⟩ = .reserved 0x15 ∧ decode ⟨0x8000000000000000#64, []⟩ = .reserved 0x80 ∧
    decode ⟨0xFF00000000000000#64, []⟩ = .reserved 0xFF := by decide

/-! ### Single steps -/

/-- The state a step leaves when the host's next move is the command with word `w` and phrase `p`; none if it has none. -/
def ran (w : Nat) (p : Phrase) (s : State) : Option State :=
  match step (offerCommand ⟨BitVec.ofNat 64 w, p⟩ s) with
  | .next t => some t
  | _ => none

/-- The response of that step. -/
def answer (w : Nat) (p : Phrase) (s : State) : Option HostGets := (ran w p s).map State.out

/-- A response. -/
def gives (st : Status) (val : BitVec 32) (p : Phrase) : Option HostGets := some (.response ⟨st, val, p⟩)

/-- The root with edge `abc` to a terminal slot of code 1: V30 after its first line. -/
def trieAbc : Trie := ⟨[⟨none, [⟨0x61, [0x62, 0x63], 1⟩]⟩, ⟨some 1, []⟩], 1⟩

/-- V30 after its second line. -/
def trieAbcAbd : Trie :=
  ⟨[⟨none, [⟨0x61, [0x62], 1⟩]⟩, ⟨none, [⟨0x63, [], 2⟩, ⟨0x64, [], 3⟩]⟩, ⟨some 1, []⟩, ⟨some 2, []⟩], 2⟩

/-- V30 after its third line. -/
def trieAb : Trie :=
  ⟨[⟨none, [⟨0x61, [0x62], 1⟩]⟩, ⟨some 3, [⟨0x63, [], 2⟩, ⟨0x64, [], 3⟩]⟩, ⟨some 1, []⟩, ⟨some 2, []⟩], 3⟩

/-- V41: `Z` all ones is ignored. -/
theorem test_nop : answer 0x00FFFF0000000000 [] State.reset = gives .ok 0 [] ∧
    (ran 0x00FFFF0000000000 [] State.reset).map State.ph = some .idle := by decide
/-- R213: in FAULT the recorded cause is answered. -/
theorem test_nop_fault : answer 0 [] { State.reset with ph := .fault, fcause := .storeFull } = gives .fault 5 [] := by decide
/-- R211 -/
theorem test_rst : (ran 0x0100000000000000 [] { State.reset with ph := .fault, fcause := .invalidHeader, cfgBits := 9 }).map
    (fun t => (t.ph, t.fcause, t.cfgBits)) = some (.idle, .none, 12) := by decide
/-- R211: the streams stay, the packer's bits are dropped. -/
theorem test_rst_streams : (ran 0x0100000000000000 [] { State.reset with src := [1], snk := [2], pk := ⟨1, 4⟩ }).map
    (fun t => (t.src, t.snk, t.pk)) = some ([1], [2], ⟨0, 0⟩) := by decide
/-- V40 -/
theorem test_cfg : (ran 0x0200000100000010 [] State.reset).map (fun t => (t.cfgVar, t.cfgBits)) = some (true, 16) := by decide
/-- V40 -/
theorem test_cfg_bad : answer 0x0200000000000011 [] State.reset = gives .fault 4 [] ∧
    answer 0x02000000FFFFFFFF [] State.reset = gives .fault 4 [] := by decide
/-- R120 -/
theorem test_trie_clr : (ran 0x1000000000000000 [] { State.reset with trie := trieAb }).map State.trie
    = some Trie.cleared := by decide
/-- V33: slot 66 is `T65`; 256 phrases in 257 slots. -/
theorem test_trie_init : ∃ t, ran 0x1100000000000000 [] State.reset = some t ∧
    nodeAt t.trie 66 = ⟨some 65, []⟩ ∧ t.trie.size = 256 ∧ trAlloc t.trie = 257 := by
  have hd : decode ⟨BitVec.ofNat 64 0x1100000000000000, []⟩ = .instr .trieInit := test_decode_trieInit
  refine ⟨respond Response.ok { State.reset with trie := trieInit Config.default.trieNodes }, ?_, ?_⟩
  · simp only [ran, step, runHost, offerCommand, performMove, takeCommand, hd]
    rfl
  · simp only [respond_trie]
    rw [trieInit_eq (by decide)]
    exact ⟨nodeAt_alphabetTrie_leaf (by decide), rfl, trAlloc_alphabetTrie _⟩
/-- V30, second line: SPLIT with `k = 2`. -/
theorem test_ins_split : (ran 0x1200000000000002 [0x61, 0x62, 0x64] { State.reset with trie := trieAbc }).map State.trie
    = some trieAbcAbd := by decide
/-- V30, third line: MARK; and fourth line: SPLIT with nothing left of the key. -/
theorem test_ins_mark : (ran 0x1200000000000003 [0x61, 0x62] { State.reset with trie := trieAbcAbd }).map State.trie
      = some trieAb ∧
    (ran 0x1200000000000004 [0x61] { State.reset with trie := trieAb }).map (fun t => (t.trie.size, nodeAt t.trie 1, nodeAt t.trie 4))
      = some (4, ⟨some 4, [⟨0x62, [], 4⟩]⟩, ⟨some 3, [⟨0x63, [], 2⟩, ⟨0x64, [], 3⟩]⟩) := by decide
/-- V31 -/
theorem test_srch : answer 0x1300000000000000 [0x61, 0x62, 0x64] { State.reset with trie := trieAb } = gives .ok 2 [] ∧
    answer 0x1300000000000000 [0x61, 0x62, 0x78] { State.reset with trie := trieAb } = gives .miss 0 [] := by decide
/-- V30 -/
theorem test_size : answer 0x1400000000000000 [] { State.reset with trie := trieAb } = gives .ok 3 [] := by decide
/-- R140 -/
theorem test_rd_init : (ran 0x2000000000000000 [] State.reset).map (fun t => (t.rd.length, t.rd[65]?))
    = some (256, some [0x41]) := by decide +kernel
/-- V35 -/
theorem test_rd_ext : (ran 0x2100000000000000 [0x78] State.reset).map State.rd = some [[0x78]] ∧
    answer 0x2100000000000001 [0x78] State.reset = gives .fault 4 [] := by decide
/-- R144 -/
theorem test_rd_lkp : answer 0x2200000000000001 [] { State.reset with rd := [[0x78], [0x41, 0x41]] } = gives .ok 0 [0x41, 0x41] ∧
    answer 0x2200000000000041 [] State.reset = gives .miss 0 [] := by decide
/-- R150 -/
theorem test_pk_clr : (ran 0x3000000000000000 [] { State.reset with pk := ⟨0, 1⟩, snk := [0x00] }).map (fun t => (t.pk, t.snk))
    = some (⟨0, 0⟩, [0x00]) := by decide
/-- V1, its fourth line -/
theorem test_pk_emit : (ran 0x3100000900000101 [] { State.reset with pk := ⟨0, 1⟩, snk := [0x80] }).map (fun t => (t.snk, t.pk))
    = some ([0x80, 0x40], ⟨1, 2⟩) := by decide
/-- V4: the widest width. -/
theorem test_pk_emit_wide : (ran 0x310000110001FFFF [] State.reset).map (fun t => (t.snk, t.pk)) = some ([0xFF, 0xFF], ⟨1, 1⟩) := by
  decide
/-- V1 -/
theorem test_pk_flush : (ran 0x3200000000000000 [] { State.reset with pk := ⟨1, 3⟩, snk := [0x80, 0x40, 0x48] }).map
    (fun t => (t.snk, t.pk)) = some ([0x80, 0x40, 0x48, 0x20], ⟨0, 0⟩) := by decide
/-- R156 -/
theorem test_up_clr : (ran 0x4000000000000000 [] { State.reset with up := ⟨0, 5⟩, upEos := true, src := [7] }).map
    (fun t => (t.up, t.upEos, t.src)) = some (⟨0, 0⟩, false, [7]) := by decide
/-- V2 -/
theorem test_up_read : (ran 0x4100000900000000 [] { State.reset with src := [0x80, 0x40, 0x48, 0x20] }).map
    (fun t => (t.out, t.up, t.upEos, t.src)) = some (.response ⟨.ok, 256, []⟩, ⟨64, 7⟩, false, [0x48, 0x20]) := by decide
/-- V2, V7: the end of the stream, its 5 bits still held. -/
theorem test_up_read_end : (ran 0x4100000900000000 [] { State.reset with up := ⟨0, 5⟩ }).map
    (fun t => (t.out, t.up, t.upEos)) = some (.response ⟨.ended, 0, []⟩, ⟨0, 5⟩, true) := by decide
/-- V6 -/
theorem test_wid : answer 0x5000000000000200 [] { State.reset with cfgVar := true } = gives .ok 10 [] ∧
    answer 0x50000000FFFFFFFF [] { State.reset with cfgVar := true } = gives .ok 32 [] := by decide
/-- V6 -/
theorem test_wid_fixed : answer 0x5000000000000200 [] State.reset = gives .ok 12 [] := by decide
/-- P2 -/
theorem test_c_start : (ran 0x6000000000000000 [] { State.reset with src := [0x41] }).map
    (fun t => (t.ph, t.snk, t.encNext, t.compS)) = some (.comp, [0x00, 0x0C, 0x00, 0x00, 0x00], 256, []) := by decide
/-- A compression session with `A` matched and one more `A` to read, on a trie that holds `A` alone of the alphabet. -/
def compA (src : List Byte) : State :=
  { State.reset with
    ph := .comp, compS := [0x41], src := src
    trie := ⟨[⟨none, [⟨0x41, [], 1⟩]⟩, ⟨some 65, []⟩], 1⟩ }
/-- P2, step 2: code 65 at 12 bits; `AA` stored with code 256. -/
theorem test_c_step : (ran 0x6100000000000000 [] (compA [0x41])).map
      (fun t => (t.snk, t.pk, t.encNext, t.compS)) = some ([0x04], ⟨1, 4⟩, 257, [0x41]) ∧
    (ran 0x6100000000000000 [] (compA [0x41])).map (fun t => (nodeAt t.trie 2, nodeAt t.trie 1))
      = some (⟨some 256, []⟩, ⟨some 65, [⟨0x41, [], 2⟩]⟩) := by decide
/-- V12, `A` in variable-width mode, its last step: code 65 at 9 bits and 7 pad bits. -/
theorem test_c_step_end : (ran 0x6100000000000000 [] { compA [] with cfgVar := true }).map
    (fun t => (t.out, t.ph, t.snk, t.pk)) = some (.response ⟨.ended, 0, []⟩, .done, [0x20, 0x80], ⟨0, 0⟩) := by decide
/-- V12: the empty input. -/
theorem test_c_run : (ran 0x6200000000000000 [] State.reset).map (fun t => (t.ph, t.snk, t.out))
    = some (.done, [0x00, 0x0C, 0x00, 0x00, 0x00], .response ⟨.ended, 0, []⟩) := by decide
/-- V12, `A`, from the open session. -/
theorem test_c_run_open : (ran 0x6200000000000000 [] (compA [])).map (fun t => (t.ph, t.snk)) = some (.done, [0x04, 0x10]) := by
  decide
/-- V21 -/
theorem test_d_start : (ran 0x7000000000000000 [] { State.reset with src := [0x01, 0x09, 0x00, 0x00, 0x00, 0x04] }).map
    (fun t => (t.ph, t.cfgVar, t.cfgBits, t.src)) = some (.dec0, true, 9, [0x04]) := by decide
/-- V26: 17 is above MAX_BITS; 0x8000000C is negative; the cut header. -/
theorem test_d_start_bad : answer 0x7000000000000000 [] { State.reset with src := [0x00, 0x11, 0x00, 0x00, 0x00] } = gives .fault 1 [] ∧
    answer 0x7000000000000000 [] { State.reset with src := [0x00, 0x0C, 0x00, 0x00, 0x80] } = gives .fault 1 [] ∧
    (ran 0x7000000000000000 [] { State.reset with src := [0x00, 0x0C] }).map (fun t => (t.ph, t.fcause, t.src))
      = some (.fault, .invalidHeader, []) := by decide
/-- V21, the first code. -/
theorem test_d_step_first : (ran 0x7100000000000000 []
      { State.reset with ph := .dec0, rd := alphabet, src := [0x04, 0x11, 0x00] }).map
    (fun t => (t.ph, t.snk, t.old, t.up, t.src)) = some (.dec1, [0x41], [0x41], ⟨1, 4⟩, [0x00]) := by decide
/-- V21, the second code, absent: `AA`. -/
theorem test_d_step_absent : (ran 0x7100000000000000 []
      { State.reset with ph := .dec1, rd := alphabet, up := ⟨1, 4⟩, src := [0x00], old := [0x41], snk := [0x41] }).map
    (fun t => (t.snk, t.old, t.decNext, t.rd[256]?, t.up))
      = some ([0x41, 0x41, 0x41], [0x41, 0x41], 257, some [0x41, 0x41], ⟨0, 0⟩) := by decide +kernel
/-- V24: the first code 256 at 9 bits. -/
theorem test_d_run_bad : (ran 0x7200000000000000 [] { State.reset with src := [0x01, 0x09, 0x00, 0x00, 0x00, 0x80, 0x00] }).map
    (fun t => (t.ph, t.fcause, t.snk, t.up)) = some (.fault, .invalidCode, [], ⟨0, 7⟩) := by decide
/-- V25, cut to 7 bytes. -/
theorem test_d_run : (ran 0x7200000000000000 [] { State.reset with src := [0x00, 0x0C, 0x00, 0x00, 0x00, 0x04, 0x11] }).map
    (fun t => (t.ph, t.snk, t.decNext, t.up, t.upEos)) = some (.done, [0x41], 256, ⟨1, 4⟩, true) := by decide
/-- V41 -/
theorem test_reserved : (ran 0x0300000000000000 [] State.reset).map (fun t => (t.ph, t.fcause, t.out))
    = some (.fault, .badCmd, .response ⟨.fault, 3, []⟩) := by decide

/-! ### Every obligation's hypotheses are met

Each theorem is named for the obligation whose hypotheses it meets; several clauses are met in one theorem, one conjunct
or group of conjuncts each, at the ends of the ranges they name. -/

/-- The phases the clauses of `ShutOutOfSessions`, and of every statement "in IDLE or DONE", speak of. -/
theorem test_meets_phases : State.reset.ph = .idle ∧ ({ State.reset with ph := .done } : State).ph = .done ∧
    ({ State.reset with ph := .comp } : State).ph = .comp ∧ ({ State.reset with ph := .dec0 } : State).ph = .dec0 ∧
    ({ State.reset with ph := .dec1 } : State).ph = .dec1 ∧ ({ State.reset with ph := .fault } : State).ph = .fault := by decide

theorem test_meets_EncodedWordHasItsFields : decode ⟨0x3100000900000101#64, []⟩ = .instr (.pkEmit 257 9) := by decide

theorem test_meets_ReservedAndUnusedFields :
    opField 0xFF00000000000000#64 ∉ listedOpcodes ∧ opField 0x7200000000000000#64 ∈ listedOpcodes ∧
    decode ⟨0x4100000900000000#64, []⟩ = .instr (.upRead 9) ∧
    opField 0x41FFFF09FFFFFFFF#64 = opField 0x4100000900000000#64 ∧
    aField 0x41FFFF09FFFFFFFF#64 = aField 0x4100000900000000#64 ∧ usedFields (.upRead 9) = ⟨true, false, false⟩ ∧
    decode ⟨0x1200000000000001#64, [0x61]⟩ = .instr (.trieIns [0x61] 1) ∧
    bField 0x1200000100000001#64 = bField 0x1200000000000001#64 ∧ usedFields (.trieIns [0x61] 1) = ⟨false, true, true⟩ := by decide

theorem test_meets_StepRunsTheDecodedCommand :
    (offerCommand ⟨0#64, []⟩ State.reset).host = .command ⟨0#64, []⟩ :: [] ∧ decode ⟨0#64, []⟩ = .instr .ctlNop ∧
    decodeTableWord 64 0x4100000900000000 = some (.upRead 9) := by decide

theorem test_meets_ReservedOpcodeRaisesBadCmd :
    (offerCommand ⟨0x0300000000000000#64, []⟩ State.reset).host = .command ⟨0x0300000000000000#64, []⟩ :: [] ∧
    opField 0x0300000000000000#64 ∉ listedOpcodes ∧ State.reset.ph ≠ .fault ∧
    ({ State.reset with ph := .fault, fcause := .badCmd } : State).ph = .fault := by decide

theorem test_meets_HostMovesDoWhatTheyMay :
    ({ State.reset with host := [.bind [1]] } : State).host = .bind [1] :: [] ∧
    ({ State.reset with host := [.take] } : State).host = .take :: [] ∧
    ({ State.reset with host := [.reset] } : State).host = .reset :: [] ∧ State.reset.host = [] := by decide

theorem test_meets_CfgSetsLegalParameters :
    (0 : Byte).toNat ≤ 1 ∧ (1 : Byte).toNat ≤ 1 ∧ 1 < (2 : Byte).toNat ∧
    9 ≤ (9 : Code).toInt ∧ (16 : Code).toInt ≤ State.reset.config.maxBits ∧
    (8 : Code).toInt < 9 ∧ (0xFFFFFFFF : Code).toInt < 9 ∧ (State.reset.config.maxBits : Int) < (17 : Code).toInt := by decide

theorem test_meets_InitStoresTheAlphabet : State.reset.config.legal ∧ (⟨9⟩ : Config).legal ∧ (⟨30⟩ : Config).legal := by decide

/-- V30's first line, from the cleared trie. -/
theorem insert_abc : trieInsert 4 [0x61, 0x62, 0x63] 1 Trie.cleared = .ok trieAbc := by decide

theorem inv_abc : TrieInv trieAbc := by
  obtain ⟨k, hf, h, _⟩ := (trieInsert_spec trieInv_cleared 4 [0x61, 0x62, 0x63] 1 (by decide)).2 (trieSearch_cleared _)
  obtain ⟨t, he, _, hg⟩ := h (.inr (by have : trAlloc Trie.cleared = 1 := rfl; have := hf.le_two; omega))
  rw [insert_abc] at he
  obtain rfl := Except.ok.inj he
  exact hg.inv

theorem test_meets_InsertStoresExactlyThePhrase : TrieInv State.reset.trie ∧ TrieInv trieAbc ∧
    [0x61, 0x62, 0x64] ≠ ([] : Phrase) ∧ [0x61, 0x62, 0x64].length ≤ 2 ^ State.reset.config.maxBits ∧
    trieSearch trieAbc [0x61, 0x62, 0x64] = none ∧ trAlloc trieAbc + 2 ≤ State.reset.config.trieNodes :=
  ⟨trieInv_cleared, inv_abc, by decide, by decide, by decide, by decide⟩

/-- V30's second line. -/
theorem insert_abd : trieInsert 4 [0x61, 0x62, 0x64] 2 trieAbc = .ok trieAbcAbd := by decide

theorem inv_abcAbd : TrieInv trieAbcAbd := by
  obtain ⟨k, hf, h, _⟩ := (trieInsert_spec inv_abc 4 [0x61, 0x62, 0x64] 2 (by decide)).2 (by decide)
  obtain ⟨t, he, _, hg⟩ := h (.inr (by have : trAlloc trieAbc = 2 := rfl; have := hf.le_two; omega))
  rw [insert_abd] at he
  obtain rfl := Except.ok.inj he
  exact hg.inv

/-- At `MAX_BITS = 9`, in an arena with `free` of its 1024 slots left, a phrase of each case: `ab` is MARK, `b` ATTACH, `a` and
`ac` are SPLIT with one fresh slot and with two. -/
theorem exists_cases (free : Nat) (h : free ≤ 1020) :
    ∃ t, TrieInv t ∧ trAlloc t + free = (⟨9⟩ : Config).trieNodes ∧
      (FreshSlots t [0x61, 0x62] 0 ∧ trieSearch t [0x61, 0x62] = none) ∧ (FreshSlots t [0x62] 1 ∧ trieSearch t [0x62] = none) ∧
      (FreshSlots t [0x61] 1 ∧ trieSearch t [0x61] = none) ∧ (FreshSlots t [0x61, 0x63] 2 ∧ trieSearch t [0x61, 0x63] = none) := by
  have hab : TriePath trieAbcAbd 1 [0x61, 0x62] := .edge .root (e := ⟨0x61, [0x62], 1⟩) (by decide)
  have habd : TriePath trieAbcAbd 3 [0x61, 0x62, 0x64] := .edge hab (e := ⟨0x64, [], 3⟩) (by decide)
  obtain ⟨t, hi, ha, hp, hn, hs⟩ := exists_grown inv_abcAbd habd (by decide) (1020 - free)
  have hroot : nodeAt t 0 = nodeAt trieAbcAbd 0 := hn 0 (by decide) (by decide)
  have he : (⟨0x61, [0x62], 1⟩ : Edge) ∈ (nodeAt t 0).kids := by rw [hroot]; decide
  refine ⟨t, hi, ?_, ⟨.mark (hp 1 _ hab), ?_⟩, ⟨.attach .root (by rw [hroot]; decide), ?_⟩,
    ⟨.splitEnd .root he (x := [0x61]) (y := [0x62]) rfl (by decide) (by decide), ?_⟩,
    ⟨.splitFork .root he (x := [0x61]) (y := []) (z := []) (d := 0x62) (b := 0x63) rfl (by decide) (by decide), ?_⟩⟩
  · have h4 : trAlloc trieAbcAbd = 4 := rfl
    have hN : (⟨9⟩ : Config).trieNodes = 1024 := by decide
    omega
  all_goals rw [hs _ (by decide)]; decide

/-- Each case with its slots left, and each that needs some with one too few. -/
theorem test_meets_InsertNeedsAtMostTwoSlots : (⟨9⟩ : Config).legal ∧ [0x61, 0x63].length ≤ 2 ^ (⟨9⟩ : Config).maxBits ∧
    (∃ t, TrieInv t ∧ trAlloc t + 0 = (⟨9⟩ : Config).trieNodes ∧ FreshSlots t [0x61, 0x62] 0 ∧ FreshSlots t [0x62] 1 ∧
      FreshSlots t [0x61] 1) ∧
    (∃ t, TrieInv t ∧ trAlloc t + 1 = (⟨9⟩ : Config).trieNodes ∧ FreshSlots t [0x62] 1 ∧ FreshSlots t [0x61] 1 ∧
      FreshSlots t [0x61, 0x63] 2 ∧ trieSearch t [0x61, 0x63] = none) ∧
    (∃ t, TrieInv t ∧ trAlloc t + 2 = (⟨9⟩ : Config).trieNodes ∧ FreshSlots t [0x61, 0x63] 2) := by
  refine ⟨by decide, by decide, ?_, ?_, ?_⟩
  · obtain ⟨t, hi, ha, h0, h1, h2, _⟩ := exists_cases 0 (by decide)
    exact ⟨t, hi, ha, h0.1, h1.1, h2.1⟩
  · obtain ⟨t, hi, ha, _, h1, h2, h3⟩ := exists_cases 1 (by decide)
    exact ⟨t, hi, ha, h1.1, h2.1, h3⟩
  · obtain ⟨t, hi, ha, _, _, _, h3⟩ := exists_cases 2 (by decide)
    exact ⟨t, hi, ha, h3.1⟩

theorem test_meets_InsertCornerCases : TrieInv trieAbc ∧ trieSearch trieAbc [0x61, 0x62, 0x63] = some 1 ∧
    [0x61, 0x62, 0x63].length ≤ 2 ^ State.reset.config.maxBits ∧
    2 ^ (⟨9⟩ : Config).maxBits < (List.replicate 513 (0x61 : Byte)).length :=
  ⟨inv_abc, by decide, by decide, by rw [List.length_replicate]; decide⟩

theorem test_meets_SearchAnswersCodeOrMiss : trieSearch trieAb [0x61, 0x62] = some 3 ∧ trieSearch trieAb [0x61] = none ∧
    [0x61, 0x62].length ≤ 2 ^ State.reset.config.maxBits ∧
    (List.replicate 512 (0x61 : Byte)).length ≤ 2 ^ (⟨9⟩ : Config).maxBits := by
  rw [List.length_replicate]
  decide

theorem test_meets_SearchIsTheDictionary : TrieInv trieAbc ∧ TrieInv (alphabetTrie 256) := ⟨inv_abc, trieInv_alphabetTrie (le_refl _)⟩

theorem test_meets_TrieCorrectness :
    (([([0x61, 0x62, 0x63], 1), ([0x61, 0x62, 0x64], 2)] : List (Phrase × Code)).map Prod.fst).Nodup ∧
    (∀ x ∈ ([([0x61, 0x62, 0x63], 1), ([0x61, 0x62, 0x64], 2)] : List (Phrase × Code)), x.1 ≠ []) ∧
    insertAll 4 [([0x61, 0x62, 0x63], 1), ([0x61, 0x62, 0x64], 2)] Trie.cleared ≠ .error .storeFull := by decide

/-- Each clause at its ends: a phrase of one byte and one of PHRASE_MAX, an empty table and a full one, at `MAX_BITS = 9`. -/
theorem test_meets_ExtendAppendsAtTheNextCode : (0 : Code).toNat = rdLen State.reset ∧ 1 ≤ [0x78].length ∧
    (List.replicate 512 (0x78 : Byte)).length ≤ 2 ^ (⟨9⟩ : Config).maxBits ∧ rdLen State.reset < 2 ^ (⟨9⟩ : Config).maxBits ∧
    (1 : Code).toNat ≠ rdLen State.reset ∧ 2 ^ (⟨9⟩ : Config).maxBits < (List.replicate 513 (0x78 : Byte)).length ∧
    (512 : Code).toNat = rdLen { State.reset with config := ⟨9⟩, rd := List.replicate 512 [0x78] } ∧
    2 ^ (⟨9⟩ : Config).maxBits ≤ rdLen { State.reset with config := ⟨9⟩, rd := List.replicate 512 [0x78] } := by
  simp only [rdLen, List.length_replicate]
  decide

theorem test_meets_LookupAnswersEntryOrMiss : (0 : Code).toNat < rdLen { State.reset with rd := [[0x78]] } ∧
    rdLen { State.reset with rd := [[0x78]] } ≤ (1 : Code).toNat ∧ rdLen State.reset ≤ (0 : Code).toNat := by decide

theorem test_meets_EmitPushesTheBitsInOrder : BufClean State.reset.pk ∧ BufClean ⟨127, 7⟩ ∧ 1 ≤ (1 : Byte).toNat ∧
    (17 : Byte).toNat ≤ State.reset.config.maxBits + 1 ∧ (1 : Code).toNat < 2 ^ (1 : Byte).toNat ∧
    (0x1FFFF : Code).toNat < 2 ^ (17 : Byte).toNat := by decide

theorem test_meets_BadWidthsAndCodesAreRefused : (0 : Byte).toNat = 0 ∧ State.reset.config.maxBits + 1 < (18 : Byte).toNat ∧
    2 ^ (9 : Byte).toNat ≤ (512 : Code).toNat := by decide

theorem test_meets_FlushPadsWithZeros : State.reset.pk.cnt ≤ 7 ∧ ({ State.reset with pk := ⟨127, 7⟩ } : State).pk.cnt ≤ 7 := by decide

theorem test_meets_ReadDeliversTheNextBits : State.reset.config.legal ∧ BufClean ⟨64, 7⟩ ∧ 1 ≤ (1 : Byte).toNat ∧
    (17 : Byte).toNat ≤ State.reset.config.maxBits + 1 ∧ (17 : Byte).toNat ≤ 7 + 8 * [0x48, 0x20].length ∧
    7 < (17 : Byte).toNat ∧ (1 : Byte).toNat ≤ 7 + 8 * ([] : List Byte).length ∧ (1 : Byte).toNat ≤ 7 := by decide

theorem test_meets_ReadAtTheEndKeepsTheBits : BufClean ⟨0, 5⟩ ∧ 1 ≤ (9 : Byte).toNat ∧
    (9 : Byte).toNat ≤ State.reset.config.maxBits + 1 ∧ 5 + 8 * ([] : List Byte).length < (9 : Byte).toNat := by decide

theorem test_meets_WidGetAnswersThePolicy : State.reset.cfgVar = false ∧ ({ State.reset with cfgVar := true } : State).cfgVar = true ∧
    (511 : Code).toNat < 512 ∧ 2 ^ 9 ≤ (512 : Code).toNat ∧ (1023 : Code).toNat < 2 ^ (9 + 1) ∧
    2 ^ 31 ≤ (0xFFFFFFFF : Code).toNat ∧ (0xFFFFFFFF : Code).toNat < 2 ^ (31 + 1) := by decide

theorem test_meets_BodyLayout : State.reset.pk = ⟨0, 0⟩ ∧
    ∀ x ∈ [(256, 9), (257, 9), (65, 9)], 1 ≤ x.2 ∧ x.2 ≤ State.reset.config.maxBits + 1 ∧ x.1 < 2 ^ x.2 := by decide

/-- The packed bytes are V1's. -/
theorem test_meets_PackThenUnpackGivesTheCodes : State.reset.pk = ⟨0, 0⟩ ∧ State.reset.snk = [] ∧
    (∀ x ∈ [(256, 9), (257, 9), (65, 9)], 1 ≤ x.2 ∧ x.2 ≤ State.reset.config.maxBits + 1 ∧ x.1 < 2 ^ x.2) ∧
    ∃ t, packAll [(256, 9), (257, 9), (65, 9)] State.reset = .done () t ∧
      ({ State.reset with src := [0x80, 0x40, 0x48, 0x20] } : State).src = (pkFlush t).snk ∧
      ({ State.reset with src := [0x80, 0x40, 0x48, 0x20] } : State).up = ⟨0, 0⟩ :=
  ⟨by decide, by decide, by decide, _, rfl, by decide, by decide⟩

theorem test_meets_CStartOpensASession : State.reset.config.legal ∧ State.reset.ph = .idle := by decide

theorem test_meets_CStepExtendsTheMatch : ({ compA [0x41] with compS := [] } : State).ph = .comp ∧
    ({ compA [0x41] with compS := [] } : State).src = 0x41 :: [] ∧
    trieSearch (compA [0x41]).trie ([] ++ [0x41]) = some 65 := by decide

/-- A session while the trie grows, and one in which it is frozen. -/
theorem test_meets_CStepEmitsAndInserts :
    (∃ s, Inv s ∧ s.ph = .comp ∧ s.src = 0 :: [] ∧ trieSearch s.trie (s.compS ++ [0]) = none ∧ s.encNext < 2 ^ s.cfgBits) ∧
    (∃ s, Inv s ∧ s.ph = .comp ∧ s.src = 0 :: [] ∧ trieSearch s.trie (s.compS ++ [0]) = none ∧ 2 ^ s.cfgBits ≤ s.encNext) := by
  constructor
  · obtain ⟨s, i, hp, _, hb, _, he, hs, hm⟩ := exists_session true 511 (by decide) [0]
    exact ⟨s, i, hp, hs, hm, by rw [hb, he]; decide⟩
  · obtain ⟨s, i, hp, _, hb, _, he, hs, hm⟩ := exists_session true 512 (by decide) [0]
    exact ⟨s, i, hp, hs, hm, by rw [hb, he]; decide⟩

/-- The end of the input with a match held, and with none. -/
theorem test_meets_CStepFinishesTheStream :
    (∃ s, Inv s ∧ s.ph = .comp ∧ s.src = [] ∧ s.compS ≠ []) ∧ (∃ s, Inv s ∧ s.ph = .comp ∧ s.src = [] ∧ s.compS = []) := by
  constructor
  · obtain ⟨s, i, hp, _, _, _, _, hs, hm⟩ := exists_session false 256 (by decide) []
    exact ⟨s, i, hp, hs, compS_ne_nil (i.comp hp) hm⟩
  · have i := (inv_configured Config.default (by decide) false 9 (by decide) []).cStart (.inl rfl)
    rw [cStart_eq (show Config.default.legal by decide)] at i
    exact ⟨_, i, rfl, rfl, rfl⟩

theorem test_meets_CRunIsRepeatedCStep : (∃ t, exec .cStep (compA [0x41]) = .next t ∧ t.ph = .comp) ∧
    (∃ t, exec .cStep (compA []) = .next t ∧ t.ph ≠ .comp) := ⟨⟨_, rfl, by decide⟩, ⟨_, rfl, by decide⟩⟩

theorem test_meets_CRunCompletes : (∃ s, Inv s ∧ s.ph = .idle) ∧ (∃ s, Inv s ∧ s.ph = .comp) :=
  ⟨⟨_, inv_configured Config.default (by decide) false 9 (by decide) [0x41], rfl⟩,
    (exists_session false 256 (by decide) []).imp fun _ h => ⟨h.1, h.2.1⟩⟩

theorem test_meets_DStartReadsTheHeader : State.reset.config.legal ∧ 16 ≤ State.reset.config.maxBits ∧
    ([0x01, 0x10, 0x00, 0x00, 0x00, 0xAB] : List Byte)
      = (if true then 0x01#8 else 0x00#8) :: BitVec.ofNat 8 16 :: 0#8 :: 0#8 :: 0#8 :: [0xAB] ∧
    ([0x00, 0x09, 0x00, 0x00, 0x00] : List Byte)
      = (if false then 0x01#8 else 0x00#8) :: BitVec.ofNat 8 9 :: 0#8 :: 0#8 :: 0#8 :: [] := by decide

/-- V26's headers. -/
theorem test_meets_DStartRefusesBadHeaders : ([0x00, 0x0C, 0x00, 0x00] : List Byte).length < 5 ∧ 1 < (0x02 : Byte).toNat ∧
    ((0x00 : Byte) ++ (0x00 : Byte) ++ (0x00 : Byte) ++ (0x08 : Byte)).toInt < 9 ∧
    ((0x80 : Byte) ++ (0x00 : Byte) ++ (0x00 : Byte) ++ (0x0C : Byte)).toInt < 9 ∧
    (State.reset.config.maxBits : Int) < ((0x00 : Byte) ++ (0x00 : Byte) ++ (0x00 : Byte) ++ (0x11 : Byte)).toInt := by decide

/-- A decompression session just opened on a body, at `MAX_BITS = 9`. -/
def decOpen (body : List Byte) : State :=
  { State.reset with
    config := ⟨9⟩, cfgVar := true, cfgBits := 9, rd := alphabet, up := BitBuf.empty, upEos := false, old := [], decNext := 256
    ph := .dec0, src := body }

theorem inv_decOpen (body : List Byte) : Inv (decOpen body) :=
  (inv_configured ⟨9⟩ (by decide) true 9 (by decide) []).dStarted (.inl rfl) (v := true) (fb := 9) (by decide) body

/-- The bodies of a first code 65, which is a byte, and of a first code 256, which is none, at 9 bits. -/
theorem test_meets_DStepResolvesTheFirstCode : (∃ s, Inv s ∧ s.ph = .dec0 ∧ s.src = [0x20, 0x80] ∧
      (if s.cfgVar then 9 else s.cfgBits) ≤ (pendingBits s).length) ∧
    (∃ s, Inv s ∧ s.ph = .dec0 ∧ s.src = [0x80, 0x00] ∧ (if s.cfgVar then 9 else s.cfgBits) ≤ (pendingBits s).length) :=
  ⟨⟨_, inv_decOpen _, rfl, rfl, by decide⟩, ⟨_, inv_decOpen _, rfl, rfl, by decide⟩⟩

/-- A session whose table is full, and whose `old` is as long as a phrase can be. -/
theorem inv_decFull (body : List Byte) : Inv { decOpen body with
    ph := .dec1, old := List.replicate 512 0, decNext := 512, rd := alphabet ++ List.replicate 256 [0x00] } := by
  have i := inv_decOpen body
  have hm : ∀ p ∈ alphabet ++ List.replicate 256 [(0x00 : Byte)], p.length = 1 := by
    intro p hp
    rcases List.mem_append.1 hp with h | h
    · obtain ⟨j, _, rfl⟩ := List.mem_map.1 h
      rfl
    · rw [(List.mem_replicate.1 h).2]
      rfl
  have hl : (alphabet ++ List.replicate 256 [(0x00 : Byte)]).length = 512 := by
    rw [List.length_append, alphabet_length, List.length_replicate]
  refine i.withDecompression (.inl rfl) (ph := .dec1) (.inr (.inl rfl)) (old := List.replicate 512 0) (n := 512)
    (rd := alphabet ++ List.replicate 256 [0x00]) (up := BitBuf.empty) body [] false ⟨Nat.zero_le _, Nat.one_pos⟩ ?_
    ⟨by decide, show (512 : Nat) ≤ 2 ^ 9 by decide⟩ hl (fun p hp => ?_)
    (fun _ => ⟨⟨?_, show (512 : Nat) ≤ 2 ^ 9 by decide⟩, (fun h => by cases h), (fun _ h => ?_), ?_, ?_, ?_, Nat.zero_le _⟩)
  · rw [List.length_replicate]; exact show (512 : Nat) ≤ 2 ^ 9 by decide
  · rw [hm p hp]; exact show 1 ≤ 1 ∧ (1 : Nat) ≤ 2 ^ 9 by decide
  · exact hl.symm
  · have := congrArg List.length h
    rw [List.length_replicate] at this
    cases this
  · rw [List.take_append_of_le_length (by rw [alphabet_length]), List.take_of_length_le (by rw [alphabet_length])]
  · intro p hp
    rw [hm p hp]
    exact show 1 + 255 ≤ 512 by decide
  · intro _ h
    exact absurd h (show ¬ 512 < 2 ^ 9 by decide)

/-- A whole code left, while the rebuilt phrase still fits, and where it does not. -/
theorem test_meets_DStepResolvesALaterCode :
    (∃ s, Inv s ∧ s.ph = .dec1 ∧ s.old.length + 1 ≤ 2 ^ s.config.maxBits ∧
      max 9 (bitLength (min (s.decNext + 1) (2 ^ s.cfgBits))) ≤ (pendingBits s).length ∧ s.cfgVar = true) ∧
    (∃ s, Inv s ∧ s.ph = .dec1 ∧ 2 ^ s.config.maxBits < s.old.length + 1 ∧ rdLen s ≤ 1023 ∧
      max 9 (bitLength (min (s.decNext + 1) (2 ^ s.cfgBits))) ≤ (pendingBits s).length ∧ s.cfgVar = true) := by
  constructor
  · refine ⟨_, ((dFirst_spec (inv_decOpen [0x20, 0x80]) rfl 65).1 (by decide)).2, rfl, ?_, ?_, rfl⟩
    · simp only [List.length_singleton]; decide
    · simp only [pendingBits, List.length_append, bitsOf_length, byteBits_length]
      decide
  · refine ⟨_, inv_decFull [0xFF, 0xFF], rfl, ?_, ?_, ?_, rfl⟩
    · simp only [List.length_replicate]; decide
    · simp only [rdLen, List.length_append, alphabet_length, List.length_replicate]; decide
    · simp only [pendingBits, List.length_append, bitsOf_length, byteBits_length]
      decide

theorem test_meets_DStepEndsAtEndOfStream :
    (∃ s, Inv s ∧ s.ph = .dec0 ∧ s.cfgVar = true ∧ (pendingBits s).length < 9) ∧
    (∃ s, Inv s ∧ s.ph = .dec1 ∧ s.cfgVar = true ∧
      (pendingBits s).length < max 9 (bitLength (min (s.decNext + 1) (2 ^ s.cfgBits)))) := by
  refine ⟨⟨_, inv_decOpen [0x20], rfl, rfl, by decide⟩, ⟨_, inv_decFull [0x20], rfl, rfl, ?_⟩⟩
  simp only [pendingBits, List.length_append, bitsOf_length, byteBits_length]
  decide

theorem test_meets_DRunIsRepeatedDStep :
    (∃ t, exec .dStart { State.reset with src := [0x00, 0x0C, 0x00, 0x00, 0x00] } = .next t ∧ t.ph = .dec0) ∧
    (∃ t, exec .dStart State.reset = .next t ∧ t.ph = .fault) ∧
    (∃ t, exec .dStep (decOpen [0x20, 0x80]) = .next t ∧ t.ph = .dec1) ∧
    (∃ t, exec .dStep (decOpen []) = .next t ∧ t.ph = .done) ∧
    (∃ t, exec .dStep (decOpen [0x80, 0x00]) = .next t ∧ t.ph = .fault) :=
  ⟨⟨_, rfl, by decide⟩, ⟨_, rfl, by decide⟩, ⟨_, rfl, by decide⟩, ⟨_, rfl, by decide⟩, ⟨_, rfl, by decide⟩⟩

theorem test_meets_DRunCompletes : (∃ s, Inv s ∧ s.ph = .idle) ∧ (∃ s, Inv s ∧ s.ph = .dec0) ∧ (∃ s, Inv s ∧ s.ph = .dec1) :=
  ⟨⟨_, inv_configured Config.default (by decide) false 9 (by decide) [0x41], rfl⟩, ⟨_, inv_decOpen [], rfl⟩, ⟨_, inv_decFull [], rfl⟩⟩

theorem test_meets_IllegalPhaseRaisesBadCmd : State.reset.ph ≠ .fault ∧ State.reset.ph ∉ legalPhases .cStep ∧
    (compA []).ph ∉ legalPhases .trieSize := by decide

theorem test_meets_FaultPhaseIsSticky : Instr.cRun ≠ .ctlRst ∧ ({ State.reset with ph := .fault } : State).ph = .fault := by decide

theorem test_meets_PhaseTransitionTable : (∃ t, exec .ctlNop State.reset = .next t ∧ t.ph ≠ .fault) ∧
    (∃ t, exec .cRun { State.reset with ph := .fault, fcause := .badCmd } = .next t ∧ t.ph = .fault) :=
  ⟨⟨_, rfl, by decide⟩, ⟨_, rfl, by decide⟩⟩

/-- A sound state outside a session: reset, configured with 9 bits, with a source of one byte. -/
def ready : State := { State.reset with config := Config.default, cfgVar := true, cfgBits := 9, src := [0x41] }

theorem inv_ready : Inv ready := inv_configured Config.default (by decide) true 9 (by decide) [0x41]

/-- A command that is not legal, and a legal one with a bad operand. -/
theorem test_meets_OnlyListedCausesAreRaised : Inv ready ∧ ready.ph ≠ .fault ∧
    (∃ t, exec .cStep ready = .next t ∧ t.ph = .fault ∧ ready.ph ∉ legalPhases .cStep) ∧
    (∃ t, exec (.pkEmit 0 0) ready = .next t ∧ t.ph = .fault ∧ ready.ph ∈ legalPhases (.pkEmit 0 0)) :=
  ⟨inv_ready, by decide, ⟨_, rfl, by decide⟩, ⟨_, rfl, by decide⟩⟩

/-- A fault of a command that touches no stream, of D.START, and of D.STEP. -/
theorem test_meets_FaultsArePrecise : (∃ t, exec (.pkEmit 0 0) ready = .next t ∧ t.ph = .fault) ∧ Inv ready ∧
    (∃ t, exec .dStart ready = .next t ∧ t.ph = .fault) ∧
    (∃ t, exec .dStep (decOpen [0x80, 0x00]) = .next t ∧ t.ph = .fault) ∧ Inv (decOpen [0x80, 0x00]) :=
  ⟨⟨_, rfl, by decide⟩, inv_ready, ⟨_, rfl, by decide⟩, ⟨_, rfl, by decide⟩, inv_decOpen _⟩

theorem test_meets_StreamsOnlyAdvance : ∃ t, exec (.upRead 8) ready = .next t := ⟨_, rfl⟩

theorem test_meets_TheTwoSidesAreSeparate : (∃ t, exec (.pkEmit 1 8) ready = .next t) ∧ (∃ t, exec (.upRead 8) ready = .next t) ∧
    Instr.pkEmit 1 8 ∉ [Instr.dStart, .dStep, .dRun, .cStep, .cRun] ∧
    Instr.upRead 8 ∉ [Instr.pkFlush, .cStart, .cStep, .cRun, .dStep, .dRun] := ⟨⟨_, rfl⟩, ⟨_, rfl⟩, by decide, by decide⟩

/-- A reset at a MAX_BITS of 12 or more, and, at `MAX_BITS = 9`, a move that is no reset, the reset input and CTL.RST. -/
theorem test_meets_EveryStepKeepsSoundness :
    (Inv { ready with host := [.reset] } ∧ ResetIsNext { ready with host := [.reset] } ∧ 12 ≤ ready.config.maxBits ∧
      ∃ t, step { ready with host := [.reset] } = .next t) ∧
    (Inv (decOpen []) ∧ ¬ ResetIsNext (decOpen []) ∧ ∃ t, step (decOpen []) = .next t) ∧
    (Inv { decOpen [] with host := [.reset] } ∧ ResetIsNext { decOpen [] with host := [.reset] } ∧
      ∃ t, step { decOpen [] with host := [.reset] } = .next t) ∧
    ResetIsNext { decOpen [] with host := [.command ⟨0x0100000000000000#64, []⟩] } := by
  refine ⟨⟨inv_ready.frame _ _ _ _ _, .inl ⟨_, rfl⟩, by decide, _, rfl⟩, ⟨inv_decOpen _, ?_, _, rfl⟩,
    ⟨(inv_decOpen []).frame _ _ _ _ _, .inl ⟨_, rfl⟩, _, rfl⟩, .inr ⟨_, _, rfl, test_decode_ctlRst⟩⟩
  rintro (⟨ms, h⟩ | ⟨c, ms, h, _⟩) <;> cases h

theorem test_meets_SoundStatesNeverGetStuck : Inv ready ∧ Inv (decOpen []) := ⟨inv_ready, inv_decOpen _⟩

theorem test_meets_FirstFaultIsKept : ({ State.reset with ph := .fault, fcause := .dupPhrase } : State).ph = .fault ∧
    (∃ t, step { State.reset with ph := .fault, fcause := .dupPhrase } = .next t) ∧
    (∃ t, step { State.reset with ph := .fault, fcause := .dupPhrase, host := [.reset] } = .next t) :=
  ⟨by decide, ⟨_, rfl⟩, ⟨_, rfl⟩⟩

/-- Two states with one source and one configuration, and different leftovers. -/
theorem test_meets_CompressionIgnoresHistory :
    ({ ready with src := [], pk := ⟨1, 3⟩, snk := [7] } : State).cfgBits = ready.cfgBits ∧
    (∃ t, exec .cRun { ready with src := [] } = .next t) ∧
    (∃ t, exec .cRun { ready with src := [], pk := ⟨1, 3⟩, snk := [7] } = .next t) := ⟨rfl, ⟨_, rfl⟩, ⟨_, rfl⟩⟩

/-- A compression of one byte and one of none, and for the stream of either a decompressor just reset, whose parameters are
not the compressor's. -/
theorem test_meets_RoundTrip : (Inv ready ∧ ready.ph = .idle ∧ ready.snk = [] ∧ ready.src = [0x41]) ∧
    (∃ t, exec .cRun { ready with src := [] } = .next t ∧ t.ph = .done) ∧
    ∀ t : State, ∃ r : State, r.ph = .idle ∧ r.config = ready.config ∧ r.src = t.snk ∧ r.snk = [] ∧
      r.cfgVar ≠ ready.cfgVar ∧ r.cfgBits ≠ ready.cfgBits :=
  ⟨⟨inv_ready, rfl, rfl, rfl⟩, ⟨_, rfl, rfl⟩, fun t => ⟨{ State.reset with src := t.snk }, rfl, rfl, rfl, rfl,
    show false ≠ true by decide, show 12 ≠ 9 by decide⟩⟩

end Sys2Proof.Tests
end

section
/-! PROOFS. Family 10_state.md: what is common to all commands, the values at reset, search and insertion as operations on the
dictionary, faults kept, compression independent of earlier sessions, and soundness kept by every step. -/

namespace Sys2Proof.Machine

/-! ### Every command but CTL.RST is its preamble and a body (R213) -/

theorem exec_eq_command {i : Instr} (hi : i ≠ .ctlRst) : ∃ body, ∀ s, exec i s = command (legalPhases i) body s := by
  cases i with
  | ctlRst => exact absurd rfl hi
  | _ => exact ⟨_, fun _ => rfl⟩

/-- In phase FAULT every command but CTL.RST only answers the recorded cause (R213, R230). -/
theorem exec_in_fault {i : Instr} {s : State} (hi : i ≠ .ctlRst) (h : s.ph = .fault) :
    exec i s = .next (respond (Response.failed s.fcause) s) := by
  obtain ⟨body, hexec⟩ := exec_eq_command hi
  rw [hexec, command_fault h]

/-- A command that is legal in IDLE and DONE only is shut out of sessions (R213, R223). -/
theorem shutOutOfSessions_of_legalPhases {i : Instr} (hi : i ≠ .ctlRst) (h : legalPhases i = outsideSession) :
    ShutOutOfSessions i := by
  obtain ⟨body, hexec⟩ := exec_eq_command hi
  rw [h] at hexec
  refine ⟨fun s hs => ?_, fun s hs => exec_in_fault hi hs⟩
  rw [hexec]
  apply command_illegal <;> rcases hs with hs | hs | hs <;> simp [mem_outsideSession, hs]

/-! ### The reset state (R37) -/

/-- Settles O54: each value is read off the reset state. -/
theorem resetValues : Obligations.ResetValues :=
  ⟨rfl, rfl, rfl, rfl, rfl, rfl, rfl, rfl, rfl, rfl, rfl, rfl, rfl, rfl, rfl, rfl, rfl, rfl⟩

/-- Settles O55: the reset state is the configured one with its own parameters and nothing bound. -/
theorem resetIsSound : Obligations.ResetIsSound :=
  inv_configured Config.default (by decide) false 12 (by decide) []

/-! ### Search and insertion (R33, R122) -/

/-- Settles O17: both sides say that the phrase's path leads to a terminal slot with the code. -/
theorem searchIsTheDictionary : Obligations.SearchIsTheDictionary :=
  fun _ _ _ h => (trieSearch_eq_some h.sorted).trans h.denotes_iff.symm

/-- Settles O13: the insertion grows the trie by the phrase, because no case of its walk needs more than two slots. -/
theorem insertStoresExactlyThePhrase : Obligations.InsertStoresExactlyThePhrase := by
  refine ⟨fun s p v hs hi hp hlen hnone hroom => ?_,
    fun p v => shutOutOfSessions_of_legalPhases Instr.noConfusion rfl⟩
  obtain ⟨k, hfresh, hgrow, _⟩ := (trieInsert_spec hi s.config.trieNodes p v hp).2 hnone
  have hk := hfresh.le_two
  obtain ⟨tr, hins, halloc, hgrown⟩ := hgrow (.inr (by omega))
  refine ⟨tr, ?_, hgrown.inv, hgrown.size, by omega, hgrown.search hi hnone⟩
  have hfits : ¬ s.config.phraseMax < p.length := Nat.not_lt.2 hlen
  rw [exec, execTrieIns, command_outside (mem_outsideSession.2 hs)]
  simp only [hfits, if_false, insertPhrase, hins, andThen_done, complete_done]
  rfl

/-! ### What a step can come to (R217) -/

/-- A step whose move is a reset resets the block (R211, R250). -/
theorem step_of_reset {s : State} (h : ResetIsNext s) :
    ∃ host out, step s = .next { resetBlock s with host := host, out := out } := by
  rcases h with ⟨ms, hhost⟩ | ⟨c, ms, hhost, hdec⟩
  · exact ⟨ms, .nothing, by rw [step, runHost, hhost]; rfl⟩
  · refine ⟨ms, .response Response.ok, ?_⟩
    rw [step, runHost, hhost]
    simp only [performMove, takeCommand, hdec]
    rfl

/-- A step changes nothing but the streams, the pending moves and what the host got (no move, `H.BIND`, `H.TAKE`); or it
resets the block; or it runs a command other than CTL.RST; or it answers a reserved opcode. -/
theorem step_cases {s t : State} (h : step s = .next t) :
    (∃ src snk host out, t = { s with src := src, snk := snk, host := host, out := out }) ∨
    (ResetIsNext s ∧ ∃ host out, t = { resetBlock s with host := host, out := out }) ∨
    (∃ i ms, i ≠ .ctlRst ∧ exec i { s with host := ms } = .next t) ∨
    (∃ ms, reservedCommand { s with host := ms } = .next t) := by
  by_cases hreset : ResetIsNext s
  · obtain ⟨host, out, hstep⟩ := step_of_reset hreset
    rw [hstep] at h
    cases h
    exact .inr (.inl ⟨hreset, host, out, rfl⟩)
  rw [step, runHost] at h
  split at h
  · cases h
    exact .inl ⟨s.src, s.snk, s.host, s.out, rfl⟩
  · rename_i m ms hhost
    cases m with
    | bind x =>
      rw [performMove, hostBind] at h
      split at h <;> cases h
      exact .inl ⟨x, [], ms, .nothing, rfl⟩
    | take =>
      cases h
      exact .inl ⟨s.src, s.snk, ms, .sink s.snk, rfl⟩
    | reset => exact absurd (.inl ⟨ms, hhost⟩) hreset
    | command c =>
      rw [performMove, takeCommand] at h
      split at h
      · rename_i i hdec
        refine .inr (.inr (.inl ⟨i, ms, ?_, h⟩))
        rintro rfl
        exact hreset (.inr ⟨c, ms, hhost, hdec⟩)
      · exact .inr (.inr (.inr ⟨ms, h⟩))

/-! ### Faults are kept (R24, R230) -/

/-- Settles O58: in phase FAULT a command only answers, so the reset alone writes the phase, the cause or a store. -/
theorem firstFaultIsKept : Obligations.FirstFaultIsKept := by
  intro s t hs hstep
  rcases step_cases hstep with ⟨_, _, _, _, rfl⟩ | ⟨hreset, _, _, rfl⟩ | ⟨i, ms, hi, h⟩ | ⟨ms, h⟩
  · exact .inl ⟨hs, rfl, rfl, rfl, rfl, rfl, rfl, rfl⟩
  · exact .inr ⟨rfl, rfl, hreset⟩
  · have hs' : ({ s with host := ms } : State).ph = .fault := hs
    rw [exec_in_fault hi hs'] at h
    cases h
    exact .inl ⟨hs, rfl, rfl, rfl, rfl, rfl, rfl, rfl⟩
  · have hs' : ({ s with host := ms } : State).ph = .fault := hs
    rw [reservedCommand, command_fault hs'] at h
    cases h
    exact .inl ⟨hs, rfl, rfl, rfl, rfl, rfl, rfl, rfl⟩

/-! ### A compression session whatever earlier sessions left (R38, R177) -/

/-- The state `s` of a compression session as it is where the session was opened in `c`: what the compression driver never
touches stands as in `c`, and the sink holds what it held in `c` before what the session pushed. -/
def sessionIn (c s : State) : State :=
  { s with
    fcause := c.fcause, old := c.old, decNext := c.decNext, up := c.up, upEos := c.upEos, rd := c.rd, host := c.host
    out := c.out, snk := c.snk ++ s.snk }

section
variable (c s : State)

@[simp] theorem sessionIn_ph : (sessionIn c s).ph = s.ph := rfl
@[simp] theorem sessionIn_cfgVar : (sessionIn c s).cfgVar = s.cfgVar := rfl
@[simp] theorem sessionIn_cfgBits : (sessionIn c s).cfgBits = s.cfgBits := rfl
@[simp] theorem sessionIn_compS : (sessionIn c s).compS = s.compS := rfl
@[simp] theorem sessionIn_encNext : (sessionIn c s).encNext = s.encNext := rfl
@[simp] theorem sessionIn_pk : (sessionIn c s).pk = s.pk := rfl
@[simp] theorem sessionIn_trie : (sessionIn c s).trie = s.trie := rfl
@[simp] theorem sessionIn_src : (sessionIn c s).src = s.src := rfl
@[simp] theorem sessionIn_snk : (sessionIn c s).snk = c.snk ++ s.snk := rfl
@[simp] theorem sessionIn_config : (sessionIn c s).config = s.config := rfl
@[simp] theorem sessionIn_cap : cap (sessionIn c s) = cap s := rfl

theorem snkPush_sessionIn (b : Byte) : snkPush b (sessionIn c s) = sessionIn c (snkPush b s) := by
  simp [snkPush, sessionIn]

theorem pkDrain_sessionIn (n : Nat) : pkDrain n (sessionIn c s) = sessionIn c (pkDrain n s) := by
  induction n generalizing s with
  | zero => rfl
  | succ n ih =>
    simp only [pkDrain, sessionIn_pk, snkPush_sessionIn]
    split
    · exact ih { snkPush (lowByte (s.pk.acc >>> (s.pk.cnt - 8))) s with
        pk := ⟨lowBits s.pk.acc (s.pk.cnt - 8), s.pk.cnt - 8⟩ }
    · rfl

theorem pkEmit_sessionIn (code w : Nat) : pkEmit code w (sessionIn c s) = (pkEmit code w s).mapState (sessionIn c) := by
  rw [pkEmit, pkEmit, sessionIn_config]
  split
  · rfl
  · split
    · rfl
    · exact congrArg (Proc.done ())
        (pkDrain_sessionIn c { s with pk := ⟨s.pk.acc <<< w ||| code, s.pk.cnt + w⟩ } (s.pk.cnt + w))

theorem pkFlush_sessionIn : pkFlush (sessionIn c s) = sessionIn c (pkFlush s) := by
  simp only [pkFlush, sessionIn_pk, snkPush_sessionIn]
  split <;> rfl

theorem emitMatch_sessionIn : emitMatch (sessionIn c s) = (emitMatch s).mapState (sessionIn c) := by
  simp only [emitMatch, sessionIn_trie, sessionIn_compS]
  cases trieSearch s.trie s.compS with
  | none => rfl
  | some code => exact pkEmit_sessionIn c s _ _

theorem insertPhrase_sessionIn (p : Phrase) (v : Code) :
    insertPhrase p v (sessionIn c s) = (insertPhrase p v s).mapState (sessionIn c) := by
  simp only [insertPhrase, sessionIn_trie, sessionIn_config]
  cases trieInsert s.config.trieNodes p v s.trie <;> rfl

theorem growTrie_sessionIn (p : Phrase) : growTrie p (sessionIn c s) = (growTrie p s).mapState (sessionIn c) := by
  simp only [growTrie, sessionIn_encNext, sessionIn_cap, insertPhrase_sessionIn]
  split
  · exact andThen_mapState _ _ _ fun _ _ => rfl
  · rfl

theorem cConsume_sessionIn (b : Byte) : cConsume b (sessionIn c s) = (cConsume b s).mapState (sessionIn c) := by
  simp only [cConsume, sessionIn_trie, sessionIn_compS, emitMatch_sessionIn]
  cases trieSearch s.trie (s.compS ++ [b]) with
  | some code => rfl
  | none =>
    refine andThen_mapState _ _ _ fun _ s1 => ?_
    rw [growTrie_sessionIn]
    exact andThen_mapState _ _ _ fun _ _ => rfl

theorem cFinish_sessionIn : cFinish (sessionIn c s) = (cFinish s).mapState (sessionIn c) := by
  have hmatch : (if s.compS = [] then .done () (sessionIn c s) else emitMatch (sessionIn c s))
      = (if s.compS = [] then .done () s else emitMatch s).mapState (sessionIn c) := by
    split
    · rfl
    · exact emitMatch_sessionIn c s
  rw [cFinish, cFinish, sessionIn_compS, hmatch]
  refine andThen_mapState _ _ _ fun _ s1 => ?_
  rw [pkFlush_sessionIn]
  rfl

theorem cStep_sessionIn : cStep (sessionIn c s) = (cStep s).mapState (sessionIn c) := by
  rw [cStep, cStep, srcPull, srcPull, sessionIn_src]
  cases s.src with
  | nil => exact cFinish_sessionIn c s
  | cons b bs => exact cConsume_sessionIn c { s with src := bs } b

/-- The passes of C.RUN push the same bytes wherever the session was opened. -/
theorem cLoop_sessionIn (n : Nat) : cLoop n (sessionIn c s) = (cLoop n s).mapState (sessionIn c) := by
  induction n generalizing s with
  | zero => rfl
  | succ n ih =>
    rw [cLoop, cLoop, sessionIn_ph, cStep_sessionIn]
    split
    · exact andThen_mapState _ _ _ fun _ s1 => ih s1
    · rfl

end

/-- The reset state with the parameters and the source of `s`. -/
def freshFor (s : State) : State :=
  { State.reset with cfgVar := s.cfgVar, cfgBits := s.cfgBits, config := s.config, src := s.src }

/-- C.START leaves in every state what it leaves in a fresh one (R38). -/
theorem cStart_eq_sessionIn (s : State) : cStart s = sessionIn s (cStart (freshFor s)) := by
  simp only [cStart, snkPushAll_eq, sessionIn, freshFor, State.reset, headerBytes, List.nil_append]

/-- C.RUN outside a session is C.RUN from a fresh state. -/
theorem cRun_eq_sessionIn {s : State} (h : s.ph = .idle ∨ s.ph = .done) :
    cRun s = (cRun (freshFor s)).mapState (sessionIn s) := by
  have hp : s.ph ≠ .comp := by rcases h with h | h <;> simp [h]
  have hp' : (freshFor s).ph ≠ .comp := by simp [freshFor, State.reset]
  simp only [cRun, if_neg hp, if_neg hp']
  rw [cStart_eq_sessionIn s, sessionIn_src, cLoop_sessionIn]
  exact andThen_mapState _ _ _ fun _ _ => rfl

/-- What C.RUN pushes outside a session, whether it ends or raises a cause, is what it pushes in a fresh state. -/
theorem cRun_pushes {s t : State} (h : s.ph = .idle ∨ s.ph = .done) (hrun : exec .cRun s = .next t) :
    ∃ u, ((∃ r, cRun (freshFor s) = .done r u) ∨ ∃ x, cRun (freshFor s) = .raised x u) ∧ t.snk = s.snk ++ u.snk := by
  have hf : s.ph ≠ .fault := by rcases h with h | h <;> simp [h]
  have hl : s.ph ∈ [Phase.idle, .done, .comp] := by rcases h with h | h <;> simp [h]
  rw [exec, execCRun, command_legal hf hl, cRun_eq_sessionIn h] at hrun
  cases hc : cRun (freshFor s) with
  | done r u =>
    rw [hc] at hrun
    cases hrun
    exact ⟨u, .inl ⟨r, rfl⟩, rfl⟩
  | raised x u =>
    rw [hc] at hrun
    cases hrun
    exact ⟨u, .inr ⟨x, rfl⟩, rfl⟩
  | stuck f =>
    rw [hc] at hrun
    cases hrun

/-- Settles O59: both runs are the run of the same fresh state. -/
theorem compressionIgnoresHistory : Obligations.CompressionIgnoresHistory := by
  intro s s' t t' hs hs' hv hb hc hsrc hrun hrun'
  have hfresh : freshFor s' = freshFor s := by simp only [freshFor, hv, hb, hc, hsrc]
  obtain ⟨u, hu, hsnk⟩ := cRun_pushes hs hrun
  obtain ⟨u', hu', hsnk'⟩ := cRun_pushes hs' hrun'
  rw [hfresh] at hu'
  have huu : u' = u := by
    rcases hu with ⟨r, hu⟩ | ⟨x, hu⟩ <;> simpa [hu, eq_comm] using hu'
  exact ⟨u.snk, hsnk, huu ▸ hsnk'⟩

/-! ### Soundness through a command (R213, R228) -/

/-- A procedure ends in a sound state, whether it is done or has raised a cause. -/
def Proc.Sound {α : Type} : Proc α → Prop
  | .done _ s => Inv s
  | .raised c s => c ≠ .none ∧ Inv s
  | .stuck _ => True

theorem Proc.Sound.andThen {α β : Type} {p : Proc α} {k : α → State → Proc β} (hp : p.Sound)
    (hk : ∀ a s, Inv s → (k a s).Sound) : (p.andThen k).Sound := by
  cases p with
  | done a s => exact hk a s hp
  | raised c s => exact hp
  | stuck f => trivial

/-- A command whose body ends in a sound state leads to a sound state. -/
theorem Inv.command {legal : List Phase} {body : State → Proc Response} {s t : State} (i : Inv s)
    (hbody : s.ph ∈ legal → (body s).Sound) (h : command legal body s = .next t) : Inv t := by
  rcases command_cases legal body s with ⟨_, e⟩ | ⟨_, _, e⟩ | ⟨_, hl, e⟩ <;> rw [e] at h
  · cases h
    exact i.respond _
  · cases h
    exact i.faultEntry (by decide)
  · have hs := hbody hl
    rcases complete_eq_next.1 h with ⟨r, u, hp, rfl⟩ | ⟨c, u, hp, rfl⟩ <;> rw [hp] at hs
    · exact hs.respond r
    · exact hs.2.faultEntry hs.1

/-! ### The units outside a session -/

/-- Outside a session the parameters, the packer, the unpacker, the trie and the table may each change to any value in its
own range: no clause of soundness ties them to one another. -/
theorem Inv.withUnits {s : State} (i : Inv s) (h : s.ph = .idle ∨ s.ph = .done) {v : Bool} {fb : Nat} {pk up : BitBuf}
    {tr : Trie} {rd : List Phrase} (hfb : minBits ≤ fb ∧ fb ≤ s.config.maxBits) (hpk : pk.cnt ≤ 7 ∧ BufClean pk)
    (hup : up.cnt ≤ s.config.maxBits ∧ BufClean up) (htr : TrieInv tr) (harena : trAlloc tr ≤ s.config.trieNodes)
    (htable : rd.length ≤ s.config.rdSize) (hentries : ∀ p ∈ rd, 1 ≤ p.length ∧ p.length ≤ s.config.phraseMax) :
    Inv { s with cfgVar := v, cfgBits := fb, pk := pk, up := up, trie := tr, rd := rd } := by
  refine ⟨i.config, i.cause, hfb, i.prefixLength, i.encRange, i.oldLength, i.decRange, hpk, hup, htr, harena, htable,
    hentries, fun hc => ?_, fun hd => ?_⟩
  · rcases h with h | h <;> cases h.symm.trans hc
  · rcases h with h | h <;> rcases hd with hd | hd <;> cases h.symm.trans hd

section
variable {s : State}

theorem Inv.withTrie (i : Inv s) (h : s.ph = .idle ∨ s.ph = .done) {tr : Trie} (htr : TrieInv tr)
    (harena : trAlloc tr ≤ s.config.trieNodes) : Inv { s with trie := tr } :=
  i.withUnits h i.bits i.packer i.unpacker htr harena i.table i.entries

theorem Inv.withTable (i : Inv s) (h : s.ph = .idle ∨ s.ph = .done) {rd : List Phrase}
    (htable : rd.length ≤ s.config.rdSize) (hentries : ∀ p ∈ rd, 1 ≤ p.length ∧ p.length ≤ s.config.phraseMax) :
    Inv { s with rd := rd } :=
  i.withUnits h i.bits i.packer i.unpacker i.trie i.arena htable hentries

theorem Inv.withPacker (i : Inv s) (h : s.ph = .idle ∨ s.ph = .done) {pk : BitBuf} (hpk : pk.cnt ≤ 7 ∧ BufClean pk)
    (snk : List Byte) : Inv { s with snk := snk, pk := pk } :=
  (i.withUnits h i.bits hpk i.unpacker i.trie i.arena i.table i.entries).frame s.src snk s.upEos s.host s.out

theorem Inv.withUnpacker (i : Inv s) (h : s.ph = .idle ∨ s.ph = .done) {up : BitBuf}
    (hup : up.cnt ≤ s.config.maxBits ∧ BufClean up) (src : List Byte) (eos : Bool) :
    Inv { s with up := up, upEos := eos, src := src } :=
  (i.withUnits h i.bits i.packer hup i.trie i.arena i.table i.entries).frame src s.snk eos s.host s.out

theorem Inv.withParameters (i : Inv s) (h : s.ph = .idle ∨ s.ph = .done) {v : Bool} {fb : Nat}
    (hfb : minBits ≤ fb ∧ fb ≤ s.config.maxBits) : Inv { s with cfgVar := v, cfgBits := fb } :=
  i.withUnits h hfb i.packer i.unpacker i.trie i.arena i.table i.entries

/-! ### The procedures of the units -/

theorem bufEmpty_sound (n : Nat) : BitBuf.empty.cnt ≤ n ∧ BufClean BitBuf.empty := ⟨Nat.zero_le n, Nat.one_pos⟩

/-- The arena holds the trie of the alphabet (R121). -/
theorem alphabetTrie_fits {c : Config} (h : c.legal) : trAlloc (alphabetTrie 256) ≤ c.trieNodes := by
  have : 2 ^ 10 ≤ 2 ^ (c.maxBits + 1) := Nat.pow_le_pow_right (by omega) (by have := h.1; omega)
  rw [trAlloc_alphabetTrie, Config.trieNodes]
  omega

/-- An insertion leaves a trie in its form and within the arena, or raises DUP_PHRASE or STORE_FULL (R122, R124, R125). -/
theorem trieInsert_cases {t : Trie} {limit : Nat} (hi : TrieInv t) (hl : trAlloc t ≤ limit) (p : Phrase) (v : Code) :
    (∃ t', trieInsert limit p v t = .ok t' ∧ TrieInv t' ∧ trAlloc t' ≤ limit) ∨
    trieInsert limit p v t = .error .dupPhrase ∨ trieInsert limit p v t = .error .storeFull := by
  by_cases hp : p = []
  · subst hp
    exact .inl ⟨t, rfl, hi, hl⟩
  obtain ⟨hdup, hnew⟩ := trieInsert_spec hi limit p v hp
  cases hs : trieSearch t p with
  | some c => exact .inr (.inl (hdup c hs))
  | none =>
    obtain ⟨k, _, hroom, hfull⟩ := hnew hs
    by_cases hk : trAlloc t + k ≤ limit
    · obtain ⟨t', hins, halloc, hgrown⟩ := hroom (.inr hk)
      exact .inl ⟨t', hins, hgrown.inv, by omega⟩
    · exact .inr (.inr (hfull (by omega) (by omega)))

theorem insertPhrase_sound (i : Inv s) (h : s.ph = .idle ∨ s.ph = .done) (p : Phrase) (v : Code) :
    (insertPhrase p v s).Sound := by
  rcases trieInsert_cases i.trie i.arena p v with ⟨t', e, ht, ha⟩ | e | e <;> simp only [insertPhrase, e]
  · exact i.withTrie h ht ha
  · exact ⟨by decide, i⟩
  · exact ⟨by decide, i⟩

theorem rdInit_sound (i : Inv s) (h : s.ph = .idle ∨ s.ph = .done) : Inv (rdInit s) := by
  have hsize : 256 ≤ 2 ^ s.config.maxBits := i.encRange.1.trans i.encRange.2
  refine i.withTable h (by rw [alphabet_length]; exact hsize) fun p hp => ?_
  obtain ⟨j, _, rfl⟩ := List.mem_map.1 hp
  exact ⟨le_refl 1, Nat.one_le_two_pow⟩

theorem rdExtend_sound (i : Inv s) (h : s.ph = .idle ∨ s.ph = .done) (c : Nat) (p : Phrase) : (rdExtend c p s).Sound := by
  rw [rdExtend]
  split
  · exact ⟨by decide, i⟩
  split
  · exact ⟨by decide, i⟩
  split
  · exact ⟨by decide, i⟩
  · rename_i _ hlen hfull
    refine i.withTable h ?_ fun q hq => ?_
    · rw [List.length_append, List.length_singleton]
      exact Nat.not_le.1 hfull
    · rcases List.mem_append.1 hq with hq | hq
      · exact i.entries q hq
      · rw [List.mem_singleton.1 hq]
        omega

theorem pkEmit_sound (i : Inv s) (h : s.ph = .idle ∨ s.ph = .done) (c w : Nat) : (pkEmit c w s).Sound := by
  by_cases hw : 1 ≤ w ∧ w ≤ s.config.maxW
  · by_cases hc : c < 2 ^ w
    · obtain ⟨x, b, e, h7, hclean, _⟩ := pkEmit_spec hw hc i.packer.2
      rw [e]
      exact i.withPacker h ⟨h7, hclean⟩ _
    · rw [pkEmit, widthLegal_iff.2 hw, if_neg (by simp), if_pos (by omega)]
      exact ⟨by decide, i⟩
  · rw [pkEmit, if_pos (by simpa [widthLegal] using hw)]
    exact ⟨by decide, i⟩

theorem pkFlush_sound (i : Inv s) (h : s.ph = .idle ∨ s.ph = .done) : Inv (pkFlush s) := by
  obtain ⟨x, e⟩ := pkFlush_frame s
  rw [e]
  exact i.withPacker h (bufEmpty_sound 7) _

/-- What UpRead leaves held is fewer than MAXW bits: fewer than it held, fewer than 8, or fewer than it was to read (R30). -/
theorem upRead_sound (i : Inv s) (h : s.ph = .idle ∨ s.ph = .done) (w : Nat) : (upRead w s).Sound := by
  by_cases hw : 1 ≤ w ∧ w ≤ s.config.maxW
  · by_cases hl : w ≤ (pendingBits s).length
    · obtain ⟨c, k, b, e, _, hclean, hcnt, _⟩ := upRead_code hw i.unpacker.2 hl
      have h9 := i.config.1
      have hheld := i.unpacker.1
      rw [e]
      exact i.withUnpacker h ⟨by omega, hclean⟩ _ _
    · obtain ⟨b, e, hclean, hbits⟩ := upRead_eos hw i.unpacker.2 (Nat.lt_of_not_le hl)
      have hcnt : b.cnt = (pendingBits s).length := by simpa using congrArg List.length hbits
      have hmax : w ≤ s.config.maxBits + 1 := hw.2
      rw [e]
      exact i.withUnpacker h ⟨by omega, hclean⟩ _ _
  · rw [upRead_bad_width hw]
    exact ⟨by decide, i⟩

theorem configure_sound (i : Inv s) (h : s.ph = .idle ∨ s.ph = .done) (v : BitVec 8) (fb : BitVec 32) :
    (configure v fb s).Sound := by
  rw [configure]
  split
  · exact ⟨by decide, i⟩
  split
  · exact ⟨by decide, i⟩
  · rename_i _ hrange
    refine i.withParameters h ?_
    have hlt := fb.isLt
    have hmax := i.config.2
    simp only [sext32, minBits, BitVec.toInt_eq_toNat_cond] at hrange
    simp only [minBits, operandB]
    split at hrange <;> omega

/-! ### The drivers -/

theorem cStep_sound (i : Inv s) (h : s.ph = .comp) : (cStep s).Sound := by
  rcases srcPull_cases s with ⟨_, e⟩ | ⟨b, bs, _, e⟩ <;> rw [cStep, e]
  · obtain ⟨x, hf, hi, _⟩ := cFinish_spec i h
    show (cFinish s).Sound
    rw [hf]
    exact hi
  · have i1 : Inv { s with src := bs } := i.frame bs s.snk s.upEos s.host s.out
    have h1 : ({ s with src := bs } : State).ph = .comp := h
    show (cConsume b { s with src := bs }).Sound
    cases hc : trieSearch s.trie (s.compS ++ [b]) with
    | some c =>
      rw [cConsume_found (s := { s with src := bs }) hc]
      exact i1.extendMatch h1 hc
    | none =>
      obtain ⟨_, x, pk, tr, n, _, _, e, _, _, _, _, _, hi⟩ := cConsume_missed i1 h1 hc
      rw [e]
      exact hi

theorem cRun_sound (i : Inv s) (h : s.ph = .idle ∨ s.ph = .done ∨ s.ph = .comp) : (cRun s).Sound := by
  have hopen : Inv (if s.ph = .comp then s else cStart s) ∧ (if s.ph = .comp then s else cStart s).ph = .comp := by
    split
    · rename_i hc
      exact ⟨i, hc⟩
    · rename_i hc
      exact ⟨i.cStart (by tauto), cStart_ph s⟩
  obtain ⟨x, tr, S, k, e, _, hi⟩ := cLoop_spec hopen.1 hopen.2 (Nat.lt_succ_self _)
  rw [cRun]
  simp only [e, andThen_done]
  exact hi

theorem dStart_sound (i : Inv s) (h : s.ph = .idle ∨ s.ph = .done) : (dStart s).Sound := by
  rcases dStart_cases s with e | ⟨v, fb, _, hf, e⟩ <;> rw [e]
  · exact ⟨by decide, i.frame _ s.snk s.upEos s.host s.out⟩
  · exact i.dStarted h (headerFields_some hf) _

theorem dStep_sound (i : Inv s) (h : s.ph = .dec0 ∨ s.ph = .dec1) : (dStep s).Sound := by
  by_cases hl : dWidth s ≤ (pendingBits s).length
  · rcases dStep_advances i h hl with ⟨t, e, _, hi, _⟩ | ⟨c, t, e, hc, hi, _⟩ <;> rw [e]
    · exact hi
    · exact ⟨by rcases hc with rfl | rfl <;> decide, hi⟩
  · obtain ⟨b, e, _, _, hi⟩ := dStep_end i h (Nat.lt_of_not_le hl)
    rw [e]
    exact hi

/-- The passes of D.RUN in an open session (R197). -/
theorem dLoop_sound (i : Inv s) (h : s.ph = .dec0 ∨ s.ph = .dec1) : (dLoop (dFuel s) s).Sound := by
  have hfuel : (pendingBits s).length < dFuel s := by
    simp only [pendingBits, dFuel, List.length_append, bitsOf_length, byteBits_length]
    omega
  obtain ⟨t, hi, _, ⟨e, _⟩ | ⟨c, hc, e⟩⟩ := dLoop_spec i h hfuel <;> rw [e]
  · exact hi
  · exact ⟨by rcases hc with rfl | rfl <;> decide, hi⟩

theorem dRun_sound (i : Inv s) (h : s.ph = .idle ∨ s.ph = .done ∨ s.ph = .dec0 ∨ s.ph = .dec1) : (dRun s).Sound := by
  rw [dRun]
  split
  · rename_i hopen
    exact (dLoop_sound i hopen).andThen fun _ _ hi => hi
  · rename_i hclosed
    have hout : s.ph = .idle ∨ s.ph = .done := by tauto
    rcases dStart_cases s with e | ⟨v, fb, _, hf, e⟩ <;> rw [e]
    · exact ⟨by decide, i.frame _ s.snk s.upEos s.host s.out⟩
    · exact (dLoop_sound (i.dStarted hout (headerFields_some hf) _) (.inl rfl)).andThen fun _ _ hi => hi

end

/-! ### Soundness through a step -/

/-- Every command but CTL.RST is its preamble and a body that ends in a sound state where the command is legal. -/
theorem exec_eq_soundCommand {i : Instr} (hi : i ≠ .ctlRst) :
    ∃ body, (∀ s, exec i s = command (legalPhases i) body s) ∧ ∀ s, Inv s → s.ph ∈ legalPhases i → (body s).Sound := by
  cases i with
  | ctlRst => exact absurd rfl hi
  | ctlNop => exact ⟨_, fun _ => rfl, fun _ i _ => i⟩
  | ctlCfg v fb =>
    exact ⟨_, fun _ => rfl, fun s i h => (configure_sound i (mem_outsideSession.1 h) v fb).andThen fun _ _ hi => hi⟩
  | trieClr => exact ⟨_, fun _ => rfl, fun s i h => i.withTrie (mem_outsideSession.1 h) trieInv_cleared Nat.one_le_two_pow⟩
  | trieInit =>
    refine ⟨_, fun _ => rfl, fun s i h => ?_⟩
    show Inv { s with trie := Machine.trieInit s.config.trieNodes }
    rw [trieInit_legal i.config]
    exact i.withTrie (mem_outsideSession.1 h) (trieInv_alphabetTrie (le_refl _)) (alphabetTrie_fits i.config)
  | trieIns p v =>
    refine ⟨_, fun _ => rfl, fun s i h => ?_⟩
    split
    · exact ⟨by decide, i⟩
    · exact (insertPhrase_sound i (mem_outsideSession.1 h) p v).andThen fun _ _ hi => hi
  | trieSrch p =>
    refine ⟨_, fun _ => rfl, fun s i _ => ?_⟩
    split
    · exact ⟨by decide, i⟩
    · cases trieSearch s.trie p <;> exact i
  | trieSize => exact ⟨_, fun _ => rfl, fun _ i _ => i⟩
  | rdInit => exact ⟨_, fun _ => rfl, fun s i h => rdInit_sound i (mem_outsideSession.1 h)⟩
  | rdExt c p =>
    exact ⟨_, fun _ => rfl, fun s i h => (rdExtend_sound i (mem_outsideSession.1 h) _ p).andThen fun _ _ hi => hi⟩
  | rdLkp c =>
    refine ⟨_, fun _ => rfl, fun s i _ => ?_⟩
    cases rdLookup (operandB c) s <;> exact i
  | pkClr => exact ⟨_, fun _ => rfl, fun s i h => i.withPacker (mem_outsideSession.1 h) (bufEmpty_sound 7) s.snk⟩
  | pkEmit c w =>
    exact ⟨_, fun _ => rfl, fun s i h => (pkEmit_sound i (mem_outsideSession.1 h) _ _).andThen fun _ _ hi => hi⟩
  | pkFlush => exact ⟨_, fun _ => rfl, fun s i h => pkFlush_sound i (mem_outsideSession.1 h)⟩
  | upClr =>
    exact ⟨_, fun _ => rfl, fun s i h => i.withUnpacker (mem_outsideSession.1 h) (bufEmpty_sound _) s.src false⟩
  | upRead w =>
    exact ⟨_, fun _ => rfl, fun s i h => (upRead_sound i (mem_outsideSession.1 h) _).andThen fun r _ hi => by
      cases r <;> exact hi⟩
  | widGet n => exact ⟨_, fun _ => rfl, fun _ i _ => i⟩
  | cStart => exact ⟨_, fun _ => rfl, fun s i h => i.cStart (mem_outsideSession.1 h)⟩
  | cStep => exact ⟨_, fun _ => rfl, fun s i h => cStep_sound i (List.mem_singleton.1 h)⟩
  | cRun => exact ⟨_, fun _ => rfl, fun s i h => cRun_sound i (by simpa [legalPhases] using h)⟩
  | dStart =>
    exact ⟨_, fun _ => rfl, fun s i h => (dStart_sound i (mem_outsideSession.1 h)).andThen fun _ _ hi => hi⟩
  | dStep => exact ⟨_, fun _ => rfl, fun s i h => dStep_sound i (by simpa [legalPhases] using h)⟩
  | dRun => exact ⟨_, fun _ => rfl, fun s i h => dRun_sound i (by simpa [legalPhases] using h)⟩

/-- Every command but CTL.RST keeps a sound state sound. -/
theorem exec_keeps_inv {i : Instr} (hi : i ≠ .ctlRst) {s t : State} (hs : Inv s) (h : exec i s = .next t) : Inv t := by
  obtain ⟨body, hexec, hbody⟩ := exec_eq_soundCommand hi
  rw [hexec] at h
  exact hs.command (hbody s hs) h

/-- Reset leaves everything sound but for `cfg_bits`, which is sound where its value is in range (R25, R37). -/
theorem Inv.resetBlock {s : State} (i : Inv s) {fb : Nat} (hfb : 9 ≤ fb ∧ fb ≤ s.config.maxBits) (host : List HostMove)
    (out : HostGets) : Inv { resetBlock s with cfgBits := fb, host := host, out := out } :=
  (inv_configured s.config i.config false fb hfb s.src).frame s.src s.snk false host out

/-- Settles O56, by what a step can come to: reset values are sound, and every other command's body ends in a sound state. -/
theorem everyStepKeepsSoundness : Obligations.EveryStepKeepsSoundness := by
  refine ⟨fun s t hs h12 hstep => ?_, fun s t hs hreset hstep => ?_⟩
  · rcases step_cases hstep with ⟨_, _, _, _, rfl⟩ | ⟨hreset, _, _, rfl⟩ | ⟨i, ms, hi, h⟩ | ⟨ms, h⟩
    · exact hs.frame _ _ s.upEos _ _
    · exact hs.resetBlock ⟨by omega, h12 hreset⟩ _ _
    · exact exec_keeps_inv hi (hs.frame s.src s.snk s.upEos ms s.out) h
    · exact (hs.frame s.src s.snk s.upEos ms s.out).command (fun hl => by cases hl) h
  · obtain ⟨host, out, e⟩ := step_of_reset hreset
    rw [e] at hstep
    cases hstep
    exact ⟨rfl, hs.resetBlock ⟨le_refl 9, hs.config.1⟩ host out⟩

end Sys2Proof.Machine
end

section
/-! PROOFS. Family 20_memory.md: the command a step runs, that a sound state is never stuck, and what each command may write:
its side of the block, and the streams only by pulls and pushes. -/

namespace Sys2Proof.Machine

/-! ### The command a step runs (R74, R105, R106) -/

theorem step_of_command {s : State} {c : Command} {ms : List HostMove} (h : s.host = .command c :: ms) :
    step s = takeCommand c { s with host := ms } := by
  rw [step, runHost, h]
  rfl

theorem takeCommand_instr {c : Command} {i : Instr} (h : decode c = .instr i) (s : State) : takeCommand c s = exec i s := by
  rw [takeCommand, h]

/-- The bits are an instruction's where they fit the one format and the transfer they stand for decodes to it. -/
theorem decodeTableWord_eq_some {n w : Nat} {i : Instr} :
    decodeTableWord n w = some i ↔ n ≤ 64 ∧ decode (tableCommand n w) = .instr i := by
  rw [decodeTableWord]
  split
  · cases decode (tableCommand n w) <;> simp [*]
  · simp [*]

/-- Settles O5: the host's next move is the command, and the one `withFetchWord` offers is the one its bits stand for. -/
theorem stepRunsTheDecodedCommand : Obligations.StepRunsTheDecodedCommand := by
  have hrun : ∀ (s : State) (c : Command) (ms : List HostMove) (i : Instr),
      s.host = .command c :: ms → decode c = .instr i → step s = exec i { s with host := ms } :=
    fun s c ms i hhost hdec => (step_of_command hhost).trans (takeCommand_instr hdec _)
  exact ⟨hrun, fun s w i hw => hrun (s.withFetchWord 64 w) _ s.host i rfl (decodeTableWord_eq_some.1 hw).2⟩

/-! ### Procedures that are not stuck -/

/-- A procedure is done or has raised a cause: the model's own faults are not reached. -/
def Proc.NotStuck {α : Type} : Proc α → Prop
  | .done _ _ => True
  | .raised _ _ => True
  | .stuck _ => False

theorem Proc.NotStuck.andThen {α β : Type} {p : Proc α} {k : α → State → Proc β} (hp : p.NotStuck)
    (hk : ∀ a s, (k a s).NotStuck) : (p.andThen k).NotStuck := by
  cases p with
  | done a s => exact hk a s
  | raised c s => trivial
  | stuck f => exact hp

/-- A command whose body is not stuck where it is legal has a next state. -/
theorem command_next {legal : List Phase} {body : State → Proc Response} {s : State}
    (h : s.ph ∈ legal → (body s).NotStuck) : ∃ t, command legal body s = .next t := by
  rcases command_cases legal body s with ⟨_, e⟩ | ⟨_, _, e⟩ | ⟨_, hl, e⟩ <;> rw [e]
  · exact ⟨_, rfl⟩
  · exact ⟨_, rfl⟩
  · have hbody := h hl
    cases hp : body s with
    | done r u => exact ⟨_, rfl⟩
    | raised c u => exact ⟨_, rfl⟩
    | stuck f => rw [hp] at hbody; exact hbody.elim

section
variable {s : State}

/-! The procedures of the units, in every state. -/

theorem configure_notStuck (v : BitVec 8) (fb : BitVec 32) : (configure v fb s).NotStuck := by
  rw [configure]
  split
  · trivial
  · split <;> trivial

theorem insertPhrase_notStuck (p : Phrase) (v : Code) : (insertPhrase p v s).NotStuck := by
  rw [insertPhrase]
  split <;> trivial

theorem rdExtend_notStuck (c : Nat) (p : Phrase) : (rdExtend c p s).NotStuck := by
  rw [rdExtend]
  split
  · trivial
  split
  · trivial
  · split <;> trivial

theorem pkEmit_notStuck (c w : Nat) : (pkEmit c w s).NotStuck := by
  rcases pkEmit_cases c w s with e | ⟨_, _, e⟩ <;> rw [e] <;> trivial

theorem upRead_notStuck (w : Nat) : (upRead w s).NotStuck := by
  rcases upRead_cases w s with e | ⟨_, _, _, _, e⟩ <;> rw [e] <;> trivial

theorem dStart_notStuck : (dStart s).NotStuck := by
  rcases dStart_cases s with e | ⟨_, _, _, _, e⟩ <;> rw [e] <;> trivial

/-! The drivers, in a sound state: the match held is stored (R178 (a)), `old` and the entries are not empty (R199). -/

theorem cStep_notStuck (i : Inv s) (h : s.ph = .comp) : (cStep s).NotStuck := by
  rcases srcPull_cases s with ⟨_, e⟩ | ⟨b, bs, _, e⟩ <;> rw [cStep, e]
  · obtain ⟨_, hf, _⟩ := cFinish_spec i h
    show (cFinish s).NotStuck
    rw [hf]
    trivial
  · have i1 : Inv { s with src := bs } := i.frame bs s.snk s.upEos s.host s.out
    show (cConsume b { s with src := bs }).NotStuck
    cases hc : trieSearch s.trie (s.compS ++ [b]) with
    | some c =>
      rw [cConsume_found (s := { s with src := bs }) hc]
      trivial
    | none =>
      obtain ⟨_, _, _, _, _, _, _, hm, _⟩ := cConsume_missed i1 h hc
      rw [hm]
      trivial

theorem cLoop_notStuck (i : Inv s) (h : s.ph = .comp) : (cLoop (s.src.length + 1) s).NotStuck := by
  obtain ⟨_, _, _, _, e, _⟩ := cLoop_spec i h (Nat.lt_succ_self _)
  rw [e]
  trivial

theorem cRun_notStuck (i : Inv s) (h : s.ph = .idle ∨ s.ph = .done ∨ s.ph = .comp) : (cRun s).NotStuck := by
  by_cases hc : s.ph = .comp
  · simp only [cRun, if_pos hc]
    exact (cLoop_notStuck i hc).andThen fun _ _ => trivial
  · simp only [cRun, if_neg hc]
    exact (cLoop_notStuck (i.cStart (by tauto)) (cStart_ph s)).andThen fun _ _ => trivial

theorem dStep_notStuck (i : Inv s) (h : s.ph = .dec0 ∨ s.ph = .dec1) : (dStep s).NotStuck := by
  by_cases hl : dWidth s ≤ (pendingBits s).length
  · rcases dStep_advances i h hl with ⟨_, e, _⟩ | ⟨_, _, e, _⟩ <;> rw [e] <;> trivial
  · obtain ⟨_, e, _⟩ := dStep_end i h (Nat.lt_of_not_le hl)
    rw [e]
    trivial

theorem dLoop_notStuck (i : Inv s) (h : s.ph = .dec0 ∨ s.ph = .dec1) : (dLoop (dFuel s) s).NotStuck := by
  have hfuel : (pendingBits s).length < dFuel s := by
    simp only [pendingBits, dFuel, List.length_append, bitsOf_length, byteBits_length]
    omega
  obtain ⟨_, _, _, ⟨e, _⟩ | ⟨_, _, e⟩⟩ := dLoop_spec i h hfuel <;> rw [e] <;> trivial

theorem dRun_notStuck (i : Inv s) (h : s.ph = .idle ∨ s.ph = .done ∨ s.ph = .dec0 ∨ s.ph = .dec1) : (dRun s).NotStuck := by
  rw [dRun]
  split
  · rename_i hopen
    exact (dLoop_notStuck i hopen).andThen fun _ _ => trivial
  · rename_i hclosed
    rcases dStart_cases s with e | ⟨_, _, _, hf, e⟩ <;> rw [e]
    · trivial
    · exact (dLoop_notStuck (i.dStarted (by tauto) (headerFields_some hf) _) (.inl rfl)).andThen fun _ _ => trivial

end

/-! ### Every step from a sound state has a next state (R74, R217) -/

/-- Every command but CTL.RST is its preamble and a body that is not stuck in a sound state where the command is legal. -/
theorem exec_eq_endingCommand {i : Instr} (hi : i ≠ .ctlRst) :
    ∃ body, (∀ s, exec i s = command (legalPhases i) body s) ∧ ∀ s, Inv s → s.ph ∈ legalPhases i → (body s).NotStuck := by
  cases i with
  | ctlRst => exact absurd rfl hi
  | ctlCfg v fb => exact ⟨_, fun _ => rfl, fun _ _ _ => (configure_notStuck v fb).andThen fun _ _ => trivial⟩
  | trieIns p v =>
    refine ⟨_, fun _ => rfl, fun s _ _ => ?_⟩
    split
    · trivial
    · exact (insertPhrase_notStuck p v).andThen fun _ _ => trivial
  | trieSrch p =>
    refine ⟨_, fun _ => rfl, fun s _ _ => ?_⟩
    split
    · trivial
    · cases trieSearch s.trie p <;> trivial
  | rdExt c p => exact ⟨_, fun _ => rfl, fun _ _ _ => (rdExtend_notStuck _ p).andThen fun _ _ => trivial⟩
  | rdLkp c =>
    refine ⟨_, fun _ => rfl, fun s _ _ => ?_⟩
    cases rdLookup (operandB c) s <;> trivial
  | pkEmit c w => exact ⟨_, fun _ => rfl, fun _ _ _ => (pkEmit_notStuck _ _).andThen fun _ _ => trivial⟩
  | upRead w =>
    exact ⟨_, fun _ => rfl, fun _ _ _ => (upRead_notStuck _).andThen fun r _ => by cases r <;> trivial⟩
  | cStep => exact ⟨_, fun _ => rfl, fun _ hs h => cStep_notStuck hs (List.mem_singleton.1 h)⟩
  | cRun => exact ⟨_, fun _ => rfl, fun _ hs h => cRun_notStuck hs (by simpa [legalPhases] using h)⟩
  | dStart => exact ⟨_, fun _ => rfl, fun _ _ _ => dStart_notStuck.andThen fun _ _ => trivial⟩
  | dStep => exact ⟨_, fun _ => rfl, fun _ hs h => dStep_notStuck hs (by simpa [legalPhases] using h)⟩
  | dRun => exact ⟨_, fun _ => rfl, fun _ hs h => dRun_notStuck hs (by simpa [legalPhases] using h)⟩
  | _ => exact ⟨_, fun _ => rfl, fun _ _ _ => trivial⟩

/-- Every command has a next state in a sound state. -/
theorem exec_next {s : State} (hs : Inv s) (i : Instr) : ∃ t, exec i s = .next t := by
  by_cases hi : i = .ctlRst
  · subst hi
    exact ⟨_, rfl⟩
  · obtain ⟨body, hexec, hbody⟩ := exec_eq_endingCommand hi
    rw [hexec]
    exact command_next (hbody s hs)

theorem busy_iff {s : State} : busy s = true ↔ s.ph = .comp ∨ s.ph = .dec0 ∨ s.ph = .dec1 := by
  simp [busy, or_assoc]

/-- Settles O57, by the host's next move: only `H.BIND` is ever refused, and every command's body ends in a sound state. -/
theorem soundStatesNeverGetStuck : Obligations.SoundStatesNeverGetStuck := by
  intro s hs
  rw [step]
  cases hhost : s.host with
  | nil => exact .inl ⟨s, by rw [runHost, hhost]⟩
  | cons m ms =>
    have hs' : Inv { s with host := ms } := hs.frame s.src s.snk s.upEos ms s.out
    have hstep : runHost s = performMove m { s with host := ms } := by rw [runHost, hhost]
    rw [hstep]
    cases m with
    | bind x =>
      by_cases hb : busy s
      · exact .inr ⟨if_pos hb, busy_iff.1 hb, x, ms, rfl⟩
      · exact .inl ⟨_, if_neg hb⟩
    | take => exact .inl ⟨_, rfl⟩
    | reset => exact .inl ⟨_, rfl⟩
    | command c =>
      left
      rw [performMove, takeCommand]
      cases decode c with
      | instr i => exact exec_next hs' i
      | reserved op => exact command_next fun hl => absurd hl List.not_mem_nil

/-! ### What a command may write (R61, R62, R63) -/

/-- The parts of the state a command may write, besides the phase, the fault cause and the response: the compression side
(trie, packer, `S`, `enc_next`), the decompression side (table, unpacker, `old`, `dec_next`), the session parameters, and
each stream. -/
structure Footprint where
  comp : Bool
  dec  : Bool
  cfg  : Bool
  src  : Bool
  snk  : Bool

/-- The stores and streams each command reaches (R61), with the registers of the same side; D.START and D.RUN also write the
parameters the header carries (R190), and CTL.RST everything but the streams (R37). -/
def footprint : Instr → Footprint
  | .ctlNop | .widGet _ => ⟨false, false, false, false, false⟩
  | .ctlRst => ⟨true, true, true, false, false⟩
  | .ctlCfg _ _ => ⟨false, false, true, false, false⟩
  | .trieClr | .trieInit | .trieIns _ _ | .trieSrch _ | .trieSize | .pkClr => ⟨true, false, false, false, false⟩
  | .pkEmit _ _ | .pkFlush | .cStart => ⟨true, false, false, false, true⟩
  | .cStep | .cRun => ⟨true, false, false, true, true⟩
  | .rdInit | .rdExt _ _ | .rdLkp _ | .upClr => ⟨false, true, false, false, false⟩
  | .upRead _ => ⟨false, true, false, true, false⟩
  | .dStart => ⟨false, true, true, true, false⟩
  | .dStep => ⟨false, true, false, true, true⟩
  | .dRun => ⟨false, true, true, true, true⟩

/-- From `s` to `t` only what the footprint allows has changed; the source has lost bytes at its front at most (R62), and
the sink has gained bytes at its end at most (R63). -/
structure Within (f : Footprint) (s t : State) : Prop where
  comp : f.comp = false → t.trie = s.trie ∧ t.pk = s.pk ∧ t.compS = s.compS ∧ t.encNext = s.encNext
  dec : f.dec = false → t.rd = s.rd ∧ t.up = s.up ∧ t.upEos = s.upEos ∧ t.old = s.old ∧ t.decNext = s.decNext
  cfg : f.cfg = false → t.cfgVar = s.cfgVar ∧ t.cfgBits = s.cfgBits
  src : f.src = false → t.src = s.src
  snk : f.snk = false → t.snk = s.snk
  pulled : t.src <:+ s.src
  pushed : s.snk <+: t.snk
  config : t.config = s.config
  host : t.host = s.host

section
variable {f : Footprint} {s t u : State}

theorem Within.trans (h : Within f s t) (h' : Within f t u) : Within f s u where
  comp hf := by simp only [h'.comp hf, h.comp hf, and_self]
  dec hf := by simp only [h'.dec hf, h.dec hf, and_self]
  cfg hf := by simp only [h'.cfg hf, h.cfg hf, and_self]
  src hf := (h'.src hf).trans (h.src hf)
  snk hf := (h'.snk hf).trans (h.snk hf)
  pulled := h'.pulled.trans h.pulled
  pushed := h.pushed.trans h'.pushed
  config := h'.config.trans h.config
  host := h'.host.trans h.host

/-! One rule a part of the state. The phase may change with any of them. -/

theorem Within.control (ph : Phase) (fc : Cause) (out : HostGets) : Within f s { s with ph := ph, fcause := fc, out := out } :=
  ⟨fun _ => ⟨rfl, rfl, rfl, rfl⟩, fun _ => ⟨rfl, rfl, rfl, rfl, rfl⟩, fun _ => ⟨rfl, rfl⟩, fun _ => rfl, fun _ => rfl,
    List.suffix_refl _, List.prefix_refl _, rfl, rfl⟩

theorem Within.refl : Within f s s := .control s.ph s.fcause s.out

theorem Within.writeComp (h : f.comp = true) {ph : Phase} {tr : Trie} {pk : BitBuf} {S : Phrase} {n : Nat} :
    Within f s { s with ph := ph, trie := tr, pk := pk, compS := S, encNext := n } :=
  ⟨fun hf => by simp [h] at hf, fun _ => ⟨rfl, rfl, rfl, rfl, rfl⟩, fun _ => ⟨rfl, rfl⟩, fun _ => rfl, fun _ => rfl,
    List.suffix_refl _, List.prefix_refl _, rfl, rfl⟩

theorem Within.writeDec (h : f.dec = true) {ph : Phase} {rd : List Phrase} {up : BitBuf} {eos : Bool} {old : Phrase} {n : Nat} :
    Within f s { s with ph := ph, rd := rd, up := up, upEos := eos, old := old, decNext := n } :=
  ⟨fun _ => ⟨rfl, rfl, rfl, rfl⟩, fun hf => by simp [h] at hf, fun _ => ⟨rfl, rfl⟩, fun _ => rfl, fun _ => rfl,
    List.suffix_refl _, List.prefix_refl _, rfl, rfl⟩

theorem Within.writeCfg (h : f.cfg = true) {v : Bool} {fb : Nat} : Within f s { s with cfgVar := v, cfgBits := fb } :=
  ⟨fun _ => ⟨rfl, rfl, rfl, rfl⟩, fun _ => ⟨rfl, rfl, rfl, rfl, rfl⟩, fun hf => by simp [h] at hf, fun _ => rfl, fun _ => rfl,
    List.suffix_refl _, List.prefix_refl _, rfl, rfl⟩

theorem Within.pull (h : f.src = true) {src : List Byte} (hsrc : src <:+ s.src) : Within f s { s with src := src } :=
  ⟨fun _ => ⟨rfl, rfl, rfl, rfl⟩, fun _ => ⟨rfl, rfl, rfl, rfl, rfl⟩, fun _ => ⟨rfl, rfl⟩, fun hf => by simp [h] at hf,
    fun _ => rfl, hsrc, List.prefix_refl _, rfl, rfl⟩

theorem Within.push (h : f.snk = true) {x : List Byte} : Within f s { s with snk := s.snk ++ x } :=
  ⟨fun _ => ⟨rfl, rfl, rfl, rfl⟩, fun _ => ⟨rfl, rfl, rfl, rfl, rfl⟩, fun _ => ⟨rfl, rfl⟩, fun _ => rfl,
    fun hf => by simp [h] at hf, List.suffix_refl _, List.prefix_append _ _, rfl, rfl⟩

/-! ### Procedures within a footprint -/

/-- A procedure, done or raising a cause, has changed only what the footprint allows. -/
def Proc.EndsWithin {α : Type} (f : Footprint) (s : State) : Proc α → Prop
  | .done _ t => Within f s t
  | .raised _ t => Within f s t
  | .stuck _ => True

theorem Proc.EndsWithin.after {α : Type} {p : Proc α} (h : Within f s t) (hp : p.EndsWithin f t) : p.EndsWithin f s := by
  cases p with
  | done a u => exact h.trans hp
  | raised c u => exact h.trans hp
  | stuck x => trivial

theorem Proc.EndsWithin.andThen {α β : Type} {p : Proc α} {k : α → State → Proc β} (hp : p.EndsWithin f s)
    (hk : ∀ a t, (k a t).EndsWithin f t) : (p.andThen k).EndsWithin f s := by
  cases p with
  | done a t => exact (hk a t).after hp
  | raised c t => exact hp
  | stuck x => trivial

/-- A command adds to what its body changes only the phase, the cause and the response. -/
theorem Within.command {legal : List Phase} {body : State → Proc Response} (hbody : (body s).EndsWithin f s)
    (h : command legal body s = .next t) : Within f s t := by
  rcases command_cases legal body s with ⟨_, e⟩ | ⟨_, _, e⟩ | ⟨_, _, e⟩ <;> rw [e] at h
  · cases h
    exact .control ..
  · cases h
    exact .control ..
  · rcases complete_eq_next.1 h with ⟨r, u, hp, rfl⟩ | ⟨c, u, hp, rfl⟩ <;> rw [hp] at hbody
    · exact hbody.trans (.control ..)
    · exact hbody.trans (.control ..)

/-! The compression side. -/

theorem insertPhrase_endsWithin (h : f.comp = true) (p : Phrase) (v : Code) : (insertPhrase p v s).EndsWithin f s := by
  rw [insertPhrase]
  split
  · exact .writeComp h
  · exact .refl

theorem pkEmit_endsWithin (h : f.comp = true) (hsnk : f.snk = true) (c w : Nat) : (pkEmit c w s).EndsWithin f s := by
  rcases pkEmit_cases c w s with e | ⟨x, b, e⟩ <;> rw [e]
  · exact .refl
  · exact (Within.push hsnk).trans (.writeComp h)

theorem pkFlush_within (h : f.comp = true) (hsnk : f.snk = true) : Within f s (pkFlush s) := by
  obtain ⟨x, e⟩ := pkFlush_frame s
  rw [e]
  exact (Within.push hsnk).trans (.writeComp h)

theorem emitMatch_endsWithin (h : f.comp = true) (hsnk : f.snk = true) : (emitMatch s).EndsWithin f s := by
  rw [emitMatch]
  split
  · trivial
  · exact pkEmit_endsWithin h hsnk _ _

theorem growTrie_endsWithin (h : f.comp = true) (p : Phrase) : (growTrie p s).EndsWithin f s := by
  rw [growTrie]
  split
  · exact (insertPhrase_endsWithin h _ _).andThen fun _ _ => .writeComp h
  · exact .refl

theorem cConsume_endsWithin (h : f.comp = true) (hsnk : f.snk = true) (b : Byte) : (cConsume b s).EndsWithin f s := by
  rw [cConsume]
  split
  · exact .writeComp h
  · exact (emitMatch_endsWithin h hsnk).andThen fun _ _ =>
      (growTrie_endsWithin h _).andThen fun _ _ => .writeComp h

theorem cFinish_endsWithin (h : f.comp = true) (hsnk : f.snk = true) : (cFinish s).EndsWithin f s := by
  refine Proc.EndsWithin.andThen ?_ fun _ t => (pkFlush_within h hsnk).trans (.writeComp h)
  split
  · exact .refl
  · exact emitMatch_endsWithin h hsnk

theorem cStep_endsWithin (h : f.comp = true) (hsrc : f.src = true) (hsnk : f.snk = true) : (cStep s).EndsWithin f s := by
  rcases srcPull_cases s with ⟨_, e⟩ | ⟨b, bs, hs, e⟩ <;> rw [cStep, e]
  · exact cFinish_endsWithin h hsnk
  · exact .after (.pull hsrc (hs ▸ List.suffix_cons b bs)) (cConsume_endsWithin h hsnk b)

theorem cLoop_endsWithin (h : f.comp = true) (hsrc : f.src = true) (hsnk : f.snk = true) (n : Nat) :
    (cLoop n s).EndsWithin f s := by
  induction n generalizing s with
  | zero => exact .refl
  | succ n ih =>
    rw [cLoop]
    split
    · exact (cStep_endsWithin h hsrc hsnk).andThen fun _ _ => ih
    · exact .refl

theorem cStart_within (h : f.comp = true) (hsnk : f.snk = true) : Within f s (cStart s) := by
  rw [cStart, snkPushAll_eq]
  exact (Within.push hsnk).trans (.writeComp h)

theorem cRun_endsWithin (h : f.comp = true) (hsrc : f.src = true) (hsnk : f.snk = true) : (cRun s).EndsWithin f s := by
  have hopen : Within f s (if s.ph = .comp then s else cStart s) := by
    split
    · exact .refl
    · exact cStart_within h hsnk
  rw [cRun]
  exact .after hopen ((cLoop_endsWithin h hsrc hsnk _).andThen fun _ _ => .refl)

/-! The decompression side. -/

theorem rdExtend_endsWithin (h : f.dec = true) (c : Nat) (p : Phrase) : (rdExtend c p s).EndsWithin f s := by
  rw [rdExtend]
  split
  · exact .refl
  split
  · exact .refl
  split
  · exact .refl
  · exact .writeDec h

theorem upRead_endsWithin (h : f.dec = true) (hsrc : f.src = true) (w : Nat) : (upRead w s).EndsWithin f s := by
  rcases upRead_cases w s with e | ⟨r, k, b, eos, e⟩ <;> rw [e]
  · exact .refl
  · exact (Within.pull hsrc (List.drop_suffix k _)).trans (.writeDec h)

theorem dStart_endsWithin (h : f.dec = true) (hcfg : f.cfg = true) (hsrc : f.src = true) : (dStart s).EndsWithin f s := by
  have hpull : Within f s { s with src := s.src.drop 5 } := .pull hsrc (List.drop_suffix 5 _)
  rcases dStart_cases s with e | ⟨v, fb, _, _, e⟩ <;> rw [e]
  · exact hpull
  · exact hpull.trans ((Within.writeCfg hcfg).trans (.writeDec h))

theorem dFirst_endsWithin (h : f.dec = true) (hsnk : f.snk = true) (c : Nat) : (dFirst c s).EndsWithin f s := by
  rw [dFirst]
  split
  · exact .refl
  · rw [snkPushAll_eq]
    exact (Within.push hsnk).trans (.writeDec h)

theorem dResolve_endsWithin (c : Nat) : (dResolve c s).EndsWithin f s := by
  rw [dResolve]
  split
  · exact .refl
  split
  · exact .refl
  · split
    · trivial
    · exact .refl

theorem dExtend_endsWithin (h : f.dec = true) (p : Phrase) : (dExtend p s).EndsWithin f s := by
  unfold dExtend
  split
  · split
    · trivial
    · exact (rdExtend_endsWithin h _ _).andThen fun _ _ => .writeDec h
  · exact .refl

theorem dNext_endsWithin (h : f.dec = true) (hsnk : f.snk = true) (c : Nat) : (dNext c s).EndsWithin f s := by
  rw [dNext]
  refine (dResolve_endsWithin c).andThen fun p t => ?_
  rw [snkPushAll_eq]
  exact .after (.push hsnk) ((dExtend_endsWithin h p).andThen fun _ _ => .writeDec h)

theorem dStep_endsWithin (h : f.dec = true) (hsrc : f.src = true) (hsnk : f.snk = true) : (dStep s).EndsWithin f s := by
  refine (upRead_endsWithin h hsrc _).andThen fun r t => ?_
  cases r with
  | none => exact .writeDec h
  | some c =>
    dsimp only
    split
    · exact dFirst_endsWithin h hsnk c
    · exact dNext_endsWithin h hsnk c

theorem dLoop_endsWithin (h : f.dec = true) (hsrc : f.src = true) (hsnk : f.snk = true) (n : Nat) :
    (dLoop n s).EndsWithin f s := by
  induction n generalizing s with
  | zero => exact .refl
  | succ n ih =>
    rw [dLoop]
    split
    · exact (dStep_endsWithin h hsrc hsnk).andThen fun _ _ => ih
    · exact .refl

theorem dRun_endsWithin (h : f.dec = true) (hcfg : f.cfg = true) (hsrc : f.src = true) (hsnk : f.snk = true) :
    (dRun s).EndsWithin f s := by
  refine Proc.EndsWithin.andThen ?_ fun _ t => (dLoop_endsWithin h hsrc hsnk _).andThen fun _ _ => .refl
  split
  · exact .refl
  · exact dStart_endsWithin h hcfg hsrc

theorem configure_endsWithin (h : f.cfg = true) (v : BitVec 8) (fb : BitVec 32) : (configure v fb s).EndsWithin f s := by
  rw [configure]
  split
  · exact .refl
  split
  · exact .refl
  · exact .writeCfg h

end

/-! ### Every command within its footprint -/

/-- Every command but CTL.RST is its preamble and a body that stays within the command's footprint, in every state. -/
theorem exec_eq_commandWithin {i : Instr} (hi : i ≠ .ctlRst) :
    ∃ body, (∀ s, exec i s = command (legalPhases i) body s) ∧ ∀ s, (body s).EndsWithin (footprint i) s := by
  cases i with
  | ctlRst => exact absurd rfl hi
  | ctlNop | trieSize | widGet => exact ⟨_, fun _ => rfl, fun _ => .refl⟩
  | ctlCfg v fb => exact ⟨_, fun _ => rfl, fun _ => (configure_endsWithin rfl v fb).andThen fun _ _ => .refl⟩
  | trieClr | trieInit | pkClr => exact ⟨_, fun _ => rfl, fun _ => .writeComp rfl⟩
  | trieIns p v =>
    refine ⟨_, fun _ => rfl, fun s => ?_⟩
    split
    · exact .refl
    · exact (insertPhrase_endsWithin rfl p v).andThen fun _ _ => .refl
  | trieSrch p =>
    refine ⟨_, fun _ => rfl, fun s => ?_⟩
    split
    · exact .refl
    · cases trieSearch s.trie p <;> exact .refl
  | rdInit | upClr => exact ⟨_, fun _ => rfl, fun _ => .writeDec rfl⟩
  | rdExt c p => exact ⟨_, fun _ => rfl, fun _ => (rdExtend_endsWithin rfl _ p).andThen fun _ _ => .refl⟩
  | rdLkp c =>
    refine ⟨_, fun _ => rfl, fun s => ?_⟩
    cases rdLookup (operandB c) s <;> exact .refl
  | pkEmit c w => exact ⟨_, fun _ => rfl, fun _ => (pkEmit_endsWithin rfl rfl _ _).andThen fun _ _ => .refl⟩
  | pkFlush => exact ⟨_, fun _ => rfl, fun _ => pkFlush_within rfl rfl⟩
  | upRead w =>
    exact ⟨_, fun _ => rfl, fun _ => (upRead_endsWithin rfl rfl _).andThen fun r _ => by cases r <;> exact .refl⟩
  | cStart => exact ⟨_, fun _ => rfl, fun _ => cStart_within rfl rfl⟩
  | cStep => exact ⟨_, fun _ => rfl, fun _ => cStep_endsWithin rfl rfl rfl⟩
  | cRun => exact ⟨_, fun _ => rfl, fun _ => cRun_endsWithin rfl rfl rfl⟩
  | dStart => exact ⟨_, fun _ => rfl, fun _ => (dStart_endsWithin rfl rfl rfl).andThen fun _ _ => .refl⟩
  | dStep => exact ⟨_, fun _ => rfl, fun _ => dStep_endsWithin rfl rfl rfl⟩
  | dRun => exact ⟨_, fun _ => rfl, fun _ => dRun_endsWithin rfl rfl rfl rfl⟩

/-- Every command changes only what its footprint allows, in every state. -/
theorem exec_within {i : Instr} {s t : State} (h : exec i s = .next t) : Within (footprint i) s t := by
  by_cases hi : i = .ctlRst
  · subst hi
    cases h
    exact ⟨nofun, nofun, nofun, fun _ => rfl, fun _ => rfl, List.suffix_refl _, List.prefix_refl _, rfl, rfl⟩
  · obtain ⟨body, hexec, hbody⟩ := exec_eq_commandWithin hi
    rw [hexec] at h
    exact .command (hbody s) h

/-- Settles O52: every command stays within its footprint, which only pulls and only pushes. -/
theorem streamsOnlyAdvance : Obligations.StreamsOnlyAdvance := by
  intro i s t h
  have hw := exec_within h
  exact ⟨hw.pulled, hw.pushed, hw.config, hw.host⟩

/-- Settles O53, by reading the four claims off the commands' footprints. -/
theorem theTwoSidesAreSeparate : Obligations.TheTwoSidesAreSeparate := by
  intro i s t h
  have hw := exec_within h
  refine ⟨fun hi => ?_, fun hi => ?_, fun hread hi => hw.src ?_, fun hemit hi => hw.snk ?_⟩
  · obtain ⟨hdec, hcfg⟩ : (footprint i).dec = false ∧ (footprint i).cfg = false := by
      rcases hi with hi | ⟨p, v, rfl⟩ | ⟨p, rfl⟩ | ⟨c, w, rfl⟩
      · exact (by decide : ∀ j ∈ [Instr.trieClr, .trieInit, .trieSize, .pkClr, .pkFlush, .cStart, .cStep, .cRun],
          (footprint j).dec = false ∧ (footprint j).cfg = false) i hi
      all_goals exact ⟨rfl, rfl⟩
    obtain ⟨hrd, hup, heos, hold, hnext⟩ := hw.dec hdec
    exact ⟨hrd, hup, heos, hold, hnext, hw.cfg hcfg⟩
  · apply hw.comp
    rcases hi with hi | ⟨c, p, rfl⟩ | ⟨c, rfl⟩ | ⟨w, rfl⟩
    · exact (by decide : ∀ j ∈ [Instr.rdInit, .upClr, .dStart, .dStep, .dRun], (footprint j).comp = false) i hi
    all_goals rfl
  · cases i with
    | upRead w => exact absurd rfl (hread w)
    | dStart | dStep | dRun | cStep | cRun => simp at hi
    | _ => rfl
  · cases i with
    | pkEmit c w => exact absurd rfl (hemit c w)
    | pkFlush | cStart | cStep | cRun | dStep | dRun => simp at hi
    | _ => rfl

end Sys2Proof.Machine
end

section
/-! PROOFS. Family 30_encoding.md: which command a word stands for, what a reserved opcode comes to, the layout of a packed
body, and the opening of a compression session. -/

namespace Sys2Proof.Machine

/-! ### Which command the fields stand for (R107, R108, R109) -/

/-- The fields `f` with zeros in the operands that `u` marks as unused, and an unused phrase empty (R112). -/
def usedOnly (u : UsedFields) (f : CmdFields) : CmdFields where
  op  := f.op
  a   := if u.a then f.a else 0
  b   := if u.b then f.b else 0
  pin := if u.pin then f.pin else []

/-- The fields `f` are those of `i`, whatever the operands `i` does not use hold (R109). -/
def Carries (f : CmdFields) (i : Instr) : Prop := usedOnly (usedFields i) f = fieldsOf i

theorem Carries.op_eq {f : CmdFields} {i : Instr} (h : Carries f i) : f.op = (fieldsOf i).op :=
  congrArg CmdFields.op (a₁ := usedOnly (usedFields i) f) h

theorem fieldsOf_carries (i : Instr) : Carries (fieldsOf i) i := by
  cases i <;> rfl

theorem fieldsOf_op_listed (i : Instr) : (fieldsOf i).op ∈ listedOpcodes := by
  cases i <;> simp [fieldsOf, listedOpcodes]

/-- The decoder by the rows of the opcode map: a listed row gives the command the fields carry, and every other opcode is
reserved. -/
theorem decodeFields_cases (f : CmdFields) :
    (∃ i, decodeFields f = .instr i ∧ Carries f i) ∨
    (f.op ∉ listedOpcodes ∧ decodeFields f = .reserved f.op) := by
  obtain ⟨op, a, b, pin⟩ := f
  rw [decodeFields]
  split
  case h_24 => -- no row names the opcode
    refine .inr ⟨fun hmem => ?_, rfl⟩
    have hnum := List.mem_map_of_mem (f := BitVec.toNat) hmem
    simp_all [listedOpcodes]
  all_goals
    rename_i hrow
    obtain ⟨_, rfl⟩ := BitVec.toNat_eq_nat.1 hrow
    exact .inl ⟨_, rfl, rfl⟩

theorem decodeFields_of_carries {f : CmdFields} {i : Instr} (h : Carries f i) : decodeFields f = .instr i := by
  obtain ⟨op, a, b, pin⟩ := f
  cases i <;> simp_all [Carries, usedOnly, usedFields, fieldsOf, decodeFields]

theorem decodeFields_eq_instr {f : CmdFields} {i : Instr} : decodeFields f = .instr i ↔ Carries f i := by
  refine ⟨fun h => ?_, decodeFields_of_carries⟩
  rcases decodeFields_cases f with ⟨j, hdec, hj⟩ | ⟨_, hdec⟩
  · cases hdec.symm.trans h
    exact hj
  · cases hdec.symm.trans h

theorem decodeFields_eq_reserved {f : CmdFields} : decodeFields f = .reserved f.op ↔ f.op ∉ listedOpcodes := by
  rcases decodeFields_cases f with ⟨i, hdec, hi⟩ | ⟨hmem, hdec⟩
  · simp [hdec, hi.op_eq, fieldsOf_op_listed]
  · simp [hdec, hmem]

/-! ### Which command a word stands for (R106, R112) -/

theorem decode_packFields (f : CmdFields) : decode ⟨packFields f, f.pin⟩ = decodeFields f := by
  obtain ⟨hop, _, ha, hb⟩ := Laws.EncodedFields.fields_packFields f
  rw [decode, hop, ha, hb]

/-- Settles O1: the fields packed in the word come back, and the command's own fields carry it. -/
theorem decodeOfEncodeIsTheCommand : Obligations.DecodeOfEncodeIsTheCommand :=
  fun i => (decode_packFields (fieldsOf i)).trans (decodeFields_of_carries (fieldsOf_carries i))

/-- `OP` is what stands above bit 56. -/
theorem opField_toNat (w : CmdWord) : (opField w).toNat = w.toNat / 2 ^ 56 := by
  have := w.isLt
  simp [opField, Nat.shiftRight_eq_div_pow]
  omega

/-- Settles O2: the number of a packed word, and the opcode of the fields that carry a command. -/
theorem encodedWordHasItsFields : Obligations.EncodedWordHasItsFields := by
  refine ⟨fun i => Laws.EncodedFields.packFields_toNat (fieldsOf i), fun c i h => ?_⟩
  rw [← opField_toNat]
  exact congrArg BitVec.toNat (decodeFields_eq_instr.1 h).op_eq

/-- Settles O3: a change to fields a command does not use leaves fields that carry it. -/
theorem reservedAndUnusedFields : Obligations.ReservedAndUnusedFields := by
  refine ⟨fun c => decodeFields_eq_reserved, fun c c' i h hop ha hb hpin => ?_⟩
  refine decodeFields_eq_instr.2 (Eq.trans ?_ (decodeFields_eq_instr.1 h))
  simp only [usedOnly, hop, CmdFields.mk.injEq, true_and]
  exact ⟨ite_congr rfl ha fun _ => rfl, ite_congr rfl hb fun _ => rfl, ite_congr rfl hpin fun _ => rfl⟩

/-- Settles O4: the decoder computes on each of the 24 words. -/
theorem sampleWordsDecode : Obligations.SampleWordsDecode := by
  unfold Obligations.SampleWordsDecode
  decide

/-! ### A reserved opcode (R109, R213) -/

theorem takeCommand_reserved {c : Command} (h : opField c.word ∉ listedOpcodes) (s : State) :
    takeCommand c s = reservedCommand s := by
  have hdec : decode c = .reserved (opField c.word) := decodeFields_eq_reserved.2 h
  rw [takeCommand, hdec]

/-- Settles O6: the step is a command that is legal in no phase. -/
theorem reservedOpcodeRaisesBadCmd : Obligations.ReservedOpcodeRaisesBadCmd := by
  intro s c ms hhost hop
  rw [step_of_command hhost, takeCommand_reserved hop]
  exact ⟨fun h => command_illegal h List.not_mem_nil, fun h => command_fault h⟩

/-! ### The body of the format (R93, R152, R154) -/

/-- Emissions the packer accepts: the held bits and then the codes' digits go out as whole bytes, at most 7 bits stay held,
in order, none lost (R152). -/
theorem packAll_spec (l : List (Nat × Nat)) (s : State) (h7 : s.pk.cnt ≤ 7) (hb : BufClean s.pk)
    (hl : ∀ y ∈ l, 1 ≤ y.2 ∧ y.2 ≤ s.config.maxW ∧ y.1 < 2 ^ y.2) :
    ∃ x b, packAll l s = .done () { s with snk := s.snk ++ x, pk := b } ∧ b.cnt ≤ 7 ∧ BufClean b ∧
      byteBits x ++ bitsOf b.cnt b.acc = packerBits s ++ l.flatMap fun y => bitsOf y.2 y.1 := by
  induction l generalizing s with
  | nil => exact ⟨[], s.pk, by simp [packAll], h7, hb, by simp [packerBits]⟩
  | cons y ys ih =>
    obtain ⟨⟨hw1, hw2, hc⟩, hys⟩ := List.forall_mem_cons.1 hl
    obtain ⟨x, b, hemit, hb7, hbc, hbits⟩ := pkEmit_spec ⟨hw1, hw2⟩ hc hb
    obtain ⟨x', b', hpack, hb7', hbc', hbits'⟩ := ih { s with snk := s.snk ++ x, pk := b } hb7 hbc hys
    refine ⟨x ++ x', b', ?_, hb7', hbc', ?_⟩
    · rw [packAll, hemit, andThen_done, hpack, List.append_assoc]
    · calc byteBits (x ++ x') ++ bitsOf b'.cnt b'.acc
          = byteBits x ++ (byteBits x' ++ bitsOf b'.cnt b'.acc) := by simp
        _ = (byteBits x ++ bitsOf b.cnt b.acc) ++ ys.flatMap fun y => bitsOf y.2 y.1 := by
          rw [hbits', List.append_assoc]
          rfl
        _ = packerBits s ++ (y :: ys).flatMap fun y => bitsOf y.2 y.1 := by
          rw [hbits, List.append_assoc, List.flatMap_cons]

/-- Bytes whose bits are a bit string and fewer than eight zeros: the string's length fixes both numbers (R93). -/
theorem body_length {x : List Byte} {ds : List Bool} {k : Nat} (h : byteBits x = ds ++ List.replicate k false) (hk : k ≤ 7) :
    x.length = (ds.length + 7) / 8 ∧ k = 8 * x.length - ds.length := by
  have hlen : 8 * x.length = ds.length + k := by simpa using congrArg List.length h
  omega

/-- Settles O32: the emissions leave fewer than eight bits held, and the flush pads these to a byte. -/
theorem bodyLayout : Obligations.BodyLayout := by
  intro s l hpk hl
  obtain ⟨x, b, hpack, h7, _, hbits⟩ := packAll_spec l s (by simp [hpk]) (by simp [hpk]) hl
  obtain ⟨y, hflush, hpad⟩ := pkFlush_spec (s := { s with snk := s.snk ++ x, pk := b }) h7
  have hempty : packerBits s = [] := by simp [packerBits, hpk]
  rw [hempty, List.nil_append] at hbits
  have hbody : byteBits (x ++ y)
      = (l.flatMap fun y => bitsOf y.2 y.1) ++ List.replicate (if b.cnt = 0 then 0 else 8 - b.cnt) false := by
    rw [byteBits_append, hpad, ← List.append_assoc]
    exact congrArg (· ++ _) hbits
  obtain ⟨hlen, hzeros⟩ := body_length hbody (by split <;> omega)
  have hsum : (l.flatMap fun y => bitsOf y.2 y.1).length = (l.map Prod.snd).sum := by
    simp [List.length_flatMap]
  rw [hsum] at hlen hzeros
  refine ⟨_, x ++ y, hpack, ?_, hlen, hzeros ▸ hbody⟩
  rw [hflush, List.append_assoc, BitBuf.empty, ← hpk]

/-! ### The opening of a compression session (R170) -/

/-- Settles O34: C.START builds the trie of the alphabet, whose search and invariants are known. -/
theorem cStartOpensASession : Obligations.CStartOpensASession := by
  refine ⟨fun s hlegal hph => ⟨alphabetTrie 256, ?_, rfl, trAlloc_alphabetTrie 256, trieInv_alphabetTrie le_rfl, ?_, ?_⟩,
    shutOutOfSessions_of_legalPhases Instr.noConfusion rfl⟩
  · rw [exec, execCStart, command_outside (mem_outsideSession.2 hph), cStart_eq hlegal]
    rfl
  · intro b
    rw [trieSearch_alphabet le_rfl]
    exact if_pos b.isLt
  · intro q hq
    rw [trieSearch_alphabet le_rfl]
    split
    · exact absurd rfl hq
    · rfl

end Sys2Proof.Machine
end

section
/-! PROOFS. Family 40_trie.md: TRIE.CLR, TRIE.INIT, TRIE.SRCH and TRIE.SIZE outside a session, TRIE.INS by what `TrieInsert`
comes to, and the dictionary after any list of insertions. -/

namespace Sys2Proof.Machine

/-! ### The commands that insert nothing of the host's (R120, R121, R126, R128) -/

/-- Settles O11: the body puts the cleared trie, and no other part of the state. -/
theorem clrEmptiesTheTrie : Obligations.ClrEmptiesTheTrie := by
  refine ⟨fun s hs => ?_, shutOutOfSessions_of_legalPhases Instr.noConfusion rfl⟩
  rw [exec, execTrieClr, command_outside (mem_outsideSession.2 hs)]
  rfl

/-- The root's edges in the trie of the alphabet: edge `[i]` leads to slot `i + 1` (R121). -/
theorem alphabetTrie_kids_getElem? {k i : Nat} (h : i < k) :
    (nodeAt (alphabetTrie k) 0).kids[i]? = some ⟨BitVec.ofNat 8 i, [], i + 1⟩ := by
  rw [nodeAt_alphabetTrie_root, List.getElem?_map, List.getElem?_range h, Option.map_some]

/-- Settles O12: the trie TRIE.INIT builds is the trie of the alphabet, which is known slot by slot. -/
theorem initStoresTheAlphabet : Obligations.InitStoresTheAlphabet := by
  refine ⟨fun s hlegal hs => ⟨alphabetTrie 256, ?_, rfl, trAlloc_alphabetTrie 256, rfl, ?_, fun i hi =>
      ⟨alphabetTrie_kids_getElem? hi, nodeAt_alphabetTrie_leaf hi⟩⟩,
    shutOutOfSessions_of_legalPhases Instr.noConfusion rfl⟩
  · rw [exec, execTrieInit, command_outside (mem_outsideSession.2 hs), trieInit_legal hlegal]
    rfl
  · rw [nodeAt_alphabetTrie_root, List.length_map, List.length_range]

/-- Settles O16: the body answers what the search gives. -/
theorem searchAnswersCodeOrMiss : Obligations.SearchAnswersCodeOrMiss := by
  refine ⟨fun s p hs hlen => ?_, fun p => shutOutOfSessions_of_legalPhases Instr.noConfusion rfl⟩
  have hfits : ¬ s.config.phraseMax < p.length := Nat.not_lt.2 hlen
  rw [exec, execTrieSrch, command_outside (mem_outsideSession.2 hs), if_neg hfits]
  constructor
  · intro c hfound
    rw [hfound]
    rfl
  · intro hmissed
    rw [hmissed]
    rfl

/-- Settles O18: the body answers `tr_size`. -/
theorem sizeAnswersTheCount : Obligations.SizeAnswersTheCount := by
  refine ⟨fun s hs => ?_, shutOutOfSessions_of_legalPhases Instr.noConfusion rfl⟩
  rw [exec, execTrieSize, command_outside (mem_outsideSession.2 hs)]
  rfl

/-! ### TRIE.INS by what `TrieInsert` comes to (R122, R124, R125) -/

section
variable {s : State} {p : Phrase} {v : Code}

/-- TRIE.INS where `TrieInsert` gives a new trie. -/
theorem exec_trieIns_of_ok {tr : Trie} (hs : s.ph = .idle ∨ s.ph = .done) (hlen : p.length ≤ s.config.phraseMax)
    (hins : trieInsert s.config.trieNodes p v s.trie = .ok tr) :
    exec (.trieIns p v) s = .next (answered .ok 0 [] { s with trie := tr }) := by
  rw [exec, execTrieIns, command_outside (mem_outsideSession.2 hs), if_neg (Nat.not_lt.2 hlen), insertPhrase, hins]
  rfl

/-- TRIE.INS where `TrieInsert` raises a cause. -/
theorem exec_trieIns_of_error {c : Cause} (hs : s.ph = .idle ∨ s.ph = .done) (hlen : p.length ≤ s.config.phraseMax)
    (hins : trieInsert s.config.trieNodes p v s.trie = .error c) :
    exec (.trieIns p v) s = .next (faultEntry c s) := by
  rw [exec, execTrieIns, command_outside (mem_outsideSession.2 hs), if_neg (Nat.not_lt.2 hlen), insertPhrase, hins]
  rfl

end

/-- The root is not terminal, so the empty phrase is never stored (R32 (I1)). -/
theorem TrieInv.search_nil {t : Trie} (hi : TrieInv t) : trieSearch t [] = none := hi.rootPlain

/-- Settles O14, by the case the insertion's walk ends in. -/
theorem insertNeedsAtMostTwoSlots : Obligations.InsertNeedsAtMostTwoSlots := by
  constructor
  · intro t p hi hp hnone
    obtain ⟨k, hfresh, _⟩ := (trieInsert_spec hi 0 p 0 hp).2 hnone
    exact ⟨k, hfresh.le_two, hfresh⟩
  · intro s p v k hs hi harena hp hlen hnone hfresh
    obtain ⟨hroom, hfull⟩ := trieInsert_fresh hi hfresh hp hnone s.config.trieNodes v
    constructor
    · intro hk
      obtain ⟨tr, hins, halloc, hgrown⟩ := hroom (.inr hk)
      exact ⟨tr, exec_trieIns_of_ok hs hlen hins, halloc, hgrown.search hi hnone⟩
    · intro hk
      exact exec_trieIns_of_error hs hlen (hfull (by omega) hk)

/-- Settles O15: `TrieInsert` of a stored phrase raises DUP_PHRASE, that of the empty phrase does nothing, and a phrase that
is too long reaches neither insertion nor search. -/
theorem insertCornerCases : Obligations.InsertCornerCases := by
  refine ⟨fun s p v c hs hi hlen hfound => ?_, fun s v hs => exec_trieIns_of_ok hs (Nat.zero_le _) rfl,
    fun s p v hs hlong => ?_⟩
  · have hp : p ≠ [] := by
      rintro rfl
      cases hi.search_nil.symm.trans hfound
    exact exec_trieIns_of_error hs hlen ((trieInsert_spec hi s.config.trieNodes p v hp).1 c hfound)
  · have hlong : s.config.phraseMax < p.length := hlong
    constructor
    · rw [exec, execTrieIns, command_outside (mem_outsideSession.2 hs), if_pos hlong]
      rfl
    · rw [exec, execTrieSrch, command_outside (mem_outsideSession.2 hs), if_pos hlong]
      rfl

/-! ### The dictionary after a list of insertions (R127) -/

/-- `TrieInsert` of a phrase not stored grows the trie by it unless it runs out of slots (R122, R124). -/
theorem trieInsert_grows {t : Trie} (hi : TrieInv t) {limit : Nat} {p : Phrase} {v : Code} (hp : p ≠ [])
    (hnone : trieSearch t p = none) (hroom : trieInsert limit p v t ≠ .error .storeFull) :
    ∃ t', trieInsert limit p v t = .ok t' ∧ Grown t t' p v := by
  obtain ⟨k, _, hgrow, hfull⟩ := (trieInsert_spec hi limit p v hp).2 hnone
  have hk : k = 0 ∨ trAlloc t + k ≤ limit := by
    by_contra hk
    exact hroom (hfull (by omega) (by omega))
  obtain ⟨t', hins, _, hgrown⟩ := hgrow hk
  exact ⟨t', hins, hgrown⟩

/-- Insertions of distinct phrases, none of them empty or stored before, none out of slots: they all succeed, each adds one
to the count, and what is found is what was found and the inserted codes. -/
theorem insertAll_spec {limit : Nat} {l : List (Phrase × Code)} {t : Trie} (hi : TrieInv t)
    (hdistinct : (l.map Prod.fst).Nodup) (hnew : ∀ x ∈ l, x.1 ≠ [] ∧ trieSearch t x.1 = none)
    (hroom : insertAll limit l t ≠ .error .storeFull) :
    ∃ t', insertAll limit l t = .ok t' ∧ TrieInv t' ∧ t'.size = t.size + l.length ∧
      ∀ q c, trieSearch t' q = some c ↔ trieSearch t q = some c ∨ (q, c) ∈ l := by
  induction l generalizing t with
  | nil => exact ⟨t, rfl, hi, rfl, by simp⟩
  | cons x xs ih =>
    obtain ⟨p, v⟩ := x
    obtain ⟨⟨hp, hnone⟩, hrest⟩ := List.forall_mem_cons.1 hnew
    obtain ⟨(hfirst : p ∉ xs.map Prod.fst), hdistinct⟩ := List.nodup_cons.1 hdistinct
    obtain ⟨t1, hins, hgrown⟩ := trieInsert_grows (limit := limit) (v := v) hi hp hnone fun hfull =>
      hroom (by rw [insertAll, hfull])
    have hcons : insertAll limit ((p, v) :: xs) t = insertAll limit xs t1 := by rw [insertAll, hins]
    have hrest1 : ∀ y ∈ xs, y.1 ≠ [] ∧ trieSearch t1 y.1 = none := by
      intro y hy
      have hyp : y.1 ≠ p := by
        rintro rfl
        exact hfirst (List.mem_map_of_mem hy)
      rw [hgrown.search hi hnone, if_neg hyp]
      exact hrest y hy
    rw [hcons] at hroom ⊢
    obtain ⟨t', hall, hi', hsize, hsearch⟩ := ih hgrown.inv hdistinct hrest1 hroom
    refine ⟨t', hall, hi', by rw [hsize, hgrown.size, List.length_cons]; omega, fun q c => ?_⟩
    calc trieSearch t' q = some c
        ↔ trieSearch t1 q = some c ∨ (q, c) ∈ xs := hsearch q c
      _ ↔ (trieSearch t q = some c ∨ (q = p ∧ c = v)) ∨ (q, c) ∈ xs := by
        rw [trieSearch_eq_some hgrown.inv.sorted, hgrown.stored, trieSearch_eq_some hi.sorted]
      _ ↔ trieSearch t q = some c ∨ (q, c) ∈ (p, v) :: xs := by
        rw [or_assoc, List.mem_cons, Prod.mk.injEq]

/-- Settles O19, by induction on the list of insertions from the cleared trie, in which nothing is stored. -/
theorem trieCorrectness : Obligations.TrieCorrectness := by
  intro limit l hdistinct hnonempty hroom
  obtain ⟨t, hall, hi, hsize, hfound⟩ := insertAll_spec trieInv_cleared hdistinct
    (fun x hx => ⟨hnonempty x hx, trieSearch_cleared x.1⟩) hroom
  have hsearch : ∀ q c, trieSearch t q = some c ↔ (q, c) ∈ l := by
    intro q c
    rw [hfound, trieSearch_cleared]
    exact or_iff_right nofun
  refine ⟨t, hall, fun x hx => (hsearch x.1 x.2).2 hx, fun q hq => ?_, fun q c => ?_, hsize.trans (Nat.zero_add _)⟩
  · exact Option.eq_none_iff_forall_ne_some.2 fun c hc => hq (List.mem_map_of_mem ((hsearch q c).1 hc))
  · exact (searchIsTheDictionary t q c hi).symm.trans (hsearch q c)

end Sys2Proof.Machine
end

section
/-! PROOFS. Family 41_rdict.md: the words of RD.INIT and RD.LKP, the table's three procedures case by case, and the three
commands outside a session by what their procedures come to. -/

namespace Sys2Proof.Machine

variable {s : State} {c : Code} {n : Nat} {p : Phrase}

/-! ### The words (R106, R140, R144) -/

/-- The word of an opcode and a `B` operand, its other fields zero (R106). -/
theorem decode_opcode_operandB (op : BitVec 8) (b : BitVec 32) (p : Phrase) :
    decode ⟨(op ++ 0#24) ++ b, p⟩ = decodeFields ⟨op, 0#8, b, p⟩ := by
  have hword : (op ++ 0#24) ++ b = packFields ⟨op, 0#8, b, p⟩ := by
    have hzero : op ++ 0#24 = op ++ 0#16 ++ 0#8 := (BitVec.append_assoc (x₁ := op) (x₂ := 0#16) (x₃ := 0#8)).symm
    rw [hzero, packFields]
  rw [hword]
  exact decode_packFields ⟨op, 0#8, b, p⟩

theorem decode_rdInit (p : Phrase) : decode ⟨0x2000000000000000#64, p⟩ = .instr .rdInit :=
  decode_opcode_operandB 0x20#8 0#32 p

theorem decode_rdLkp (p : Phrase) (c : BitVec 32) : decode ⟨0x22000000#32 ++ c, p⟩ = .instr (.rdLkp c) :=
  decode_opcode_operandB 0x22#8 c p

/-! ### RdInit, RdExtend and RdLookup (R140, R141, R144) -/

theorem alphabet_getElem? {i : Nat} (h : i < 256) : alphabet[i]? = some [BitVec.ofNat 8 i] := by
  rw [alphabet, List.getElem?_map, List.getElem?_range h, Option.map_some]

theorem rdExtend_of_code_ne (hc : n ≠ rdLen s) : rdExtend n p s = .raised .badOperand s :=
  if_pos hc

theorem rdExtend_of_bad_length (hc : n = rdLen s) (hlen : p.length < 1 ∨ s.config.phraseMax < p.length) :
    rdExtend n p s = .raised .badOperand s := by
  rw [rdExtend, if_neg (not_not_intro hc), if_pos hlen]

section
variable (hc : n = rdLen s) (hlen1 : 1 ≤ p.length) (hlen2 : p.length ≤ s.config.phraseMax)
include hc hlen1 hlen2

/-- Past its first two checks `RdExtend` looks at the table's room alone (R141). -/
theorem rdExtend_of_operands_ok :
    rdExtend n p s = if s.config.rdSize ≤ rdLen s then .raised .storeFull s else .done () { s with rd := s.rd ++ [p] } := by
  rw [rdExtend, if_neg (not_not_intro hc), if_neg (by omega)]

theorem rdExtend_of_full (hfull : s.config.rdSize ≤ rdLen s) : rdExtend n p s = .raised .storeFull s :=
  (rdExtend_of_operands_ok hc hlen1 hlen2).trans (if_pos hfull)

theorem rdExtend_of_room (hroom : rdLen s < s.config.rdSize) :
    rdExtend n p s = .done () { s with rd := s.rd ++ [p] } :=
  (rdExtend_of_operands_ok hc hlen1 hlen2).trans (if_neg (Nat.not_le.2 hroom))

end

theorem rdLookup_of_lt (h : n < rdLen s) : rdLookup n s = some (s.rd[n]'h) := List.getElem?_eq_getElem h

theorem rdLookup_of_ge (h : rdLen s ≤ n) : rdLookup n s = none := List.getElem?_eq_none h

/-! ### The commands outside a session (R213) -/

section
variable (hs : s.ph = .idle ∨ s.ph = .done)
include hs

theorem exec_rdInit : exec .rdInit s = .next (answered .ok 0 [] (rdInit s)) := by
  rw [exec, execRdInit, command_outside (mem_outsideSession.2 hs)]
  rfl

/-- RD.EXT where `RdExtend` is done. -/
theorem exec_rdExt_of_done {t : State} (h : rdExtend c.toNat p s = .done () t) :
    exec (.rdExt c p) s = .next (answered .ok 0 [] t) := by
  rw [exec, execRdExt, command_outside (mem_outsideSession.2 hs), operandB, h]
  rfl

/-- RD.EXT where `RdExtend` raises a cause. -/
theorem exec_rdExt_of_raised {k : Cause} (h : rdExtend c.toNat p s = .raised k s) :
    exec (.rdExt c p) s = .next (faulted k (causeCode k) s) := by
  rw [exec, execRdExt, command_outside (mem_outsideSession.2 hs), operandB, h]
  rfl

/-- RD.LKP of a code that is present. -/
theorem exec_rdLkp_of_some (h : rdLookup c.toNat s = some p) :
    exec (.rdLkp c) s = .next (answered .ok 0 p s) := by
  rw [exec, execRdLkp, command_outside (mem_outsideSession.2 hs), operandB, h]
  rfl

/-- RD.LKP of a code that is absent. -/
theorem exec_rdLkp_of_none (h : rdLookup c.toNat s = none) :
    exec (.rdLkp c) s = .next (answered .miss 0 [] s) := by
  rw [exec, execRdLkp, command_outside (mem_outsideSession.2 hs), operandB, h]
  rfl

end

/-! ### The statements -/

/-- Settles O20: the body puts the alphabet into the table, and no other part of the state changes. -/
theorem rdInitStoresTheAlphabet : Obligations.RdInitStoresTheAlphabet :=
  ⟨decode_rdInit,
    fun _ hs => ⟨_, exec_rdInit hs, rfl, alphabet_length, fun _ hi => alphabet_getElem? hi⟩,
    shutOutOfSessions_of_legalPhases Instr.noConfusion rfl⟩

/-- Settles O21, by the first check of `RdExtend` that fails. -/
theorem extendAppendsAtTheNextCode : Obligations.ExtendAppendsAtTheNextCode := by
  refine ⟨fun s c p hs => ⟨?_, ?_, ?_, ?_⟩, fun c p => shutOutOfSessions_of_legalPhases Instr.noConfusion rfl⟩
  · exact fun hc hlen1 hlen2 hroom => exec_rdExt_of_done hs (rdExtend_of_room hc hlen1 hlen2 hroom)
  · exact fun hc => exec_rdExt_of_raised hs (rdExtend_of_code_ne hc)
  · intro hc hbad
    have hlen : p.length < 1 ∨ s.config.phraseMax < p.length :=
      hbad.imp_left fun hempty => by simp [hempty]
    exact exec_rdExt_of_raised hs (rdExtend_of_bad_length hc hlen)
  · exact fun hc hlen1 hlen2 hfull => exec_rdExt_of_raised hs (rdExtend_of_full hc hlen1 hlen2 hfull)

/-- Settles O22: a code is found exactly when it is below `rd_len`. -/
theorem lookupAnswersEntryOrMiss : Obligations.LookupAnswersEntryOrMiss :=
  ⟨decode_rdLkp,
    fun _ _ hs => ⟨fun h => exec_rdLkp_of_some hs (rdLookup_of_lt h), fun h => exec_rdLkp_of_none hs (rdLookup_of_ge h)⟩,
    fun _ => shutOutOfSessions_of_legalPhases Instr.noConfusion rfl⟩

end Sys2Proof.Machine
end

section
/-! PROOFS. Family 42_bitpack.md: packing and unpacking as inverses, the bytes an UpRead pulls, the values of the width policy,
and the six commands outside a session by what their procedures come to. -/

namespace Sys2Proof.Machine

/-! ### Reading back what was packed (R158, R160) -/

/-- The digits of a code that stand first in the stream are read as that code, and the digits after them stay (R158). -/
theorem upRead_of_digits_first {c w : Nat} {s : State} {ds : List Bool} (hw : 1 ≤ w ∧ w ≤ s.config.maxW)
    (hclean : BufClean s.up) (hc : c < 2 ^ w) (hbits : pendingBits s = bitsOf w c ++ ds) :
    ∃ t, upRead w s = .done (some c) t ∧ t.config = s.config ∧ BufClean t.up ∧ pendingBits t = ds := by
  have henough : w ≤ (pendingBits s).length := by simp [hbits]
  obtain ⟨c', k, b, hread, hc', hclean', _, hbits'⟩ := upRead_code hw hclean henough
  obtain ⟨hdigits, hrest⟩ := List.append_inj (hbits'.symm.trans hbits) (by simp)
  rw [bitsOf_injective hc' hc hdigits] at hread
  exact ⟨_, hread, rfl, hclean', hrest⟩

/-- Reads at the widths of codes whose digits stand first in the stream give these codes, and the digits after them stay. -/
theorem readAll_of_digits_first (l : List (Nat × Nat)) (s : State) {ds : List Bool} (hclean : BufClean s.up)
    (hl : ∀ y ∈ l, 1 ≤ y.2 ∧ y.2 ≤ s.config.maxW ∧ y.1 < 2 ^ y.2)
    (hbits : pendingBits s = (l.flatMap fun y => bitsOf y.2 y.1) ++ ds) :
    ∃ t, readAll (l.map Prod.snd) s = .done (l.map fun y => some y.1) t ∧
      t.config = s.config ∧ BufClean t.up ∧ pendingBits t = ds := by
  induction l generalizing s with
  | nil => exact ⟨s, rfl, rfl, hclean, hbits⟩
  | cons y ys ih =>
    obtain ⟨⟨hw1, hw2, hc⟩, hys⟩ := List.forall_mem_cons.1 hl
    rw [List.flatMap_cons, List.append_assoc] at hbits
    obtain ⟨s1, hread, hconfig1, hclean1, hbits1⟩ := upRead_of_digits_first ⟨hw1, hw2⟩ hclean hc hbits
    obtain ⟨t, hall, hconfig, hclean', hrest⟩ := ih s1 hclean1 (hconfig1.symm ▸ hys) hbits1
    refine ⟨t, ?_, hconfig.trans hconfig1, hclean', hrest⟩
    rw [List.map_cons, readAll, hread, andThen_done, hall, andThen_done, List.map_cons]

/-- Settles O33: the bytes pushed are the codes' digits and fewer than eight zeros (R93); the reads take the digits, and the
zeros are too few for one more. -/
theorem packThenUnpackGivesTheCodes : Obligations.PackThenUnpackGivesTheCodes := by
  intro s l hpk hsnk hl
  obtain ⟨t, x, hpack, hflush, hlen, hbody⟩ := bodyLayout s l hpk hl
  refine ⟨t, hpack, fun r hup hconfig hsrc => ?_⟩
  have hbytes : r.src = x := by rw [hsrc, hflush, hsnk, List.nil_append]
  have hpending : pendingBits r = (l.flatMap fun y => bitsOf y.2 y.1)
      ++ List.replicate (8 * x.length - (l.map Prod.snd).sum) false := by
    rw [pendingBits, hup, hbytes, bitsOf_zero_width, List.nil_append, hbody]
  obtain ⟨u, hread, hconfig', hclean, hrest⟩ :=
    readAll_of_digits_first l r (by simp [hup]) (hconfig.symm ▸ hl) hpending
  refine ⟨u, hread, fun w h8 hw => ?_⟩
  have hw' : w ≤ u.config.maxW := by rw [hconfig', hconfig]; exact hw
  have hfew : (pendingBits u).length < w := by
    rw [hrest, List.length_replicate]
    omega
  obtain ⟨b, hend, _⟩ := upRead_eos ⟨by omega, hw'⟩ hclean hfew
  exact ⟨_, hend⟩

/-! ### The operands PkEmit refuses (R152) -/

theorem pkEmit_of_bad_width {c w : Nat} {s : State} (hw : ¬ (1 ≤ w ∧ w ≤ s.config.maxW)) :
    pkEmit c w s = .raised .badOperand s := by
  rw [pkEmit, if_pos (by simpa [widthLegal] using hw)]

theorem pkEmit_of_code_too_big {c w : Nat} {s : State} (hc : 2 ^ w ≤ c) : pkEmit c w s = .raised .badOperand s := by
  rw [pkEmit, if_pos hc, ite_self]

/-! ### The bytes UpRead pulls (R158) -/

/-- A read pulls bytes only while fewer than `w` bits are held, so it leaves at most 7 bits of a byte it pulled. -/
theorem upRead_code_pulls {w : Nat} {s : State} (hw : 1 ≤ w ∧ w ≤ s.config.maxW) (hc : BufClean s.up)
    (hl : w ≤ s.up.cnt + 8 * s.src.length) :
    ∃ c k b, upRead w s = .done (some c) { s with up := b, src := s.src.drop k } ∧
      c < 2 ^ w ∧ k ≤ s.src.length ∧ b.cnt + w = s.up.cnt + 8 * k ∧ BufClean b ∧
      (s.up.cnt < w → b.cnt ≤ 7) ∧ (w ≤ s.up.cnt → k = 0) ∧
      pendingBits s = bitsOf w c ++ (bitsOf b.cnt b.acc ++ byteBits (s.src.drop k)) := by
  obtain ⟨c, k, b, hread, hcode, hclean, hheld, hbits⟩ := upRead_code hw hc (by simpa [pendingBits] using hl)
  have hdrop : s.src.drop (min k s.src.length) = s.src.drop k := List.drop_eq_drop_min.symm
  have hcount : s.up.cnt + 8 * s.src.length = w + (b.cnt + 8 * (s.src.length - k)) := by
    simpa [pendingBits] using congrArg List.length hbits
  refine ⟨c, min k s.src.length, b, ?_, hcode, by omega, by omega, hclean, by omega, by omega, ?_⟩
  · rw [hdrop, hread]
  · rw [hdrop, hbits]

/-! ### The width policy's values (R14, R163, R164) -/

theorem bitLength_eq_iff {n k : Nat} (hn : 1 ≤ n) : bitLength n = k ↔ 1 ≤ k ∧ 2 ^ (k - 1) ≤ n ∧ n < 2 ^ k := by
  constructor
  · rintro rfl
    obtain ⟨hlow, hhigh⟩ := bitLength_bounds hn
    refine ⟨Nat.one_le_iff_ne_zero.2 fun h0 => ?_, hlow, hhigh⟩
    rw [h0] at hhigh
    omega
  · rintro ⟨hk, hlow, hhigh⟩
    have hk1 : k - 1 + 1 = k := Nat.sub_add_cancel hk
    rw [bitLength_unique hlow (hk1.symm ▸ hhigh), hk1]

theorem codeWidth_variable (bits n : Nat) : codeWidth true bits n = max 9 (bitLength n) := if_pos rfl

theorem codeWidth_fixed (bits n : Nat) : codeWidth false bits n = bits := if_neg Bool.false_ne_true

theorem codeWidth_variable_of_lt {n : Nat} (bits : Nat) (h : n < 512) : codeWidth true bits n = 9 :=
  (codeWidth_variable bits n).trans (max_eq_left (bitLength_le (k := 9) h))

theorem codeWidth_variable_of_range {n k : Nat} (bits : Nat) (hk : 9 ≤ k) (hlow : 2 ^ k ≤ n) (hhigh : n < 2 ^ (k + 1)) :
    codeWidth true bits n = k + 1 := by
  rw [codeWidth_variable, bitLength_unique hlow hhigh]
  omega

/-- Settles O30: each mode's width is a branch of the definition, and `bit_length` is the one `k` between its bounds. -/
theorem widthPolicy : Obligations.WidthPolicy :=
  ⟨codeWidth_variable, codeWidth_fixed, rfl, fun _ hn _ => bitLength_eq_iff hn⟩

/-! ### The commands outside a session (R213) -/

section
variable {s t : State} {c : Code} {w : Byte} (hs : s.ph = .idle ∨ s.ph = .done)
include hs

theorem exec_pkClr : exec .pkClr s = .next (answered .ok 0 [] (pkClear s)) := by
  rw [exec, execPkClr, command_outside (mem_outsideSession.2 hs)]
  rfl

/-- PK.EMIT where `PkEmit` is done. -/
theorem exec_pkEmit_of_done (h : pkEmit c.toNat w.toNat s = .done () t) :
    exec (.pkEmit c w) s = .next (answered .ok 0 [] t) := by
  rw [exec, execPkEmit, command_outside (mem_outsideSession.2 hs), operandB, operandA, h]
  rfl

/-- PK.EMIT where `PkEmit` refuses its operands. -/
theorem exec_pkEmit_of_raised (h : pkEmit c.toNat w.toNat s = .raised .badOperand s) :
    exec (.pkEmit c w) s = .next (faulted .badOperand 4 s) := by
  rw [exec, execPkEmit, command_outside (mem_outsideSession.2 hs), operandB, operandA, h]
  rfl

theorem exec_pkFlush : exec .pkFlush s = .next (answered .ok 0 [] (pkFlush s)) := by
  rw [exec, execPkFlush, command_outside (mem_outsideSession.2 hs)]
  rfl

theorem exec_upClr : exec .upClr s = .next (answered .ok 0 [] (upClear s)) := by
  rw [exec, execUpClr, command_outside (mem_outsideSession.2 hs)]
  rfl

/-- UP.READ where `UpRead` gives a code. -/
theorem exec_upRead_of_some {n : Nat} (h : upRead w.toNat s = .done (some n) t) :
    exec (.upRead w) s = .next (answered .ok (BitVec.ofNat 32 n) [] t) := by
  rw [exec, execUpRead, command_outside (mem_outsideSession.2 hs), operandA, h]
  rfl

/-- UP.READ where `UpRead` gives end-of-stream. -/
theorem exec_upRead_of_none (h : upRead w.toNat s = .done none t) :
    exec (.upRead w) s = .next (answered .ended 0 [] t) := by
  rw [exec, execUpRead, command_outside (mem_outsideSession.2 hs), operandA, h]
  rfl

/-- UP.READ where `UpRead` refuses its width. -/
theorem exec_upRead_of_raised (h : upRead w.toNat s = .raised .badOperand s) :
    exec (.upRead w) s = .next (faulted .badOperand 4 s) := by
  rw [exec, execUpRead, command_outside (mem_outsideSession.2 hs), operandA, h]
  rfl

theorem exec_widGet (n : Code) :
    exec (.widGet n) s = .next (answered .ok (BitVec.ofNat 32 (codeWidth s.cfgVar s.cfgBits n.toNat)) [] s) := by
  rw [exec, execWidGet, command_outside (mem_outsideSession.2 hs), operandB]
  rfl

end

/-! ### The packer's statements -/

/-- Settles O23: the body empties the packer's buffer, and no other part of the state changes. -/
theorem pkClrDropsTheHeldBits : Obligations.PkClrDropsTheHeldBits :=
  ⟨decode_opcode_operandB 0x30#8 0#32, fun _ hs => exec_pkClr hs,
    shutOutOfSessions_of_legalPhases Instr.noConfusion rfl⟩

/-- Settles O24: no bit is lost, so the bytes pushed are as many as the whole eights of the bits. -/
theorem emitPushesTheBitsInOrder : Obligations.EmitPushesTheBitsInOrder := by
  refine ⟨fun s c w hs hclean hw1 hw2 hc => ?_, fun c w => shutOutOfSessions_of_legalPhases Instr.noConfusion rfl⟩
  obtain ⟨x, b, hemit, h7, hclean', hbits⟩ := pkEmit_spec ⟨hw1, hw2⟩ hc hclean
  have hcount : 8 * x.length + b.cnt = s.pk.cnt + w.toNat := by
    simpa [packerBits] using congrArg List.length hbits
  exact ⟨x, b, exec_pkEmit_of_done hs hemit, h7, hclean', by omega, hbits⟩

/-- Settles O25, by the check of `PkEmit` or `UpRead` that fails. -/
theorem badWidthsAndCodesAreRefused : Obligations.BadWidthsAndCodesAreRefused := by
  intro s c w hs
  constructor
  · intro hbad
    have hw : ¬ (1 ≤ w.toNat ∧ w.toNat ≤ s.config.maxW) := by
      rw [Config.maxW]
      omega
    exact ⟨exec_pkEmit_of_raised hs (pkEmit_of_bad_width hw), exec_upRead_of_raised hs (upRead_bad_width hw)⟩
  · exact fun hbig => exec_pkEmit_of_raised hs (pkEmit_of_code_too_big hbig)

/-- Settles O26: the zeros that pad `n` held bits to a byte are `8 - n`, and none where none are held. -/
theorem flushPadsWithZeros : Obligations.FlushPadsWithZeros := by
  refine ⟨fun s hs h7 => ?_, shutOutOfSessions_of_legalPhases Instr.noConfusion rfl⟩
  obtain ⟨x, hflush, hbits⟩ := pkFlush_spec h7
  have hpad : (if s.pk.cnt = 0 then 0 else 8 - s.pk.cnt) = (8 - s.pk.cnt) % 8 := by
    split <;> omega
  exact ⟨x, (exec_pkFlush hs).trans (by rw [hflush]; rfl), hpad ▸ hbits⟩

/-! ### The unpacker's statements -/

/-- Settles O27: the body empties the unpacker's buffer and clears `up_eos`, and no other part of the state changes. -/
theorem upClrDropsTheHeldBits : Obligations.UpClrDropsTheHeldBits :=
  ⟨decode_opcode_operandB 0x40#8 0#32, fun _ hs => exec_upClr hs,
    shutOutOfSessions_of_legalPhases Instr.noConfusion rfl⟩

/-- Settles O28, by the code `UpRead` gives and the bytes it pulls for it. -/
theorem readDeliversTheNextBits : Obligations.ReadDeliversTheNextBits := by
  refine ⟨fun s w hs _ hclean hw1 hw2 henough => ?_, fun w => shutOutOfSessions_of_legalPhases Instr.noConfusion rfl⟩
  obtain ⟨c, k, b, hread, hrest⟩ := upRead_code_pulls ⟨hw1, hw2⟩ hclean henough
  exact ⟨c, k, b, exec_upRead_of_some hs hread, hrest⟩

/-- Settles O29: the bits gathered are all that were pending, so their number is known. -/
theorem readAtTheEndKeepsTheBits : Obligations.ReadAtTheEndKeepsTheBits := by
  intro s w hs hclean hw1 hw2 hfew
  obtain ⟨b, hread, hclean', hbits⟩ := upRead_eos ⟨hw1, hw2⟩ hclean (by simpa [pendingBits] using hfew)
  have hcount : b.cnt = s.up.cnt + 8 * s.src.length := by
    simpa [pendingBits] using congrArg List.length hbits
  exact ⟨b, exec_upRead_of_none hs hread, hcount, hclean', hbits⟩

/-! ### The width policy's statement -/

/-- Settles O31, by the policy's value in each mode and range. -/
theorem widGetAnswersThePolicy : Obligations.WidGetAnswersThePolicy := by
  refine ⟨fun s n hs => ?_, fun n => shutOutOfSessions_of_legalPhases Instr.noConfusion rfl⟩
  rw [exec_widGet hs]
  refine ⟨fun hfixed => ?_, fun hvar hlt => ?_, fun hvar k hk hlow hhigh => ?_⟩
  · rw [hfixed, codeWidth_fixed]
  · rw [hvar, codeWidth_variable_of_lt _ hlt]
    rfl
  · rw [hvar, codeWidth_variable_of_range _ hk hlow hhigh]

end Sys2Proof.Machine
end

section
/-! PROOFS. Family 43_compress.md: a pass of C.STEP on each kind of input, C.RUN as passes until the session ends, and the end of
a sound session. -/

namespace Sys2Proof.Machine

/-! ### The commands where they are legal (R213) -/

section
variable {s : State}

theorem exec_cStart_of_outside (hs : s.ph = .idle ∨ s.ph = .done) :
    exec .cStart s = .next (respond Response.ok (cStart s)) := by
  rw [exec, execCStart, command_outside (mem_outsideSession.2 hs), complete_done]

theorem exec_cStep_of_comp (hp : s.ph = .comp) : exec .cStep s = complete (cStep s) :=
  command_legal (by simp [hp]) (by simp [hp])

theorem exec_cRun_of_legal (h : s.ph = .idle ∨ s.ph = .done ∨ s.ph = .comp) : exec .cRun s = complete (cRun s) :=
  command_legal (by rcases h with h | h | h <;> simp [h]) (by rcases h with h | h | h <;> simp [h])

/-! ### A pass by what is left of the source (R171) -/

theorem cStep_of_src_cons {b : Byte} {bs : List Byte} (h : s.src = b :: bs) :
    cStep s = cConsume b { s with src := bs } := by
  rw [cStep, srcPull_cons h]

theorem cStep_of_src_nil (h : s.src = []) : cStep s = cFinish s := by
  rw [cStep, srcPull_nil h]

end

/-- Settles O35: the search finds the extended match, so the pass only puts it in the place of the match. -/
theorem cStepExtendsTheMatch : Obligations.CStepExtendsTheMatch := by
  intro s b bs c hp hsrc hfound
  rw [exec_cStep_of_comp hp, cStep_of_src_cons hsrc, cConsume_found (s := { s with src := bs }) hfound]
  rfl

/-- Settles O36: the pass is one whose search misses, with the counter below CAP or at it. -/
theorem cStepEmitsAndInserts : Obligations.CStepEmitsAndInserts := by
  intro s b bs hi hp hsrc hmissed
  have hi1 : Inv { s with src := bs } := hi.frame bs s.snk s.upEos s.host s.out
  obtain ⟨code, x, pk, tr, n, hcode, hlt, hpass, h7, hclean, hbits, hfrozen, hgrown, -⟩ := cConsume_missed hi1 hp hmissed
  have hn : n = if s.encNext < 2 ^ s.cfgBits then s.encNext + 1 else s.encNext := by
    split
    · rename_i hroom
      exact (hgrown hroom).1
    · rename_i hfull
      exact (hfrozen (Nat.not_lt.1 hfull)).2
  refine ⟨code, x, pk, tr, hcode, hlt, ?_, h7, hclean, hbits, fun hfull => (hfrozen hfull).1, fun hroom => ?_⟩
  · rw [exec_cStep_of_comp hp, cStep_of_src_cons hsrc, hpass, ← hn]
    rfl
  · obtain ⟨-, halloc, hgrow⟩ := hgrown hroom
    exact ⟨hgrow.size, halloc, hgrow.search hi.trie hmissed⟩

/-- Settles O37: the zeros that pad the held bits are as many as a whole number of bytes needs, because they are fewer than
eight. -/
theorem cStepFinishesTheStream : Obligations.CStepFinishesTheStream := by
  intro s hi hp hsrc
  obtain ⟨x, hpass, -, hnone, hheld⟩ := cFinish_spec hi hp
  refine ⟨x, ?_, fun h0 => ?_, fun hne => ?_⟩
  · rw [exec_cStep_of_comp hp, cStep_of_src_nil hsrc, hpass]
    rfl
  · obtain ⟨z, hz, hbits⟩ := hnone h0
    have hcount : 8 * x.length = s.pk.cnt + z := by simpa [packerBits] using congrArg List.length hbits
    have hpad : z = (8 - s.pk.cnt) % 8 := by
      have := hi.packer.1
      omega
    exact hpad ▸ hbits
  · obtain ⟨code, z, hcode, -, hz, hbits⟩ := hheld hne
    exact ⟨code, z, hcode, hz, hbits⟩

/-! ### What a pass does to the phase and the source, in every state (R171) -/

section
variable {s u : State}

theorem emitMatch_keeps {a : Unit} (h : emitMatch s = .done a u) : u.ph = s.ph ∧ u.src = s.src := by
  rw [emitMatch] at h
  split at h
  · cases h
  · rename_i code _
    rcases pkEmit_cases code.toNat (codeWidth s.cfgVar s.cfgBits s.encNext) s with e | ⟨x, b, e⟩ <;>
      cases e.symm.trans h
    exact ⟨rfl, rfl⟩

theorem growTrie_keeps {p : Phrase} {a : Unit} (h : growTrie p s = .done a u) : u.ph = s.ph ∧ u.src = s.src := by
  rw [growTrie, insertPhrase] at h
  split at h
  · split at h <;> cases h
    exact ⟨rfl, rfl⟩
  · cases h
    exact ⟨rfl, rfl⟩

/-- A byte consumed is answered OK, in the same phase. -/
theorem cConsume_done {b : Byte} {r : Response} (h : cConsume b s = .done r u) :
    r = Response.ok ∧ u.ph = s.ph ∧ u.src = s.src := by
  rw [cConsume] at h
  split at h
  · cases h
    exact ⟨rfl, rfl, rfl⟩
  · obtain ⟨_, s1, hemit, h⟩ := andThen_eq_done.1 h
    obtain ⟨_, s2, hgrow, h⟩ := andThen_eq_done.1 h
    cases h
    obtain ⟨hph1, hsrc1⟩ := emitMatch_keeps hemit
    obtain ⟨hph2, hsrc2⟩ := growTrie_keeps hgrow
    exact ⟨rfl, hph2.trans hph1, hsrc2.trans hsrc1⟩

theorem cFinish_done {r : Response} (h : cFinish s = .done r u) : r = Response.finished ∧ u.ph = .done := by
  obtain ⟨_, s1, _, h⟩ := andThen_eq_done.1 h
  cases h
  exact ⟨rfl, rfl⟩

/-- A pass that raises nothing consumes a byte and stays in its phase, or finds the source at its end and ends the session. -/
theorem cStep_done {r : Response} (h : cStep s = .done r u) :
    (∃ b, s.src = b :: u.src ∧ r = Response.ok ∧ u.ph = s.ph) ∨ (s.src = [] ∧ r = Response.finished ∧ u.ph = .done) := by
  cases hsrc : s.src with
  | nil =>
    rw [cStep_of_src_nil hsrc] at h
    exact .inr ⟨rfl, cFinish_done h⟩
  | cons b bs =>
    rw [cStep_of_src_cons hsrc] at h
    obtain ⟨hok, hph, hrest⟩ := cConsume_done h
    exact .inl ⟨b, by rw [hrest], hok, hph⟩

/-! ### C.RUN as C.START and passes (R176) -/

theorem cRun_of_comp (hp : s.ph = .comp) :
    cRun s = (cLoop (s.src.length + 1) s).andThen fun _ t => .done Response.finished t := by
  simp only [cRun, if_pos hp]

/-- Outside a compression session C.RUN opens one first. -/
theorem cRun_of_not_comp (hp : s.ph ≠ .comp) : cRun s = cRun (cStart s) := by
  rw [cRun_of_comp (cStart_ph s), cRun, if_neg hp]

/-- C.RUN in a session is a pass and then what the loop makes of the source left to it. -/
theorem cRun_eq_pass (hp : s.ph = .comp) :
    cRun s = (cStep s).andThen fun _ u =>
      (cLoop s.src.length u).andThen fun _ t => .done Response.finished t := by
  rw [cRun_of_comp hp, cLoop, if_pos hp]
  cases cStep s <;> rfl

/-- After a pass that stays in the session, C.RUN goes on as C.RUN: the passes left to it are as many as the source needs. -/
theorem cRun_of_pass {r : Response} (hp : s.ph = .comp) (h : cStep s = .done r u) (hu : u.ph = .comp) :
    cRun s = cRun u := by
  rcases cStep_done h with ⟨b, hsrc, -⟩ | ⟨-, -, hdone⟩
  · rw [cRun_eq_pass hp, h, andThen_done, cRun_of_comp hu, hsrc, List.length_cons]
  · cases hu.symm.trans hdone

/-- After the pass that ends the session, C.RUN ends too, with the same response. -/
theorem cRun_of_last_pass {r : Response} (hp : s.ph = .comp) (h : cStep s = .done r u) (hu : u.ph ≠ .comp) :
    cRun s = .done r u := by
  rcases cStep_done h with ⟨_, -, -, hph⟩ | ⟨hsrc, rfl, -⟩
  · exact absurd (hph.trans hp) hu
  · rw [cRun_eq_pass hp, h, hsrc]
    rfl

theorem cRun_sessionIn (c : State) (hp : s.ph = .comp) : cRun (sessionIn c s) = (cRun s).mapState (sessionIn c) := by
  rw [cRun_of_comp hp, cRun_of_comp (s := sessionIn c s) hp, sessionIn_src, cLoop_sessionIn]
  exact andThen_mapState _ _ _ fun _ _ => rfl

/-- The response given before is lost in the command's own. -/
theorem complete_sessionIn_out (c : State) (out : HostGets) (p : Proc Response) :
    complete (p.mapState (sessionIn { c with out := out })) = complete (p.mapState (sessionIn c)) := by
  cases p <;> rfl

/-- In a session C.RUN comes to the same whatever was answered before it: every session is itself, opened with nothing in the
sink, and the answer before is a part the driver never touches. -/
theorem exec_cRun_respond (r : Response) (hp : s.ph = .comp) : exec .cRun (respond r s) = exec .cRun s :=
  calc exec .cRun (respond r s)
      = complete (cRun (respond r s)) := exec_cRun_of_legal (.inr (.inr hp))
    _ = complete ((cRun s).mapState (sessionIn { s with snk := [], out := .response r })) :=
        congrArg complete (cRun_sessionIn { s with snk := [], out := .response r } hp)
    _ = complete ((cRun s).mapState (sessionIn { s with snk := [] })) :=
        complete_sessionIn_out { s with snk := [] } (.response r) (cRun s)
    _ = complete (cRun s) := congrArg complete (cRun_sessionIn { s with snk := [] } hp).symm
    _ = exec .cRun s := (exec_cRun_of_legal (.inr (.inr hp))).symm

end

/-- Settles O38, by what the pass comes to: it stays in the session, ends it, or raises a cause that ends C.RUN too. -/
theorem cRunIsRepeatedCStep : Obligations.CRunIsRepeatedCStep := by
  refine ⟨fun s hs => ?_, fun s t hp hstep => ?_⟩
  · have hp : s.ph ≠ .comp := by rcases hs with h | h <;> simp [h]
    refine ⟨_, exec_cStart_of_outside hs, ?_⟩
    rw [exec_cRun_respond _ (cStart_ph s), exec_cRun_of_legal (.inr (.inr (cStart_ph s))), exec_cRun_of_legal (by tauto),
      cRun_of_not_comp hp]
  · have hrun := exec_cRun_of_legal (s := s) (.inr (.inr hp))
    rw [exec_cStep_of_comp hp] at hstep
    rcases complete_eq_next.1 hstep with ⟨r, u, hpass, rfl⟩ | ⟨c, u, hpass, rfl⟩
    · constructor
      · intro (hu : u.ph = .comp)
        rw [hrun, cRun_of_pass hp hpass hu, exec_cRun_respond r hu, exec_cRun_of_legal (.inr (.inr hu))]
      · intro (hu : u.ph ≠ .comp)
        rw [hrun, cRun_of_last_pass hp hpass hu, complete_done]
    · have hraised : cRun s = .raised c u := by rw [cRun_eq_pass hp, hpass, andThen_raised]
      exact ⟨nofun, fun _ => by rw [hrun, hraised, complete_raised]⟩

/-! ### C.RUN in a sound state (R176, R178) -/

/-- `s` as C.RUN leaves it: in DONE, the source used up, `x` pushed, the packer flushed, and `tr`, `p` and `n` as trie, match
and counter (R173, R176). -/
def atSessionEnd (s : State) (x : List Byte) (tr : Trie) (p : Phrase) (n : Nat) : State :=
  { s with ph := .done, src := [], snk := s.snk ++ x, pk := BitBuf.empty, trie := tr, compS := p, encNext := n }

/-- C.RUN ends a sound session and keeps the session's invariants. -/
theorem cRun_of_sound_session {s : State} (hi : Inv s) (hp : s.ph = .comp) :
    ∃ x tr p n, cRun s = .done Response.finished (atSessionEnd s x tr p n) ∧
      CompInv (atSessionEnd s x tr p n) ∧ Inv (atSessionEnd s x tr p n) := by
  obtain ⟨x, tr, p, n, hloop, hc, hi'⟩ := cLoop_spec hi hp (Nat.lt_succ_self _)
  refine ⟨x, tr, p, n, ?_, hc.frame .done s.fcause BitBuf.empty s.up [] (s.snk ++ x) s.upEos s.host s.out, hi'⟩
  rw [cRun_of_comp hp, hloop]
  rfl

/-- C.RUN in a sound state where it is legal: the session it finds open, or the one it opens, ends. -/
theorem cRun_spec {s : State} (hi : Inv s) (hs : s.ph = .idle ∨ s.ph = .done ∨ s.ph = .comp) :
    ∃ x tr p n, cRun s = .done Response.finished (atSessionEnd s x tr p n) ∧
      CompInv (atSessionEnd s x tr p n) ∧ Inv (atSessionEnd s x tr p n) := by
  by_cases hp : s.ph = .comp
  · exact cRun_of_sound_session hi hp
  · obtain ⟨x, tr, p, n, hend⟩ := cRun_of_sound_session (hi.cStart (by tauto)) (cStart_ph s)
    have hopened : atSessionEnd (cStart s) x tr p n = atSessionEnd s (headerBytes s ++ x) tr p n := by
      rw [cStart_eq hi.config, atSessionEnd, atSessionEnd, List.append_assoc]
    rw [← cRun_of_not_comp hp, hopened] at hend
    exact ⟨headerBytes s ++ x, tr, p, n, hend⟩

/-- Settles O39: where C.RUN is legal the session's invariants at its end are the claims about trie, match and counter. -/
theorem cRunCompletes : Obligations.CRunCompletes := by
  refine ⟨fun s hi hs => ?_, fun s hs => ?_, fun s hs => exec_in_fault Instr.noConfusion hs⟩
  · obtain ⟨x, tr, p, n, hrun, hc, hend⟩ := cRun_spec hi hs
    refine ⟨x, tr, p, n, ?_, hc.counter.1.symm, hc.alloc, hend.encRange.1, hc.counter.2, hend.trie, hc.matched.resolve_left⟩
    rw [exec_cRun_of_legal hs, hrun]
    rfl
  · exact command_illegal (by rcases hs with h | h <;> simp [h]) (by rcases hs with h | h <;> simp [h])

end Sys2Proof.Machine
end

section
/-! PROOFS. Family 44_decompress.md: the header D.START reads, D.STEP by the code it reads, D.RUN as passes until the session
ends, and the round trip. -/

namespace Sys2Proof.Machine

/-! ### The commands where they are legal (R213) -/

section
variable {s : State}

theorem exec_dStart_of_outside (hs : s.ph = .idle ∨ s.ph = .done) :
    exec .dStart s = complete ((dStart s).andThen fun _ t => .done Response.ok t) := by
  rw [exec, execDStart, command_outside (mem_outsideSession.2 hs)]

theorem exec_dStep_of_session (hp : s.ph = .dec0 ∨ s.ph = .dec1) : exec .dStep s = complete (dStep s) :=
  command_legal (by rcases hp with h | h <;> simp [h]) (by rcases hp with h | h <;> simp [h])

theorem exec_dRun_of_legal (h : s.ph = .idle ∨ s.ph = .done ∨ s.ph = .dec0 ∨ s.ph = .dec1) :
    exec .dRun s = complete (dRun s) :=
  command_legal (by rcases h with h | h | h | h <;> simp [h]) (by rcases h with h | h | h | h <;> simp [h])

end

/-! ### The header (R91, R92, R190) -/

/-- The little-endian word of four bytes is the bytes written from the last to the first (R91). -/
theorem headerWord_eq_append (h1 h2 h3 h4 : Byte) : headerWord h1 h2 h3 h4 = h4 ++ h3 ++ h2 ++ h1 := by
  apply BitVec.eq_of_getLsbD_eq
  intro i hi
  simp only [headerWord, BitVec.getLsbD_or, BitVec.getLsbD_setWidth, BitVec.getLsbD_shiftLeft, BitVec.getLsbD_append]
  grind

/-- The five bytes are refused by the flag or by the word's range, or give both parameters (R92, R221). -/
theorem headerFields_of_five (c : Config) (h0 h1 h2 h3 h4 : Byte) :
    headerFields c [h0, h1, h2, h3, h4] =
      if 1 < h0.toNat ∨ (h4 ++ h3 ++ h2 ++ h1).toInt < 9 ∨ (c.maxBits : Int) < (h4 ++ h3 ++ h2 ++ h1).toInt then none
      else some (decide (h0 = 0x01#8), (h4 ++ h3 ++ h2 ++ h1).toInt.toNat) := by
  have hflag : h0 ≠ 0x00#8 ∧ h0 ≠ 0x01#8 ↔ 1 < h0.toNat := by
    simp only [ne_eq, ← BitVec.toNat_inj, BitVec.toNat_ofNat]
    omega
  simp only [headerFields, sext32, headerWord_eq_append, hflag, minBits]
  by_cases hbad : 1 < h0.toNat
  · rw [if_pos hbad, if_pos (.inl hbad)]
  · rw [if_neg hbad]
    simp only [hbad, false_or, Nat.cast_ofNat]

/-- The header C.START pushes is accepted, with the parameters it was made of (R91, R170). -/
theorem headerFields_of_parameters {c : Config} (hc : c.legal) (v : Bool) {fb : Nat} (h9 : 9 ≤ fb) (hmax : fb ≤ c.maxBits) :
    headerFields c [flagByte v, BitVec.ofNat 8 fb, 0x00#8, 0x00#8, 0x00#8] = some (v, fb) := by
  have hle := hc.2
  have hword : ((0x00#8 ++ 0x00#8 ++ 0x00#8 ++ BitVec.ofNat 8 fb : BitVec 32)).toInt = fb := by
    rw [BitVec.toInt_eq_toNat_cond]
    simp only [BitVec.toNat_append, BitVec.toNat_ofNat, Nat.zero_mod, Nat.zero_shiftLeft, Nat.zero_or]
    omega
  have hflag : (flagByte v).toNat ≤ 1 ∧ decide (flagByte v = 0x01#8) = v := by cases v <;> decide
  rw [headerFields_of_five, hword, if_neg (by omega), hflag.2, Int.toNat_natCast]

/-! ### D.START by the header (R190, R221) -/

/-- `s` as D.START leaves it: a session open with the header's parameters, a fresh table and unpacker, `old` empty, the
counter at 256, and `body` left of the source (R190, R38). -/
def sessionOpened (s : State) (v : Bool) (fb : Nat) (body : List Byte) : State :=
  { s with
    cfgVar := v, cfgBits := fb, rd := alphabet, up := BitBuf.empty, upEos := false, old := [], decNext := 256
    ph := .dec0, src := body }

section
variable {s : State} {h body : List Byte}

theorem dStart_of_short (hshort : s.src.length < 5) : dStart s = .raised .invalidHeader { s with src := [] } := by
  rw [dStart, srcPullMany_eq, if_neg (by omega), List.drop_eq_nil_of_le (by omega)]

theorem srcPullMany_of_append (hsrc : s.src = h ++ body) :
    srcPullMany h.length s = (some h, { s with src := body }) := by
  rw [srcPullMany_eq, hsrc, if_pos (by simp), List.take_left, List.drop_left]

theorem dStart_of_bad_header (h5 : h.length = 5) (hsrc : s.src = h ++ body) (hf : headerFields s.config h = none) :
    dStart s = .raised .invalidHeader { s with src := body } := by
  rw [dStart, ← h5, srcPullMany_of_append hsrc]
  simp only [hf]

theorem dStart_of_good_header {v : Bool} {fb : Nat} (h5 : h.length = 5) (hsrc : s.src = h ++ body)
    (hf : headerFields s.config h = some (v, fb)) : dStart s = .done () (sessionOpened s v fb body) := by
  rw [dStart, ← h5, srcPullMany_of_append hsrc]
  simp only [hf]
  rfl

end

/-- Settles O40: the checks accept the five bytes, and the table put in is the alphabet. -/
theorem dStartReadsTheHeader : Obligations.DStartReadsTheHeader := by
  refine ⟨fun s v fb body hc hs h9 hmax hsrc => ⟨alphabet, ?_, alphabet_length, fun _ hi => alphabet_getElem? hi⟩,
    shutOutOfSessions_of_legalPhases Instr.noConfusion rfl⟩
  rw [exec_dStart_of_outside hs,
    dStart_of_good_header (body := body) rfl hsrc (headerFields_of_parameters hc v h9 hmax)]
  rfl

/-- Settles O41: the source ends before the fifth byte, or the checks refuse the five. -/
theorem dStartRefusesBadHeaders : Obligations.DStartRefusesBadHeaders := by
  refine fun s hs => ⟨fun hshort => ?_, fun h0 h1 h2 h3 h4 body hsrc hbad => ?_⟩
  · rw [exec_dStart_of_outside hs, dStart_of_short hshort]
    rfl
  · have hf : headerFields s.config [h0, h1, h2, h3, h4] = none := by rw [headerFields_of_five, if_pos hbad]
    rw [exec_dStart_of_outside hs, dStart_of_bad_header (body := body) rfl hsrc hf]
    rfl

/-! ### What a pass does to the phase and the bits left, in every state (R194, R264) -/

section
variable {s u : State}

/-- A fill that does not find the source at its end holds the bits asked for. -/
theorem upFill_holds {w n : Nat} (h : upFill w n s = (true, u)) (hn : w ≤ s.up.cnt + 8 * n) : w ≤ u.up.cnt := by
  induction n generalizing s with
  | zero =>
    cases h
    omega
  | succ n ih =>
    rw [upFill] at h
    split at h
    · rcases srcPull_cases s with ⟨_, e⟩ | ⟨b, bs, _, e⟩ <;> rw [e] at h
      · cases h
      · exact ih h (by simp only; omega)
    · cases h
      omega

/-- A code read takes its width off the bits left (R158). -/
theorem upRead_some_fuel {w c : Nat} (h : upRead w s = .done (some c) u) :
    u.ph = s.ph ∧ dFuel u < dFuel s := by
  rw [upRead] at h
  split at h
  · cases h
  rename_i hlegal
  have hw : 1 ≤ w := (widthLegal_iff.1 (by simpa using hlegal)).1
  obtain ⟨k, ok, b, e, hfill, hk, hcount⟩ := upFill_frame w w s
  cases ok with
  | false =>
    rw [hfill] at h
    cases h
  | true =>
    have hheld := upFill_holds hfill (by omega)
    obtain ⟨-, hcnt⟩ := hcount rfl
    rw [hfill] at h
    cases h
    refine ⟨rfl, ?_⟩
    simp only [dFuel, List.length_drop] at hheld ⊢
    omega

theorem dFirst_done {c : Nat} {r : Response} (h : dFirst c s = .done r u) :
    r = Response.ok ∧ u.ph = .dec1 ∧ dFuel u = dFuel s := by
  rw [dFirst] at h
  split at h <;> cases h
  exact ⟨rfl, rfl, by simp [dFuel]⟩

theorem dResolve_done {c : Nat} {p : Phrase} (h : dResolve c s = .done p u) : u = s := by
  rw [dResolve] at h
  split at h
  · cases h
    rfl
  split at h
  · cases h
  · split at h <;> cases h
    rfl

theorem dExtend_done {p : Phrase} {a : Unit} (h : dExtend p s = .done a u) : u.ph = s.ph ∧ dFuel u = dFuel s := by
  unfold dExtend at h
  split at h
  · split at h
    · cases h
    · obtain ⟨_, s1, hext, h⟩ := andThen_eq_done.1 h
      cases h
      rw [rdExtend] at hext
      split at hext
      · cases hext
      split at hext
      · cases hext
      · split at hext <;> cases hext
        exact ⟨rfl, rfl⟩
  · cases h
    exact ⟨rfl, rfl⟩

theorem dNext_done {c : Nat} {r : Response} (h : dNext c s = .done r u) :
    r = Response.ok ∧ u.ph = s.ph ∧ dFuel u = dFuel s := by
  obtain ⟨p, s1, hres, h⟩ := andThen_eq_done.1 h
  obtain ⟨_, s2, hext, h⟩ := andThen_eq_done.1 h
  cases h
  obtain rfl := dResolve_done hres
  obtain ⟨hph, hfuel⟩ := dExtend_done hext
  exact ⟨rfl, by simpa using hph, by simpa [dFuel] using hfuel⟩

/-- A pass that raises nothing reads a code and stays in the session with fewer bits left, or ends the session. -/
theorem dStep_done {r : Response} (hp : s.ph = .dec0 ∨ s.ph = .dec1) (h : dStep s = .done r u) :
    (r = Response.ok ∧ u.ph = .dec1 ∧ dFuel u < dFuel s) ∨ (r = Response.finished ∧ u.ph = .done) := by
  obtain ⟨c, s1, hread, h⟩ := andThen_eq_done.1 h
  cases c with
  | none =>
    cases h
    exact .inr ⟨rfl, rfl⟩
  | some c =>
    obtain ⟨hph, hless⟩ := upRead_some_fuel hread
    dsimp only at h
    split at h
    · obtain ⟨hr, hu, hfuel⟩ := dFirst_done h
      exact .inl ⟨hr, hu, by omega⟩
    · rename_i h0
      obtain ⟨hr, hu, hfuel⟩ := dNext_done h
      exact .inl ⟨hr, by rw [hu, hph]; exact hp.resolve_left h0, by omega⟩

/-! ### D.RUN as D.START and passes (R197) -/

theorem dLoop_of_closed (n : Nat) (h : ¬ (s.ph = .dec0 ∨ s.ph = .dec1)) : dLoop n s = .done () s := by
  cases n with
  | zero => rfl
  | succ n => rw [dLoop, if_neg h]

/-- Any two bounds on the passes that suffice give the same. -/
theorem dLoop_eq_of_fuel {n m : Nat} (hn : dFuel s ≤ n) (hm : dFuel s ≤ m) : dLoop n s = dLoop m s := by
  induction n generalizing s m with
  | zero => simp [dFuel] at hn
  | succ n ih =>
    obtain ⟨m, rfl⟩ : ∃ k, m = k + 1 := ⟨m - 1, by simp only [dFuel] at hm; omega⟩
    by_cases hp : s.ph = .dec0 ∨ s.ph = .dec1
    · rw [dLoop, dLoop, if_pos hp, if_pos hp]
      cases hpass : dStep s with
      | done r u =>
        rcases dStep_done hp hpass with ⟨-, -, hless⟩ | ⟨-, hu⟩
        · exact ih (by omega) (by omega)
        · have hclosed : ¬ (u.ph = .dec0 ∨ u.ph = .dec1) := by simp [hu]
          rw [andThen_done, andThen_done, dLoop_of_closed n hclosed, dLoop_of_closed m hclosed]
      | raised c u => rfl
      | stuck f => rfl
    · rw [dLoop_of_closed _ hp, dLoop_of_closed _ hp]

theorem dRun_of_session (hp : s.ph = .dec0 ∨ s.ph = .dec1) :
    dRun s = (dLoop (dFuel s) s).andThen fun _ t => .done Response.finished t := by
  rw [dRun, if_pos hp, andThen_done]

/-- Outside a session D.RUN opens one first. -/
theorem dRun_of_start (hs : s.ph = .idle ∨ s.ph = .done) (h : dStart s = .done () u) (hu : u.ph = .dec0) :
    dRun s = dRun u := by
  rw [dRun_of_session (.inl hu), dRun, if_neg (by rcases hs with hs | hs <;> simp [hs]), h, andThen_done]

/-- Where D.START raises a cause, so does D.RUN. -/
theorem dRun_of_failed_start {c : Cause} (hs : s.ph = .idle ∨ s.ph = .done) (h : dStart s = .raised c u) :
    dRun s = .raised c u := by
  rw [dRun, if_neg (by rcases hs with hs | hs <;> simp [hs]), h, andThen_raised]

/-- D.RUN in a session is a pass and then what the loop makes of the bits left to it. -/
theorem dRun_eq_pass (hp : s.ph = .dec0 ∨ s.ph = .dec1) :
    dRun s = (dStep s).andThen fun _ u =>
      (dLoop (dFuel s - 1) u).andThen fun _ t => .done Response.finished t := by
  have hfuel : dFuel s = dFuel s - 1 + 1 := rfl
  rw [dRun_of_session hp, hfuel, dLoop, if_pos hp]
  cases dStep s <;> rfl

/-- After a pass that stays in the session, D.RUN goes on as D.RUN: the passes left to it are as many as the bits need. -/
theorem dRun_of_pass {r : Response} (hp : s.ph = .dec0 ∨ s.ph = .dec1) (h : dStep s = .done r u)
    (hu : u.ph = .dec0 ∨ u.ph = .dec1) : dRun s = dRun u := by
  rcases dStep_done hp h with ⟨-, -, hless⟩ | ⟨-, hdone⟩
  · have hfuel : dLoop (dFuel s - 1) u = dLoop (dFuel u) u := dLoop_eq_of_fuel (by omega) le_rfl
    rw [dRun_eq_pass hp, h, andThen_done, hfuel, dRun_of_session hu]
  · simp [hdone] at hu

/-- After the pass that ends the session, D.RUN ends too, with the same response. -/
theorem dRun_of_last_pass {r : Response} (hp : s.ph = .dec0 ∨ s.ph = .dec1) (h : dStep s = .done r u)
    (hu : u.ph ≠ .dec1) : dRun s = .done r u := by
  rcases dStep_done hp h with ⟨-, hph, -⟩ | ⟨rfl, hdone⟩
  · exact absurd hph hu
  · rw [dRun_eq_pass hp, h, andThen_done, dLoop_of_closed _ (by simp [hdone]), andThen_done]

/-- A pass that raises a cause ends D.RUN with it. -/
theorem dRun_of_failed_pass {c : Cause} (hp : s.ph = .dec0 ∨ s.ph = .dec1) (h : dStep s = .raised c u) :
    dRun s = .raised c u := by
  rw [dRun_eq_pass hp, h, andThen_raised]

/-- D.RUN in a session comes to the same whatever the parts the decompression driver never touches hold. -/
theorem dRun_withUntouched (c : State) (hp : s.ph = .dec0 ∨ s.ph = .dec1) :
    dRun (withUntouched c s) = (dRun s).mapState (withUntouched c) := by
  rw [dRun_of_session hp, dRun_of_session (s := withUntouched c s) hp,
    show dFuel (withUntouched c s) = dFuel s from rfl, dLoop_withUntouched]
  exact andThen_mapState _ _ _ fun _ _ => rfl

/-- The response given before is lost in the command's own. -/
theorem complete_withUntouched_out (c : State) (out : HostGets) (p : Proc Response) :
    complete (p.mapState (withUntouched { c with out := out })) = complete (p.mapState (withUntouched c)) := by
  cases p <;> rfl

/-- In a session D.RUN comes to the same whatever was answered before it. -/
theorem complete_dRun_respond (r : Response) (hp : s.ph = .dec0 ∨ s.ph = .dec1) :
    complete (dRun (respond r s)) = complete (dRun s) :=
  calc complete (dRun (respond r s))
      = complete ((dRun s).mapState (withUntouched { s with out := .response r })) :=
        congrArg complete (dRun_withUntouched { s with out := .response r } hp)
    _ = complete ((dRun s).mapState (withUntouched s)) := complete_withUntouched_out s (.response r) (dRun s)
    _ = complete (dRun s) := congrArg complete (dRun_withUntouched s hp).symm

theorem exec_dRun_respond (r : Response) (hp : s.ph = .dec0 ∨ s.ph = .dec1) :
    exec .dRun (respond r s) = complete (dRun s) :=
  (exec_dRun_of_legal (s := respond r s) (by rcases hp with h | h <;> simp [h])).trans (complete_dRun_respond r hp)

end

/-- Settles O45, by what D.START and the pass come to: the session goes on, it ends, or a cause is raised that ends D.RUN
too. -/
theorem dRunIsRepeatedDStep : Obligations.DRunIsRepeatedDStep := by
  refine ⟨fun s t hs hstart => ?_, fun s t hp hstep => ?_⟩
  · have hrun := exec_dRun_of_legal (s := s) (by tauto)
    rw [exec_dStart_of_outside hs] at hstart
    rcases dStart_cases s with e | ⟨v, fb, -, -, e⟩ <;> rw [e] at hstart <;> cases hstart
    · exact ⟨nofun, fun _ => by rw [hrun, dRun_of_failed_start hs e, complete_raised]⟩
    · exact ⟨fun _ => by rw [hrun, dRun_of_start hs e rfl, exec_dRun_respond Response.ok (.inl rfl)], nofun⟩
  · have hrun := exec_dRun_of_legal (s := s) (by tauto)
    rw [exec_dStep_of_session hp] at hstep
    rcases complete_eq_next.1 hstep with ⟨r, u, hpass, rfl⟩ | ⟨c, u, hpass, rfl⟩
    · constructor
      · intro (hu : u.ph = .dec0 ∨ u.ph = .dec1)
        rw [hrun, dRun_of_pass hp hpass hu, exec_dRun_respond r hu]
      · intro (hu : u.ph = .done ∨ u.ph = .fault)
        rw [hrun, dRun_of_last_pass hp hpass (by rcases hu with h | h <;> simp [h]), complete_done]
    · exact ⟨fun h => by simp at h, fun _ => by rw [hrun, dRun_of_failed_pass hp hpass, complete_raised]⟩

/-! ### D.RUN in a sound state (R197, R198) -/

section
variable {s : State}

/-- The bits left are fewer than the passes D.RUN allows (R264). -/
theorem pendingBits_lt_dFuel (s : State) : (pendingBits s).length < dFuel s := by
  simp only [pendingBits, dFuel, List.length_append, bitsOf_length, byteBits_length]
  omega

/-- A procedure ends its session with END, the source used up, or raises a fault of the stream (R196, R198). -/
def StreamEnds (p : Proc Response) : Prop :=
  (∃ t, p = .done Response.finished t ∧ t.ph = .done ∧ t.src = [] ∧ t.upEos = true) ∨
  (∃ c t, p = .raised c t ∧ c ∈ [Cause.invalidHeader, .invalidCode, .storeFull])

theorem dRun_ends_session (hi : Inv s) (hp : s.ph = .dec0 ∨ s.ph = .dec1) : StreamEnds (dRun s) := by
  rw [dRun_of_session hp]
  obtain ⟨t, -, -, ⟨e, hend⟩ | ⟨c, hc, e⟩⟩ := dLoop_spec hi hp (pendingBits_lt_dFuel s) <;> rw [e]
  · exact .inl ⟨t, rfl, hend⟩
  · exact .inr ⟨c, t, rfl, by rcases hc with rfl | rfl <;> simp⟩

/-- D.RUN in a sound state where it is legal: the session it finds open, or the one it opens, ends; or none opens. -/
theorem dRun_ends (hi : Inv s) (hs : s.ph = .idle ∨ s.ph = .done ∨ s.ph = .dec0 ∨ s.ph = .dec1) :
    StreamEnds (dRun s) := by
  by_cases hp : s.ph = .dec0 ∨ s.ph = .dec1
  · exact dRun_ends_session hi hp
  · have hout : s.ph = .idle ∨ s.ph = .done := by tauto
    rcases dStart_cases s with e | ⟨v, fb, -, hf, e⟩
    · exact .inr ⟨_, _, dRun_of_failed_start hout e, by simp⟩
    · rw [dRun_of_start hout e rfl]
      exact dRun_ends_session (hi.dStarted hout (headerFields_some hf) _) (.inl rfl)

end

/-- Settles O46: D.RUN ends its stream, keeps the state sound and stays within the decompression side. -/
theorem dRunCompletes : Obligations.DRunCompletes := by
  refine ⟨fun s hi hs => ?_, fun s hs => command_illegal (by simp [hs]) (by simp [hs]),
    fun s hs => exec_in_fault Instr.noConfusion hs⟩
  obtain ⟨t, hrun⟩ := exec_next hi .dRun
  have ht := exec_keeps_inv Instr.noConfusion hi hrun
  obtain ⟨htrie, hpk, hS, hnext⟩ := (exec_within hrun).comp rfl
  refine ⟨t, hrun, ?_, htrie, hpk, hS, hnext, (exec_within hrun).pushed⟩
  rw [exec_dRun_of_legal hs] at hrun
  rcases dRun_ends hi hs with ⟨u, e, hph, hsrc, heos⟩ | ⟨c, u, e, hc⟩ <;> rw [e] at hrun <;> cases hrun
  · exact .inl ⟨hph, rfl, hsrc, heos, by simpa [hph] using ht.cause⟩
  · exact .inr ⟨rfl, hc, rfl⟩

/-! ### D.STEP by the code it reads (R191 to R196) -/

section
variable {s : State}

/-- The width of the first code is that of the counter 256 (R192 (a)). -/
theorem dWidth_first (hp : s.ph = .dec0) : dWidth s = if s.cfgVar then 9 else s.cfgBits := by
  rw [dWidth, if_pos hp]
  cases s.cfgVar with
  | false => rfl
  | true => exact codeWidth_variable_of_lt _ (by decide)

/-- The width of a later code is that of the counter `min(dec_next + 1, CAP)` (R192 (b)). -/
theorem dWidth_later (hi : Inv s) (hp : s.ph = .dec1) :
    dWidth s = if s.cfgVar then max 9 (bitLength (min (s.decNext + 1) (2 ^ s.cfgBits))) else s.cfgBits := by
  have hcap : s.decNext ≤ 2 ^ s.cfgBits := (hi.dec (.inr hp)).counter.2
  have hcounter : widthCounter s = min (s.decNext + 1) (2 ^ s.cfgBits) := by
    rw [widthCounter, cap]
    split <;> omega
  rw [dWidth, if_neg (by simp [hp]), hcounter, codeWidth]

/-- A code stands for its entry, or, past the table's end, for `old ++ [old[0]]` (R193). -/
theorem resolved_eq (c : Nat) (s : State) :
    resolved c s = if h : c < rdLen s then s.rd[c]'h else s.old ++ s.old.take 1 := by
  rw [resolved]
  split
  · rename_i h
    rw [rdLookup_of_lt h, Option.getD_some]
  · rename_i h
    rw [rdLookup_of_ge (Nat.not_lt.1 h), Option.getD_none]

end

/-- Settles O42: the pass reads a code, and step 1 resolves it or refuses it. -/
theorem dStepResolvesTheFirstCode : Obligations.DStepResolvesTheFirstCode := by
  intro s hi hp hl
  rw [← dWidth_first hp] at hl ⊢
  obtain ⟨c, k, b, hpass, hc, h7, hclean, hi', hbits⟩ := dStep_code hi (.inl hp) hl
  rw [if_pos hp] at hpass
  obtain ⟨hok, hbad⟩ := dFirst_spec hi' hp c
  refine ⟨c, k, b, hbits, hc, h7, hclean, fun hlt => ?_, fun hge => ?_⟩
  · rw [exec_dStep_of_session (.inl hp), hpass, (hok hlt).1]
    rfl
  · rw [exec_dStep_of_session (.inl hp), hpass, hbad hge]
    rfl

/-- Settles O43: the pass reads a code, and step 2 resolves it and extends the table, or refuses the rebuilt phrase. -/
theorem dStepResolvesALaterCode : Obligations.DStepResolvesALaterCode := by
  intro s w hi hp hw hl
  obtain rfl : w = dWidth s := hw.trans (dWidth_later hi hp).symm
  obtain ⟨c, k, b, hpass, hc, h7, hclean, hi', hbits⟩ := dStep_code hi (.inr hp) hl
  rw [if_neg (by simp [hp])] at hpass
  obtain ⟨hok, hbad⟩ := dNext_spec hi' hp c
  refine ⟨c, k, b, resolved c s, hbits, hc, h7, hclean, resolved_eq c s, fun hfits => ?_, fun hge hlong => ?_⟩
  · rw [exec_dStep_of_session (.inr hp), hpass, (hok hfits).1]
    rfl
  · rw [exec_dStep_of_session (.inr hp), hpass, hbad hge hlong]
    rfl

/-- Settles O44: the bits gathered are all that were pending, fewer than the width. -/
theorem dStepEndsAtEndOfStream : Obligations.DStepEndsAtEndOfStream := by
  intro s w hi hp hw hfew
  have hwidth : w = dWidth s := by
    rw [hw]
    rcases hp with hp | hp
    · simp [dWidth_first hp, hp]
    · simp [dWidth_later hi hp, hp]
  subst hwidth
  obtain ⟨b, hpass, hclean, hbits, -⟩ := dStep_end hi hp hfew
  have hcnt : b.cnt = (pendingBits s).length := by simpa using congrArg List.length hbits
  refine ⟨b, ?_, by omega, hclean, hbits⟩
  rw [exec_dStep_of_session hp, hpass]
  rfl

/-! ### The decompressor in step with the compressor (R193, R195, R200)

The compressor's dictionary is one phrase ahead of the decompressor's table: the phrase stored last ends with the first byte
of the match still held, which the decompressor learns from the next code. -/

/-- The table of the session `d` as the next code makes it, where that code stands for `S`: below CAP and past the first code
it gains `old ++ [S[0]]` (R195). -/
def anticipated (d : State) (S : Phrase) : List Phrase :=
  if d.ph = .dec1 ∧ d.decNext < cap d then d.rd ++ [d.old ++ S.take 1] else d.rd

/-- The decompression session `d` has read every code the compression session `s` has emitted: the table anticipated for the
match `s` holds has as many entries as the counter says, and every string stored under its code. -/
structure Mirrors (s d : State) : Prop where
  var : d.cfgVar = s.cfgVar
  bits : d.cfgBits = s.cfgBits
  phase : d.ph = .dec0 ∨ (d.ph = .dec1 ∧ s.compS ≠ [])
  counter : (anticipated d s.compS).length = s.encNext
  stored : ∀ p c, trieSearch s.trie p = some c → (anticipated d s.compS)[c.toNat]? = some p

/-- `u` is the session `d` after a code that stands for `S` (R191, R194). -/
structure Took (S : Phrase) (d u : State) : Prop where
  inv : Inv u
  phase : u.ph = .dec1
  var : u.cfgVar = d.cfgVar
  bits : u.cfgBits = d.cfgBits
  old : u.old = S
  table : u.rd = anticipated d S
  snk : u.snk = d.snk ++ S

section
variable {s d u : State} {S : Phrase} {c : Nat}

/-- The anticipated table has as many entries as the counter the next read's width is taken of (R192). -/
theorem anticipated_length (hi : Inv d) (hp : d.ph = .dec0 ∨ d.ph = .dec1) (S : Phrase) :
    (anticipated d S).length = if d.ph = .dec0 then 256 else widthCounter d := by
  have hd := hi.dec hp
  have hlen : d.decNext = d.rd.length := hd.counter.1
  rw [anticipated, widthCounter]
  rcases hp with hp | hp
  · have := hd.first hp
    simp [hp]
    omega
  · by_cases hroom : d.decNext < cap d <;> simp [hp, hroom, ← hlen]

theorem Mirrors.session (m : Mirrors s d) : d.ph = .dec0 ∨ d.ph = .dec1 := m.phase.imp_right And.left

/-- The decompressor reads at the width the compressor emits at (R172, R192; C1). -/
theorem Mirrors.width (m : Mirrors s d) (hi : Inv d) : dWidth d = codeWidth s.cfgVar s.cfgBits s.encNext := by
  rw [dWidth, ← anticipated_length hi m.session s.compS, m.counter, m.var, m.bits]

/-- A code whose anticipated entry is the string it stands for resolves to it: in the table, or, one past its end, as
`old ++ [old[0]]`, because `S` itself then begins with `old` (R193). -/
theorem resolved_of_anticipated (hold : d.old ≠ []) (h : (anticipated d S)[c]? = some S) : resolved c d = S := by
  rw [resolved, rdLookup]
  rw [anticipated] at h
  split at h
  · rcases Nat.lt_or_ge c d.rd.length with hlt | hge
    · rw [List.getElem?_append_left hlt] at h
      rw [h, Option.getD_some]
    · rw [List.getElem?_append_right hge, List.getElem?_singleton] at h
      rw [List.getElem?_eq_none hge, Option.getD_none]
      split at h
      · have hS : d.old ++ S.take 1 = S := Option.some.inj h
        have hhead : S.take 1 = d.old.take 1 := by
          rw [← hS, List.take_append_of_le_length (List.length_pos_iff.2 hold)]
        rw [← hhead, hS]
      · cases h
  · rw [h, Option.getD_some]

/-- A code of the anticipated table never rebuilds a phrase that is too long: one past the table's end, the table still
grows, and `old` is short (R199 (d)). -/
theorem fits_of_anticipated (hi : Inv d) (hp : d.ph = .dec1) (h : c < (anticipated d S).length) :
    c < rdLen d ∨ d.old.length + 1 ≤ d.config.phraseMax := by
  have hd := hi.dec (.inr hp)
  rw [anticipated] at h
  split at h
  · rename_i hgrows
    have hgrow := hd.growing hp hgrows.2
    have hmax := hi.decRange.2
    exact .inr (by rw [Config.phraseMax]; omega)
  · exact .inl h

/-- The first code, read, of the string it stands for (R191). -/
theorem dFirst_took (hi : Inv d) (hp : d.ph = .dec0) (h : (anticipated d S)[c]? = some S) :
    ∃ u, dFirst c d = .done Response.ok u ∧ Took S d u ∧ pendingBits u = pendingBits d := by
  have htable : ∀ T, anticipated d T = d.rd := fun T => if_neg (by simp [hp])
  have hc : c < 256 := by
    obtain ⟨hlt, -⟩ := List.getElem?_eq_some_iff.1 h
    rwa [anticipated_length hi (.inl hp), if_pos hp] at hlt
  have hS : S = [BitVec.ofNat 8 c] := by
    rw [htable] at h
    exact Option.some.inj (h.symm.trans ((hi.dec (.inl hp)).entry_byte hc))
  obtain ⟨hpass, hi'⟩ := (dFirst_spec hi hp c).1 hc
  subst hS
  exact ⟨_, hpass, ⟨hi', rfl, rfl, rfl, rfl, (htable _).symm, rfl⟩, rfl⟩

/-- A later code, read, of the string it stands for (R193, R195). -/
theorem dNext_took (hi : Inv d) (hp : d.ph = .dec1) (h : (anticipated d S)[c]? = some S) :
    ∃ u, dNext c d = .done Response.ok u ∧ Took S d u ∧ pendingBits u = pendingBits d := by
  obtain ⟨hlt, -⟩ := List.getElem?_eq_some_iff.1 h
  obtain ⟨hpass, hi'⟩ := (dNext_spec hi hp c).1 (fits_of_anticipated hi hp hlt)
  have hS := resolved_of_anticipated ((hi.dec (.inr hp)).previous hp) h
  refine ⟨_, hpass, ⟨hi', hp, rfl, rfl, hS, ?_, by rw [hS]⟩, rfl⟩
  simp only [anticipated, hp, hS, true_and]

/-- A pass whose next digits are a code's, of the string it stands for: the code is read, the digits after it stay. -/
theorem dStep_took {ds : List Bool} (hi : Inv d) (hp : d.ph = .dec0 ∨ d.ph = .dec1) (hc : c < 2 ^ dWidth d)
    (hbits : pendingBits d = bitsOf (dWidth d) c ++ ds) (h : (anticipated d S)[c]? = some S) :
    ∃ u, dStep d = .done Response.ok u ∧ Took S d u ∧ pendingBits u = ds := by
  obtain ⟨c', k, b, hpass, hc', -, -, hi', hbits'⟩ := dStep_code hi hp (by simp [hbits])
  obtain ⟨hdigits, hrest⟩ := List.append_inj (hbits'.symm.trans hbits) (by simp)
  obtain rfl := bitsOf_injective hc' hc hdigits
  have hread : ∃ u, dStep d = .done Response.ok u ∧ Took S { d with up := b, src := d.src.drop k } u ∧
      pendingBits u = bitsOf b.cnt b.acc ++ byteBits (d.src.drop k) := by
    rw [hpass]
    split
    · rename_i h0
      exact dFirst_took hi' h0 h
    · rename_i h0
      exact dNext_took hi' (hp.resolve_left h0) h
  obtain ⟨u, e, took, hpending⟩ := hread
  exact ⟨u, e, ⟨took.inv, took.phase, took.var, took.bits, took.old, took.table, took.snk⟩, hpending.trans hrest⟩

/-- D.RUN behind the compressor takes the code of the match held. -/
theorem Mirrors.read {code : Code} {ds : List Bool} (m : Mirrors s d) (hi : Inv d) (hs : Inv s) (hp : s.ph = .comp)
    (hcode : trieSearch s.trie s.compS = some code)
    (hbits : pendingBits d = bitsOf (codeWidth s.cfgVar s.cfgBits s.encNext) code.toNat ++ ds) :
    ∃ u, dRun d = dRun u ∧ Took s.compS d u ∧ pendingBits u = ds := by
  have hcomp := hs.comp hp
  have hfits := code_fits hcomp.counter.2 (hcomp.code_lt hs hcode)
  rw [← m.width hi] at hbits hfits
  obtain ⟨u, hpass, took, hrest⟩ := dStep_took hi m.session hfits hbits (m.stored _ _ hcode)
  exact ⟨u, dRun_of_pass m.session hpass (.inr took.phase), took, hrest⟩

/-- Having taken the match's code, the decompressor counts where the compressor does. -/
theorem Took.decNext_eq (took : Took s.compS d u) (m : Mirrors s d) : u.decNext = s.encNext := by
  rw [(took.inv.dec (.inr took.phase)).counter.1, rdLen, took.table, m.counter]

/-- Having taken the match's code, the decompressor anticipates what the compressor stores as it emits that code. -/
theorem Took.anticipated_eq (took : Took s.compS d u) (m : Mirrors s d) (b : Byte) :
    anticipated u [b] =
      if s.encNext < cap s then anticipated d s.compS ++ [s.compS ++ [b]] else anticipated d s.compS := by
  have hcap : cap u = cap s := by rw [cap, cap, took.bits, m.bits]
  rw [anticipated, took.decNext_eq m, hcap, took.table, took.old]
  simp only [took.phase, true_and, List.take_succ_cons, List.take_zero]

/-- The match extended, the decompressor is where it was: the byte its next entry ends with stays the match's first. -/
theorem Mirrors.extend (m : Mirrors s d) (b : Byte) (bs : List Byte) :
    Mirrors { s with src := bs, compS := s.compS ++ [b] } d := by
  have hsame : anticipated d (s.compS ++ [b]) = anticipated d s.compS := by
    rcases m.phase with h0 | ⟨-, hne⟩
    · simp [anticipated, h0]
    · rw [anticipated, anticipated, List.take_append_of_le_length (List.length_pos_iff.2 hne)]
  exact ⟨m.var, m.bits, m.phase.imp_right fun h => ⟨h.1, by simp⟩, by rw [hsame]; exact m.counter,
    by rw [hsame]; exact m.stored⟩

/-- `tr` and `n` are the trie and the counter of `s` once the string `T` was offered for storing: with `T` under the
counter's code while it is below CAP, and as they were at CAP (R174). -/
structure Offered (s : State) (T : Phrase) (tr : Trie) (n : Nat) : Prop where
  frozen : cap s ≤ s.encNext → tr = s.trie ∧ n = s.encNext
  grown : s.encNext < cap s → n = s.encNext + 1 ∧ trAlloc tr = trAlloc s.trie + 1 ∧
    Grown s.trie tr T (BitVec.ofNat 32 s.encNext)

/-- The counter, as a code, is itself (R166). -/
theorem toNat_counter (hs : Inv s) : (BitVec.ofNat 32 s.encNext).toNat = s.encNext := by
  have hle := hs.encRange.2
  have hpow : 2 ^ s.config.maxBits ≤ 2 ^ 30 := Nat.pow_le_pow_right (by omega) hs.config.2
  exact Nat.mod_eq_of_lt (by omega)

/-- The code emitted and taken, the string stored and anticipated, both sides stand together again. -/
theorem Mirrors.emit (m : Mirrors s d) (took : Took s.compS d u) (hs : Inv s) {b : Byte}
    (hmissed : trieSearch s.trie (s.compS ++ [b]) = none) {bs x : List Byte} {pk : BitBuf} {tr : Trie} {n : Nat}
    (hoffer : Offered s (s.compS ++ [b]) tr n) :
    Mirrors { s with src := bs, snk := x, pk := pk, trie := tr, encNext := n, compS := [b] } u := by
  have hnext := took.anticipated_eq m b
  by_cases hroom : s.encNext < cap s
  · obtain ⟨rfl, -, hg⟩ := hoffer.grown hroom
    rw [if_pos hroom] at hnext
    refine ⟨took.var.trans m.var, took.bits.trans m.bits, .inr ⟨took.phase, by simp⟩, ?_, fun p c hpc => ?_⟩
    · rw [hnext, List.length_append, m.counter, List.length_singleton]
    · rw [hnext]
      rw [hg.search hs.trie hmissed] at hpc
      split at hpc
      · rename_i hpT
        obtain rfl : BitVec.ofNat 32 s.encNext = c := Option.some.inj hpc
        rw [toNat_counter hs, ← m.counter, hpT, List.getElem?_concat_length]
      · have hold := m.stored p c hpc
        rw [List.getElem?_append_left (List.getElem?_eq_some_iff.1 hold).1, hold]
  · obtain ⟨rfl, rfl⟩ := hoffer.frozen (Nat.not_lt.1 hroom)
    rw [if_neg hroom] at hnext
    exact ⟨took.var.trans m.var, took.bits.trans m.bits, .inr ⟨took.phase, by simp⟩, by rw [hnext]; exact m.counter,
      by rw [hnext]; exact m.stored⟩

/-! ### What is pushed decodes to what is left to compress (R200) -/

/-- Every reader that stands where the session `s` stands, with the digits `ds` left to read, ends with the rest of `s`'s
input pushed: the match held and the bytes of the source. -/
def DecodesRest (s : State) (ds : List Bool) : Prop :=
  ∀ d, Inv d → Mirrors s d → pendingBits d = ds →
    ∃ u, dRun d = .done Response.finished u ∧ u.ph = .done ∧ u.snk = d.snk ++ (s.compS ++ s.src) ∧
      u.cfgVar = d.cfgVar ∧ u.cfgBits = d.cfgBits

/-- Fewer than eight bits left are no code: D.RUN ends with nothing pushed (R175, R196). -/
theorem dRun_of_padding (hi : Inv d) (hp : d.ph = .dec0 ∨ d.ph = .dec1) (hfew : (pendingBits d).length ≤ 7) :
    ∃ u, dRun d = .done Response.finished u ∧ u.ph = .done ∧ u.snk = d.snk ∧ u.cfgVar = d.cfgVar ∧ u.cfgBits = d.cfgBits := by
  have hwidth := (dWidth_range hi hp).1
  obtain ⟨b, hpass, -⟩ := dStep_end hi hp (by omega)
  exact ⟨_, dRun_of_last_pass hp hpass (by simp), rfl, rfl, rfl, rfl⟩

theorem decodesRest_of_nothing_held {z : Nat} (hS : s.compS = []) (hsrc : s.src = []) (hz : z ≤ 7) :
    DecodesRest s (List.replicate z false) := by
  intro d hi m hbits
  obtain ⟨u, hrun, hph, hsnk, hparams⟩ := dRun_of_padding hi m.session (by simpa [hbits] using hz)
  exact ⟨u, hrun, hph, by simp [hsnk, hS, hsrc], hparams⟩

theorem decodesRest_of_last_match {z : Nat} {code : Code} (hs : Inv s) (hp : s.ph = .comp) (hsrc : s.src = [])
    (hcode : trieSearch s.trie s.compS = some code) (hz : z ≤ 7) :
    DecodesRest s (bitsOf (codeWidth s.cfgVar s.cfgBits s.encNext) code.toNat ++ List.replicate z false) := by
  intro d hi m hbits
  obtain ⟨d1, hrun1, took, hrest⟩ := m.read hi hs hp hcode hbits
  obtain ⟨u, hrun, hph, hsnk, hvar, hb⟩ := dRun_of_padding took.inv (.inr took.phase) (by simpa [hrest] using hz)
  exact ⟨u, hrun1.trans hrun, hph, by simp [hsnk, took.snk, hsrc], hvar.trans took.var, hb.trans took.bits⟩

theorem decodesRest_of_found {b : Byte} {bs : List Byte} {ds : List Bool} (hsrc : s.src = b :: bs)
    (h : DecodesRest { s with src := bs, compS := s.compS ++ [b] } ds) : DecodesRest s ds := by
  intro d hi m hbits
  obtain ⟨u, hrun, hph, hsnk, hparams⟩ := h d hi (m.extend b bs) hbits
  exact ⟨u, hrun, hph, by simp [hsnk, hsrc], hparams⟩

theorem decodesRest_of_missed {b : Byte} {bs x : List Byte} {pk : BitBuf} {tr : Trie} {n : Nat} {code : Code}
    {ds : List Bool} (hs : Inv s) (hp : s.ph = .comp) (hsrc : s.src = b :: bs)
    (hmissed : trieSearch s.trie (s.compS ++ [b]) = none) (hcode : trieSearch s.trie s.compS = some code)
    (hoffer : Offered s (s.compS ++ [b]) tr n)
    (h : DecodesRest { s with src := bs, snk := x, pk := pk, trie := tr, encNext := n, compS := [b] } ds) :
    DecodesRest s (bitsOf (codeWidth s.cfgVar s.cfgBits s.encNext) code.toNat ++ ds) := by
  intro d hi m hbits
  obtain ⟨d1, hrun1, took, hrest⟩ := m.read hi hs hp hcode hbits
  obtain ⟨u, hrun, hph, hsnk, hvar, hb⟩ := h d1 took.inv (m.emit took hs hmissed hoffer) hrest
  exact ⟨u, hrun1.trans hrun, hph, by simp [hsnk, took.snk, hsrc], hvar.trans took.var, hb.trans took.bits⟩

/-- What C.RUN pushes in a sound session are the bits held and then digits that decode to the rest of its input. -/
theorem cRun_decodesRest (hs : Inv s) (hp : s.ph = .comp) :
    ∃ t x ds, cRun s = .done Response.finished t ∧ t.ph = .done ∧ t.snk = s.snk ++ x ∧
      byteBits x = packerBits s ++ ds ∧ DecodesRest s ds := by
  obtain ⟨rest, hrest⟩ : ∃ l, s.src = l := ⟨_, rfl⟩
  induction rest generalizing s with
  | nil =>
    obtain ⟨x, hfinish, -, hnone, hheld⟩ := cFinish_spec hs hp
    have hrun := cRun_of_last_pass hp ((cStep_of_src_nil hrest).trans hfinish) (by simp)
    by_cases hS : s.compS = []
    · obtain ⟨z, hz, hbits⟩ := hnone hS
      exact ⟨_, x, _, hrun, rfl, rfl, hbits, decodesRest_of_nothing_held hS hrest hz⟩
    · obtain ⟨code, z, hcode, -, hz, hbits⟩ := hheld hS
      exact ⟨_, x, _, hrun, rfl, rfl, hbits.trans (List.append_assoc ..), decodesRest_of_last_match hs hp hrest hcode hz⟩
  | cons b bs ih =>
    have hpass := cStep_of_src_cons hrest
    have hs1 : Inv { s with src := bs } := hs.frame bs s.snk s.upEos s.host s.out
    cases hc : trieSearch s.trie (s.compS ++ [b]) with
    | some c =>
      obtain ⟨t, x, ds, hrun, hph, hsnk, hbits, hdec⟩ := ih (hs1.extendMatch (s := { s with src := bs }) hp hc) hp rfl
      have hfound := hpass.trans (cConsume_found (s := { s with src := bs }) hc)
      exact ⟨t, x, ds, (cRun_of_pass hp hfound hp).trans hrun, hph, hsnk, hbits, decodesRest_of_found hrest hdec⟩
    | none =>
      obtain ⟨code, y, pk, tr, n, hcode, -, hmissed, -, -, hemit, hfrozen, hgrown, hs2⟩ := cConsume_missed hs1 hp hc
      obtain ⟨t, x, ds, hrun, hph, hsnk, hbits, hdec⟩ := ih hs2 hp rfl
      refine ⟨t, y ++ x, bitsOf (codeWidth s.cfgVar s.cfgBits s.encNext) code.toNat ++ ds,
        (cRun_of_pass hp (hpass.trans hmissed) hp).trans hrun, hph, ?_, ?_,
        decodesRest_of_missed hs hp hrest hc hcode ⟨hfrozen, hgrown⟩ hdec⟩
      · rw [hsnk, List.append_assoc]
      · calc byteBits (y ++ x) = (byteBits y ++ bitsOf pk.cnt pk.acc) ++ ds := by
              rw [byteBits_append, hbits, List.append_assoc]
              rfl
          _ = packerBits s ++ (bitsOf (codeWidth s.cfgVar s.cfgBits s.encNext) code.toNat ++ ds) := by
              rw [hemit, List.append_assoc]
              rfl

end

/-! ### The round trip (R200) -/

/-- A session just opened with the parameters of a compression session just opened stands where it stands: the table and the
trie hold the alphabet. -/
theorem mirrors_of_start {s d : State} (hc : s.config.legal) (hph : d.ph = .dec0) (hvar : d.cfgVar = s.cfgVar)
    (hbits : d.cfgBits = s.cfgBits) (hrd : d.rd = alphabet) : Mirrors (cStart s) d := by
  have htable : ∀ S, anticipated d S = alphabet := fun S => (if_neg (by simp [hph])).trans hrd
  refine ⟨by simpa using hvar, by simpa using hbits, .inl hph, ?_, fun p c h => ?_⟩
  · rw [htable, alphabet_length, cStart_eq hc]
  · rw [cStart_eq hc] at h
    rw [htable]
    simp only [trieSearch_alphabet le_rfl] at h
    split at h
    · rename_i b
      rw [if_pos b.isLt] at h
      obtain rfl := Option.some.inj h
      have hcode : (b.setWidth 32).toNat = b.toNat := by
        have := b.isLt
        rw [BitVec.toNat_setWidth]
        omega
      rw [hcode, alphabet_getElem? b.isLt, BitVec.ofNat_toNat, BitVec.setWidth_eq]
    · cases h

/-- A session just opened in any state is sound but for what the decompression driver never touches. -/
theorem inv_sessionOpened {r : State} (hc : r.config.legal) (v : Bool) {fb : Nat} (hfb : 9 ≤ fb ∧ fb ≤ r.config.maxBits)
    (body : List Byte) : Inv (withUntouched State.reset (sessionOpened r v fb body)) :=
  ((inv_configured r.config hc v fb hfb []).frame [] r.snk false [] .nothing).dStarted (.inl rfl) hfb body

/-- Settles O60: the bytes pushed are the header and a body whose digits decode to the source; D.START takes the parameters
from the header and opens a session that stands where C.START's stood. -/
theorem roundTrip : Obligations.RoundTrip := by
  intro s hs hph hsnk
  obtain ⟨t, x, ds, hrun, htph, htsnk, hbits, hdec⟩ := cRun_decodesRest (hs.cStart hph) (cStart_ph s)
  have hcomp : s.ph ≠ .comp := by rcases hph with h | h <;> simp [h]
  refine ⟨respond Response.finished t, ?_, htph, fun r hrph hrc hrsrc hrsnk => ?_⟩
  · rw [exec_cRun_of_legal (by tauto), cRun_of_not_comp hcomp, hrun, complete_done]
  have hlegal : r.config.legal := hrc ▸ hs.config
  have hfb : 9 ≤ s.cfgBits ∧ s.cfgBits ≤ r.config.maxBits := hrc ▸ hs.bits
  have hsrc : r.src = headerBytes s ++ x := by
    rw [hrsrc, respond_snk, htsnk, cStart_eq hs.config, hsnk, List.nil_append]
  have hstart : dStart r = .done () (sessionOpened r s.cfgVar s.cfgBits x) :=
    dStart_of_good_header rfl hsrc (headerFields_of_parameters hlegal s.cfgVar hfb.1 hfb.2)
  have hpending : pendingBits (sessionOpened r s.cfgVar s.cfgBits x) = ds := by
    rw [cStart_eq hs.config] at hbits
    exact hbits
  obtain ⟨u, hdrun, huph, husnk, huvar, hubits⟩ := hdec _ (inv_sessionOpened hlegal s.cfgVar hfb x)
    (mirrors_of_start hs.config rfl rfl rfl rfl) hpending
  have hreader : dRun r = .done Response.finished (withUntouched r u) := by
    have hside := dRun_withUntouched r (s := withUntouched State.reset (sessionOpened r s.cfgVar s.cfgBits x)) (.inl rfl)
    rw [hdrun] at hside
    exact (dRun_of_start hrph hstart rfl).trans hside
  refine ⟨respond Response.finished (withUntouched r u), ?_, huph, ?_, huvar, hubits⟩
  · rw [exec_dRun_of_legal (by tauto), hreader, complete_done]
  · simpa [sessionOpened, hrsnk, cStart_eq hs.config] using husnk

end Sys2Proof.Machine
end

section
/-! PROOFS. Family 45_control.md: the host's moves, the three control commands, the legality table, and the phases a command
leaves. -/

namespace Sys2Proof.Machine

/-! ### The host's moves (R217, R238, R250) -/

section
variable {s : State}

theorem step_of_move {m : HostMove} {ms : List HostMove} (h : s.host = m :: ms) :
    step s = performMove m { s with host := ms } := by
  rw [step, runHost, h]

theorem step_of_no_move (h : s.host = []) : step s = .next s := by
  rw [step, runHost, h]

theorem hostBind_of_busy (x : List Byte) (h : busy s = true) : hostBind x s = .refused .bindWhileBusy :=
  if_pos h

theorem hostBind_of_not_busy (x : List Byte) (h : ¬ busy s = true) :
    hostBind x s = .next { s with src := x, snk := [], out := .nothing } :=
  if_neg h

end

/-- Settles O7, by the host's next move; for `H.BIND`, by whether the block is busy. -/
theorem hostMovesDoWhatTheyMay : Obligations.HostMovesDoWhatTheyMay := by
  refine ⟨fun s x ms hhost => ⟨fun hs => ?_, fun hs => ?_⟩, fun s ms hhost => step_of_move hhost,
    fun s ms hhost => step_of_move hhost, fun s => step_of_no_move⟩
  · have hidle : ¬ busy { s with host := ms } = true := by
      rw [busy_iff]
      rcases hs with hs | hs | hs <;> simp [hs]
    exact (step_of_move hhost).trans (hostBind_of_not_busy x hidle)
  · exact (step_of_move hhost).trans (hostBind_of_busy x (busy_iff.2 hs))

/-! ### CTL.NOP and CTL.RST (R210, R211) -/

theorem decode_ctlNop (p : Phrase) : decode ⟨0#64, p⟩ = .instr .ctlNop :=
  decode_opcode_operandB 0x00#8 0#32 p

theorem decode_ctlRst (p : Phrase) : decode ⟨0x0100000000000000#64, p⟩ = .instr .ctlRst :=
  decode_opcode_operandB 0x01#8 0#32 p

theorem mem_legalPhases_ctlNop {p : Phase} : p ∈ legalPhases .ctlNop ↔ p ≠ .fault := by
  cases p <;> decide

theorem mem_legalPhases_ctlRst (p : Phase) : p ∈ legalPhases .ctlRst := by
  cases p <;> decide

/-- Settles O8: in every phase but FAULT the command is legal, and its body only answers. -/
theorem nopChangesNothing : Obligations.NopChangesNothing :=
  ⟨decode_ctlNop, fun _ hs => command_legal hs (mem_legalPhases_ctlNop.2 hs), fun _ hs => exec_in_fault Instr.noConfusion hs⟩

/-- Settles O9: the next state is the reset block with the response given. -/
theorem rstRestoresResetValues : Obligations.RstRestoresResetValues :=
  ⟨decode_ctlRst, fun s => ⟨respond Response.ok (resetBlock s), rfl, rfl, rfl, rfl, rfl, rfl, rfl, rfl, rfl, rfl, rfl, rfl,
    rfl, rfl, rfl, rfl, rfl, rfl, rfl, rfl, rfl, rfl⟩⟩

/-! ### CTL.CFG (R212) -/

section
variable {s : State} {v : Byte} {fb : Code}

theorem configure_of_flag_too_big (hv : 1 < v.toNat) : configure v fb s = .raised .badOperand s :=
  if_pos hv

theorem configure_of_bits_out_of_range (h : fb.toInt < 9 ∨ (s.config.maxBits : Int) < fb.toInt) :
    configure v fb s = .raised .badOperand s := by
  rw [configure]
  split
  · rfl
  · exact if_pos h

theorem configure_of_legal (hv : v.toNat ≤ 1) (h9 : 9 ≤ fb.toInt) (hmax : fb.toInt ≤ s.config.maxBits) :
    configure v fb s = .done () { s with cfgVar := decide (v = 1), cfgBits := fb.toNat } := by
  have hrange : ¬ (fb.toInt < 9 ∨ (s.config.maxBits : Int) < fb.toInt) := by omega
  have hfits : ¬ 1 < operandA v := Nat.not_lt.2 hv
  have hflag : decide (operandA v = 1) = decide (v = 1) := decide_eq_decide.2 (BitVec.toNat_inj (x := v) (y := 1))
  rw [configure, if_neg hfits, hflag]
  exact if_neg hrange

theorem exec_ctlCfg_of_outside (hs : s.ph = .idle ∨ s.ph = .done) :
    exec (.ctlCfg v fb) s = complete ((configure v fb s).andThen fun _ t => .done Response.ok t) := by
  rw [exec, execCtlCfg, command_outside (mem_outsideSession.2 hs)]

end

/-- Settles O10, by the first check of CTL.CFG that fails, or none. -/
theorem cfgSetsLegalParameters : Obligations.CfgSetsLegalParameters := by
  refine ⟨fun s v fb hs => ⟨fun hv h9 hmax => ?_, fun hbad => ?_⟩,
    fun v fb => shutOutOfSessions_of_legalPhases Instr.noConfusion rfl⟩
  · rw [exec_ctlCfg_of_outside hs, configure_of_legal hv h9 hmax]
    rfl
  · have hraised : configure v fb s = .raised .badOperand s :=
      hbad.elim configure_of_flag_too_big configure_of_bits_out_of_range
    rw [exec_ctlCfg_of_outside hs, hraised]
    rfl

/-! ### The legality table (R213) -/

/-- Settles O47: CTL.RST is legal in every phase, and every other command begins with the preamble. -/
theorem illegalPhaseRaisesBadCmd : Obligations.IllegalPhaseRaisesBadCmd := by
  intro i s hf hillegal
  by_cases hi : i = .ctlRst
  · subst hi
    exact absurd (mem_legalPhases_ctlRst s.ph) hillegal
  · obtain ⟨body, hexec⟩ := exec_eq_command hi
    rw [hexec]
    exact command_illegal hf hillegal

/-- Settles O48: the preamble answers before the command's body can run. -/
theorem faultPhaseIsSticky : Obligations.FaultPhaseIsSticky :=
  fun _ _ => exec_in_fault

/-! ### The phases in which procedures end (R214) -/

/-- A procedure that is done leaves one of the phases `ps`. -/
def Proc.DoneIn {α : Type} (ps : List Phase) : Proc α → Prop
  | .done _ t => t.ph ∈ ps
  | .raised _ _ => True
  | .stuck _ => True

theorem Proc.doneIn_iff {α : Type} {ps : List Phase} {p : Proc α} :
    p.DoneIn ps ↔ ∀ a t, p = .done a t → t.ph ∈ ps := by
  cases p <;> simp [DoneIn]

theorem Proc.DoneIn.mono {α : Type} {ps qs : List Phase} {p : Proc α} (hp : p.DoneIn ps) (h : ps ⊆ qs) : p.DoneIn qs :=
  Proc.doneIn_iff.2 fun a t e => h (Proc.doneIn_iff.1 hp a t e)

theorem Proc.DoneIn.andThen {α β : Type} {ps qs : List Phase} {p : Proc α} {k : α → State → Proc β} (hp : p.DoneIn ps)
    (hk : ∀ a t, t.ph ∈ ps → (k a t).DoneIn qs) : (p.andThen k).DoneIn qs := by
  cases p with
  | done a t => exact hk a t hp
  | raised c t => trivial
  | stuck f => trivial

section
variable {s u : State}

/-! The procedures of the unit-level commands leave the phase as it is. -/

theorem configure_doneIn (v : Byte) (fb : Code) : (configure v fb s).DoneIn [s.ph] := by
  rw [configure]
  split
  · trivial
  split
  · trivial
  · exact List.mem_singleton_self _

theorem insertPhrase_doneIn (p : Phrase) (v : Code) : (insertPhrase p v s).DoneIn [s.ph] := by
  rw [insertPhrase]
  split
  · exact List.mem_singleton_self _
  · trivial

theorem rdExtend_doneIn (c : Nat) (p : Phrase) : (rdExtend c p s).DoneIn [s.ph] := by
  rw [rdExtend]
  split
  · trivial
  split
  · trivial
  split
  · trivial
  · exact List.mem_singleton_self _

theorem pkEmit_doneIn (c w : Nat) : (pkEmit c w s).DoneIn [s.ph] := by
  rcases pkEmit_cases c w s with e | ⟨x, b, e⟩ <;> rw [e]
  · trivial
  · exact List.mem_singleton_self _

theorem pkFlush_ph (s : State) : (pkFlush s).ph = s.ph := by
  obtain ⟨x, e⟩ := pkFlush_frame s
  rw [e]

theorem upRead_doneIn (w : Nat) : (upRead w s).DoneIn [s.ph] := by
  rcases upRead_cases w s with e | ⟨r, k, b, eos, e⟩ <;> rw [e]
  · trivial
  · exact List.mem_singleton_self _

/-! The drivers' passes and loops (R171, R176, R190, R194, R197). -/

theorem cStep_doneIn (hp : s.ph = .comp) : (cStep s).DoneIn [.comp, .done] := by
  refine Proc.doneIn_iff.2 fun r u hpass => ?_
  rcases cStep_done hpass with ⟨-, -, -, hph⟩ | ⟨-, -, hph⟩
  · simp [hph, hp]
  · simp [hph]

theorem cLoop_of_closed (n : Nat) (h : s.ph ≠ .comp) : cLoop n s = .done () s := by
  cases n with
  | zero => rfl
  | succ n => rw [cLoop, if_neg h]

/-- With more passes than the source has bytes the loop ends in DONE, because a pass that stays in COMP consumes a byte. -/
theorem cLoop_doneIn {n : Nat} (hp : s.ph = .comp) (hn : s.src.length < n) : (cLoop n s).DoneIn [.done] := by
  induction n generalizing s with
  | zero => simp at hn
  | succ n ih =>
    rw [cLoop, if_pos hp]
    cases hpass : cStep s with
    | done r u =>
      rw [andThen_done]
      rcases cStep_done hpass with ⟨b, hsrc, -, hph⟩ | ⟨-, -, hph⟩
      · rw [hsrc, List.length_cons] at hn
        exact ih (hph.trans hp) (by omega)
      · rw [cLoop_of_closed n (by simp [hph])]
        exact List.mem_singleton.2 hph
    | raised c u => trivial
    | stuck f => trivial

theorem cRun_doneIn (s : State) : (cRun s).DoneIn [.done] := by
  have hsession : ∀ t : State, t.ph = .comp → (cRun t).DoneIn [.done] := fun t hp => by
    rw [cRun_of_comp hp]
    exact (cLoop_doneIn hp (Nat.lt_succ_self _)).andThen fun _ _ h => h
  by_cases hp : s.ph = .comp
  · exact hsession s hp
  · rw [cRun_of_not_comp hp]
    exact hsession (cStart s) (cStart_ph s)

theorem dStart_doneIn (s : State) : (dStart s).DoneIn [.dec0] := by
  rcases dStart_cases s with e | ⟨v, fb, -, -, e⟩ <;> rw [e]
  · trivial
  · exact List.mem_singleton_self _

theorem dStep_doneIn (hp : s.ph = .dec0 ∨ s.ph = .dec1) : (dStep s).DoneIn [.dec1, .done] := by
  refine Proc.doneIn_iff.2 fun r u hpass => ?_
  rcases dStep_done hp hpass with ⟨-, hph, -⟩ | ⟨-, hph⟩ <;> simp [hph]

/-- With enough passes for the bits left the loop ends in DONE, because a pass that stays in the session takes some. -/
theorem dLoop_doneIn {n : Nat} (hp : s.ph = .dec0 ∨ s.ph = .dec1) (hn : dFuel s ≤ n) : (dLoop n s).DoneIn [.done] := by
  induction n generalizing s with
  | zero => simp [dFuel] at hn
  | succ n ih =>
    rw [dLoop, if_pos hp]
    cases hpass : dStep s with
    | done r u =>
      rw [andThen_done]
      rcases dStep_done hp hpass with ⟨-, hph, hless⟩ | ⟨-, hph⟩
      · exact ih (.inr hph) (by omega)
      · rw [dLoop_of_closed n (by simp [hph])]
        exact List.mem_singleton.2 hph
    | raised c u => trivial
    | stuck f => trivial

theorem dRun_doneIn (s : State) : (dRun s).DoneIn [.done] := by
  have hopen : (if s.ph = .dec0 ∨ s.ph = .dec1 then .done () s else dStart s : Proc Unit).DoneIn [.dec0, .dec1] := by
    split
    · rename_i hp
      simpa [Proc.DoneIn] using hp
    · exact (dStart_doneIn s).mono (by simp)
  exact hopen.andThen fun _ _ h => (dLoop_doneIn (by simpa using h) le_rfl).andThen fun _ _ hdone => hdone

end

/-! ### The phase transitions (R214) -/

/-- Every command but CTL.RST is its preamble and a body that, done where the command is legal, leaves a phase the table
gives. -/
theorem exec_eq_commandDoneIn {i : Instr} (hi : i ≠ .ctlRst) :
    ∃ body, (∀ s, exec i s = command (legalPhases i) body s) ∧
      ∀ s, s.ph ∈ legalPhases i → (body s).DoneIn (phasesAfter s.ph i) := by
  cases i with
  | ctlRst => exact absurd rfl hi
  | ctlNop | trieClr | trieInit | trieSize | rdInit | pkClr | upClr | widGet =>
    exact ⟨_, fun _ => rfl, fun _ _ => List.mem_singleton_self _⟩
  | ctlCfg v fb => exact ⟨_, fun _ => rfl, fun _ _ => (configure_doneIn v fb).andThen fun _ _ h => h⟩
  | trieIns p v =>
    refine ⟨_, fun _ => rfl, fun s _ => ?_⟩
    split
    · trivial
    · exact (insertPhrase_doneIn p v).andThen fun _ _ h => h
  | trieSrch p =>
    refine ⟨_, fun _ => rfl, fun s _ => ?_⟩
    split
    · trivial
    · cases trieSearch s.trie p <;> exact List.mem_singleton_self _
  | rdExt c p => exact ⟨_, fun _ => rfl, fun _ _ => (rdExtend_doneIn _ p).andThen fun _ _ h => h⟩
  | rdLkp c =>
    refine ⟨_, fun _ => rfl, fun s _ => ?_⟩
    cases rdLookup (operandB c) s <;> exact List.mem_singleton_self _
  | pkEmit c w => exact ⟨_, fun _ => rfl, fun _ _ => (pkEmit_doneIn _ _).andThen fun _ _ h => h⟩
  | pkFlush => exact ⟨_, fun _ => rfl, fun s _ => List.mem_singleton.2 (pkFlush_ph s)⟩
  | upRead w =>
    exact ⟨_, fun _ => rfl, fun _ _ => (upRead_doneIn _).andThen fun r _ h => by cases r <;> exact h⟩
  | cStart => exact ⟨_, fun _ => rfl, fun s _ => List.mem_singleton.2 (cStart_ph s)⟩
  | cStep => exact ⟨_, fun _ => rfl, fun _ h => cStep_doneIn (List.mem_singleton.1 h)⟩
  | cRun => exact ⟨_, fun _ => rfl, fun s _ => cRun_doneIn s⟩
  | dStart => exact ⟨_, fun _ => rfl, fun s _ => (dStart_doneIn s).andThen fun _ _ h => h⟩
  | dStep => exact ⟨_, fun _ => rfl, fun _ h => dStep_doneIn (by simpa [legalPhases] using h)⟩
  | dRun => exact ⟨_, fun _ => rfl, fun s _ => dRun_doneIn s⟩

/-- A command that does not end in FAULT has run its body to the end in a phase where it is legal. -/
theorem command_ph_of_doneIn {legal : List Phase} {body : State → Proc Response} {s t : State} {ps : List Phase}
    (hbody : s.ph ∈ legal → (body s).DoneIn ps) (h : command legal body s = .next t) (ht : t.ph ≠ .fault) :
    s.ph ∈ legal ∧ t.ph ∈ ps := by
  rcases command_cases legal body s with ⟨hf, e⟩ | ⟨-, -, e⟩ | ⟨-, hlegal, e⟩ <;> rw [e] at h
  · cases h
    exact absurd hf ht
  · cases h
    exact absurd rfl ht
  · rcases complete_eq_next.1 h with ⟨r, u, hdone, rfl⟩ | ⟨c, u, -, rfl⟩
    · exact ⟨hlegal, Proc.doneIn_iff.1 (hbody hlegal) r u hdone⟩
    · exact absurd rfl ht

/-- Settles O49: CTL.RST is legal in every phase and leaves IDLE; every other command ends in FAULT or runs its body to the
end, and in phase FAULT it only answers. -/
theorem phaseTransitionTable : Obligations.PhaseTransitionTable := by
  intro i s t h
  by_cases hi : i = .ctlRst
  · subst hi
    cases h
    exact ⟨fun _ => ⟨mem_legalPhases_ctlRst s.ph, List.mem_singleton_self _⟩, fun _ hne => absurd rfl hne⟩
  · refine ⟨?_, fun hf _ => ?_⟩
    · obtain ⟨body, hexec, hbody⟩ := exec_eq_commandDoneIn hi
      rw [hexec] at h
      exact command_ph_of_doneIn (hbody s) h
    · rw [exec_in_fault hi hf] at h
      cases h
      exact hf

end Sys2Proof.Machine
end


section
/-! PROOFS. Family 60_exceptions.md: the causes a command raises, and what a command that enters phase FAULT has changed. -/

namespace Sys2Proof.Machine

/-! ### How a command's body enters phase FAULT (R220, R228, R229) -/

/-- What command `i`, begun in `s`, may have reached in `t` when it raises (R229): D.START has pulled bytes, D.STEP has read a
code, D.RUN has run whole passes, and every other command has changed nothing. -/
def ReachedAtFault (i : Instr) (s t : State) : Prop :=
  match i with
  | .dStart => ∃ src, t = { s with src := src }
  | .dStep => ∃ src up, t = { s with src := src, up := up }
  | .dRun => True
  | _ => t = s

/-- A procedure of command `i`, begun in `s`, leads to phase FAULT only by a raise of a cause listed for `i`, at a state `i`
may have reached. -/
def Proc.FaultsAs {α : Type} (i : Instr) (s : State) : Proc α → Prop
  | .done _ t => t.ph ≠ .fault
  | .raised c t => c ∈ causesOf i ∧ ReachedAtFault i s t
  | .stuck _ => True

theorem Proc.FaultsAs.andThen {α β : Type} {i : Instr} {s : State} {p : Proc α} {k : α → State → Proc β}
    (hp : p.FaultsAs i s) (hk : ∀ a t, t.ph ≠ .fault → (k a t).FaultsAs i s) : (p.andThen k).FaultsAs i s := by
  cases p with
  | done a t => exact hk a t hp
  | raised c t => exact hp
  | stuck f => trivial

/-- A command that enters phase FAULT was not legal, or its body raised. -/
theorem command_enters_fault {i : Instr} {legal : List Phase} {body : State → Proc Response} {s t : State}
    (hs : s.ph ≠ .fault) (hbody : s.ph ∈ legal → (body s).FaultsAs i s) (h : command legal body s = .next t)
    (ht : t.ph = .fault) :
    (s.ph ∉ legal ∧ t = faultEntry .badCmd s) ∨
    (s.ph ∈ legal ∧ ∃ c u, c ∈ causesOf i ∧ ReachedAtFault i s u ∧ t = faultEntry c u) := by
  rcases command_cases legal body s with ⟨hf, -⟩ | ⟨-, hillegal, e⟩ | ⟨-, hlegal, e⟩
  · exact absurd hf hs
  · rw [e] at h
    cases h
    exact .inl ⟨hillegal, rfl⟩
  · have hfaults := hbody hlegal
    rw [e] at h
    rcases complete_eq_next.1 h with ⟨r, u, hp, rfl⟩ | ⟨c, u, hp, rfl⟩ <;> rw [hp] at hfaults
    · exact absurd ht hfaults
    · obtain ⟨hc, hu⟩ := hfaults
      exact .inr ⟨hlegal, c, u, hc, hu, rfl⟩

section
variable {s : State}

/-! The procedures of the units raise before they change anything. -/

theorem configure_faultsAs (hf : s.ph ≠ .fault) (v : Byte) (fb : Code) : (configure v fb s).FaultsAs (.ctlCfg v fb) s := by
  rw [configure]
  split
  · exact ⟨List.mem_singleton_self _, rfl⟩
  split
  · exact ⟨List.mem_singleton_self _, rfl⟩
  · exact hf

theorem insertPhrase_faultsAs (hi : Inv s) (hf : s.ph ≠ .fault) (p : Phrase) (v : Code) :
    (insertPhrase p v s).FaultsAs (.trieIns p v) s := by
  rcases trieInsert_cases hi.trie hi.arena p v with ⟨t', e, -, -⟩ | e | e <;> simp only [insertPhrase, e]
  · exact hf
  · exact ⟨by simp [causesOf], rfl⟩
  · exact ⟨by simp [causesOf], rfl⟩

theorem rdExtend_faultsAs (hf : s.ph ≠ .fault) (c : Code) (p : Phrase) :
    (rdExtend (operandB c) p s).FaultsAs (.rdExt c p) s := by
  rw [rdExtend]
  split
  · exact ⟨by simp [causesOf], rfl⟩
  split
  · exact ⟨by simp [causesOf], rfl⟩
  split
  · exact ⟨by simp [causesOf], rfl⟩
  · exact hf

theorem pkEmit_faultsAs (hf : s.ph ≠ .fault) (c : Code) (w : Byte) :
    (pkEmit (operandB c) (operandA w) s).FaultsAs (.pkEmit c w) s := by
  rcases pkEmit_cases (operandB c) (operandA w) s with e | ⟨x, b, e⟩ <;> rw [e]
  · exact ⟨List.mem_singleton_self _, rfl⟩
  · exact hf

theorem upRead_faultsAs (hf : s.ph ≠ .fault) (w : Byte) : (upRead (operandA w) s).FaultsAs (.upRead w) s := by
  rcases upRead_cases (operandA w) s with e | ⟨r, k, b, eos, e⟩ <;> rw [e]
  · exact ⟨List.mem_singleton_self _, rfl⟩
  · exact hf

/-! The compression driver raises nothing in a sound state (R178). -/

theorem cStep_faultsAs (hi : Inv s) (hp : s.ph = .comp) : (cStep s).FaultsAs .cStep s := by
  have hopen : s.ph ≠ .fault := by simp [hp]
  cases hsrc : s.src with
  | nil =>
    obtain ⟨x, e, -⟩ := cFinish_spec hi hp
    rw [cStep_of_src_nil hsrc, e]
    exact Phase.noConfusion
  | cons b bs =>
    rw [cStep_of_src_cons hsrc]
    cases hfound : trieSearch s.trie (s.compS ++ [b]) with
    | some c =>
      rw [cConsume_found (s := { s with src := bs }) hfound]
      exact hopen
    | none =>
      obtain ⟨_, _, _, _, _, -, -, e, -⟩ :=
        cConsume_missed (s := { s with src := bs }) (hi.frame bs s.snk s.upEos s.host s.out) hp hfound
      rw [e]
      exact hopen

theorem cRun_faultsAs (hi : Inv s) (hs : s.ph = .idle ∨ s.ph = .done ∨ s.ph = .comp) : (cRun s).FaultsAs .cRun s := by
  obtain ⟨_, _, _, _, e, -⟩ := cRun_spec hi hs
  rw [e]
  exact Phase.noConfusion

/-! The decompression driver raises for the header or the code it has read (R190, R191, R193). -/

theorem dStart_faultsAs (s : State) : (dStart s).FaultsAs .dStart s := by
  rcases dStart_cases s with e | ⟨v, fb, -, -, e⟩ <;> rw [e]
  · exact ⟨List.mem_singleton_self _, _, rfl⟩
  · exact Phase.noConfusion

/-- D.STEP raises before it pushes: step 1 and step 2 refuse a code in the state its reading has left, and the extension of
the table does not raise in a sound state. -/
theorem dStep_faultsAs (hi : Inv s) (hp : s.ph = .dec0 ∨ s.ph = .dec1) : (dStep s).FaultsAs .dStep s := by
  by_cases hl : dWidth s ≤ (pendingBits s).length
  · obtain ⟨c, k, b, hpass, -, -, -, hi', -⟩ := dStep_code hi hp hl
    rw [hpass]
    by_cases h0 : s.ph = .dec0
    · obtain ⟨hok, hbad⟩ := dFirst_spec hi' h0 c
      rw [if_pos h0]
      by_cases hc : c < 256
      · rw [(hok hc).1]
        exact Phase.noConfusion
      · rw [hbad (Nat.not_lt.1 hc)]
        exact ⟨by simp [causesOf], _, _, rfl⟩
    · have h1 : s.ph = .dec1 := hp.resolve_left h0
      obtain ⟨hok, hbad⟩ := dNext_spec hi' h1 c
      rw [if_neg h0]
      by_cases hc : c < rdLen s ∨ s.old.length + 1 ≤ s.config.phraseMax
      · rw [(hok hc).1]
        exact fun hf => Phase.noConfusion (h1.symm.trans hf)
      · obtain ⟨hge, hlong⟩ := not_or.1 hc
        rw [hbad (Nat.not_lt.1 hge) (Nat.not_le.1 hlong)]
        exact ⟨by simp [causesOf], _, _, rfl⟩
  · obtain ⟨b, e, -⟩ := dStep_end hi hp (Nat.lt_of_not_le hl)
    rw [e]
    exact Phase.noConfusion

theorem dRun_faultsAs (hi : Inv s) (hs : s.ph = .idle ∨ s.ph = .done ∨ s.ph = .dec0 ∨ s.ph = .dec1) :
    (dRun s).FaultsAs .dRun s := by
  rcases dRun_ends hi hs with ⟨t, e, hph, -, -⟩ | ⟨c, t, e, hc⟩ <;> rw [e]
  · exact fun hf => Phase.noConfusion (hph.symm.trans hf)
  · exact ⟨hc, trivial⟩

end

/-! ### How a command enters phase FAULT -/

/-- Every command but CTL.RST is its preamble and a body that, in a sound state where the command is legal, leads to FAULT
only by a listed raise. -/
theorem exec_eq_commandFaultsAs {i : Instr} (hi : i ≠ .ctlRst) :
    ∃ body, (∀ s, exec i s = command (legalPhases i) body s) ∧
      ∀ s, Inv s → s.ph ≠ .fault → s.ph ∈ legalPhases i → (body s).FaultsAs i s := by
  cases i with
  | ctlRst => exact absurd rfl hi
  | ctlNop | trieClr | trieInit | trieSize | rdInit | pkClr | upClr | widGet =>
    exact ⟨_, fun _ => rfl, fun _ _ hf _ => hf⟩
  | ctlCfg v fb => exact ⟨_, fun _ => rfl, fun _ _ hf _ => (configure_faultsAs hf v fb).andThen fun _ _ h => h⟩
  | trieIns p v =>
    refine ⟨_, fun _ => rfl, fun s hs hf _ => ?_⟩
    split
    · exact ⟨by simp [causesOf], rfl⟩
    · exact (insertPhrase_faultsAs hs hf p v).andThen fun _ _ h => h
  | trieSrch p =>
    refine ⟨_, fun _ => rfl, fun s _ hf _ => ?_⟩
    split
    · exact ⟨List.mem_singleton_self _, rfl⟩
    · cases trieSearch s.trie p <;> exact hf
  | rdExt c p => exact ⟨_, fun _ => rfl, fun _ _ hf _ => (rdExtend_faultsAs hf c p).andThen fun _ _ h => h⟩
  | rdLkp c =>
    refine ⟨_, fun _ => rfl, fun s _ hf _ => ?_⟩
    cases rdLookup (operandB c) s <;> exact hf
  | pkEmit c w => exact ⟨_, fun _ => rfl, fun _ _ hf _ => (pkEmit_faultsAs hf c w).andThen fun _ _ h => h⟩
  | pkFlush => exact ⟨_, fun _ => rfl, fun s _ hf _ => (pkFlush_ph s).trans_ne hf⟩
  | upRead w =>
    exact ⟨_, fun _ => rfl, fun _ _ hf _ => (upRead_faultsAs hf w).andThen fun r _ h => by cases r <;> exact h⟩
  | cStart => exact ⟨_, fun _ => rfl, fun s _ _ _ => (cStart_ph s).trans_ne Phase.noConfusion⟩
  | cStep => exact ⟨_, fun _ => rfl, fun _ hs _ h => cStep_faultsAs hs (List.mem_singleton.1 h)⟩
  | cRun => exact ⟨_, fun _ => rfl, fun _ hs _ h => cRun_faultsAs hs (by simpa [legalPhases] using h)⟩
  | dStart => exact ⟨_, fun _ => rfl, fun s _ _ _ => (dStart_faultsAs s).andThen fun _ _ h => h⟩
  | dStep => exact ⟨_, fun _ => rfl, fun _ hs _ h => dStep_faultsAs hs (by simpa [legalPhases] using h)⟩
  | dRun => exact ⟨_, fun _ => rfl, fun _ hs _ h => dRun_faultsAs hs (by simpa [legalPhases] using h)⟩

/-- A command that enters phase FAULT in a sound state: BAD_CMD with nothing reached, or a listed cause in a state the command
may have reached. -/
theorem exec_enters_fault {i : Instr} {s t : State} (hs : Inv s) (hf : s.ph ≠ .fault) (h : exec i s = .next t)
    (ht : t.ph = .fault) :
    (s.ph ∉ legalPhases i ∧ t = faultEntry .badCmd s) ∨
    (s.ph ∈ legalPhases i ∧ ∃ c u, c ∈ causesOf i ∧ ReachedAtFault i s u ∧ t = faultEntry c u) := by
  by_cases hi : i = .ctlRst
  · subst hi
    cases h
    cases ht
  · obtain ⟨body, hexec, hbody⟩ := exec_eq_commandFaultsAs hi
    rw [hexec] at h
    exact command_enters_fault hf (hbody s hs hf) h ht

/-- Settles O50: the preamble raises BAD_CMD, or the body raises a listed cause; fault entry records the cause and answers it. -/
theorem onlyListedCausesAreRaised : Obligations.OnlyListedCausesAreRaised := by
  intro i s t hs hf h ht
  rcases exec_enters_fault hs hf h ht with ⟨hillegal, rfl⟩ | ⟨hlegal, c, u, hc, -, rfl⟩
  · exact ⟨fun _ => rfl, fun hlegal => absurd hlegal hillegal, rfl⟩
  · exact ⟨fun hillegal => absurd hlegal hillegal, fun _ => hc, rfl⟩

/-- A command other than D.RUN has at most pulled from the source and filled the unpacker when it raises: D.STEP both, D.START
the first, the others neither (R229). -/
theorem ReachedAtFault.frame {i : Instr} {s u : State} (h : ReachedAtFault i s u) (hi : i ≠ .dRun) :
    ∃ src up, u = { s with src := src, up := up } ∧ (i ≠ .dStep → up = s.up) ∧
      (i ≠ .dStep → i ≠ .dStart → src = s.src) := by
  cases i with
  | dRun => exact absurd rfl hi
  | dStep =>
    obtain ⟨src, up, rfl⟩ := h
    exact ⟨src, up, rfl, fun hne => absurd rfl hne, fun hne => absurd rfl hne⟩
  | dStart =>
    obtain ⟨src, rfl⟩ := h
    exact ⟨src, s.up, rfl, fun _ => rfl, fun _ hne => absurd rfl hne⟩
  | _ => exact ⟨s.src, s.up, h, fun _ => rfl, fun _ _ => rfl⟩

/-- Settles O51: fault entry writes phase, cause and response over the state the command had reached. -/
theorem faultsArePrecise : Obligations.FaultsArePrecise := by
  intro i s t hs hf h ht hi
  have hpulled := (exec_within h).pulled
  rcases exec_enters_fault hs hf h ht with ⟨-, rfl⟩ | ⟨-, c, u, -, hu, rfl⟩
  · exact ⟨rfl, fun _ => rfl, fun _ _ => rfl, hpulled⟩
  · obtain ⟨src, up, rfl, hup, hsrc⟩ := hu.frame hi
    exact ⟨rfl, hup, hsrc, hpulled⟩

end Sys2Proof.Machine
end
